-- ==== Sys2Proof/Word.lean ====
section
/-! DEFINITION. The word types of the block (spec/00_scope.md R11, spec/10_state.md R20). -/

namespace Sys2Proof

/-- A 64-bit word: an operand word, a result word, an engine register, an entry of `RES`. -/
abbrev Word := BitVec 64

/-- A 32-bit word: the output of PCG32, the operand of the 32-bit rotations. -/
abbrev Half := BitVec 32

/-- A 128-bit word: the PCG64 registers and the entropy input `ENT`. -/
abbrev Wide := BitVec 128

/-- The 16-bit header of a command packet (R70). -/
abbrev Header := BitVec 16

end Sys2Proof
end

