-- ==== Sys2Proof/Syntax.lean ====
section
/-! DEFINITION. The commands of the block, one constructor per row of spec/opcode_table.json (spec/30_encoding.md R79),
the packets that carry them (R70) and the reasons a packet is illegal (R80). -/

namespace Sys2Proof

/-- The five engine cores, in the order of the engine index `e` (R2). -/
inductive Engine where
  | lcg
  | pcg32
  | pcg64
  | sm64
  | xo
deriving DecidableEq, Repr

/-- A command with its operand words, as they stand in the packet: "every operand is a whole 64-bit word" (R76). A
128-bit operand is its low word and its high word (spec/20_memory.md R52). -/
inductive Instr where
  -- unit LCG
  /-- `INIT.LCG` (R160). -/
  | initLcg (seed : Word)
  /-- `INITE.LCG` (R161). -/
  | initeLcg
  /-- `INITP.LCG` (R162). -/
  | initpLcg (seed mul inc modulus : Word)
  /-- `NEXT.LCG` (R164). -/
  | nextLcg
  /-- `GETSTATE.LCG` (R165). -/
  | getstateLcg
  /-- `MIN.LCG` (R121). -/
  | minLcg
  /-- `MAX.LCG` (R122). -/
  | maxLcg
  /-- `NEXTN.LCG` (R128). -/
  | nextnLcg (n : Word)
  /-- `NEXTR.LCG` (R129). -/
  | nextrLcg (a b : Word)
  /-- `REAL.LCG` (R132). -/
  | realLcg
  /-- `REALR.LCG` (R133). -/
  | realrLcg (a b : Word)
  /-- `HEADS.LCG` (R134). -/
  | headsLcg
  /-- `HEADSW.LCG` (R140). -/
  | headswLcg (weight : Word)
  -- unit PCG32
  /-- `INIT.PCG32` (R180). -/
  | initPcg32 (seed : Word)
  /-- `INITE.PCG32` (R181). -/
  | initePcg32
  /-- `INITP.PCG32` (R182). -/
  | initpPcg32 (seed mul inc : Word)
  /-- `NEXT.PCG32` (R184). -/
  | nextPcg32
  /-- `GETSTATE.PCG32` (R185). -/
  | getstatePcg32
  /-- `MIN.PCG32` (R121). -/
  | minPcg32
  /-- `MAX.PCG32` (R122). -/
  | maxPcg32
  /-- `NEXTN.PCG32` (R128). -/
  | nextnPcg32 (n : Word)
  /-- `NEXTR.PCG32` (R129). -/
  | nextrPcg32 (a b : Word)
  /-- `REAL.PCG32` (R132). -/
  | realPcg32
  /-- `REALR.PCG32` (R133). -/
  | realrPcg32 (a b : Word)
  /-- `HEADS.PCG32` (R134). -/
  | headsPcg32
  /-- `HEADSW.PCG32` (R140). -/
  | headswPcg32 (weight : Word)
  -- unit PCG64
  /-- `INIT.PCG64` (R190). -/
  | initPcg64 (seedLo seedHi : Word)
  /-- `INITE.PCG64` (R191). -/
  | initePcg64
  /-- `INITP.PCG64` (R192). -/
  | initpPcg64 (seedLo seedHi mulLo mulHi incLo incHi : Word)
  /-- `NEXT.PCG64` (R194). -/
  | nextPcg64
  /-- `GETSTATE.PCG64` (R195). -/
  | getstatePcg64
  /-- `MIN.PCG64` (R121). -/
  | minPcg64
  /-- `MAX.PCG64` (R122). -/
  | maxPcg64
  /-- `NEXTN.PCG64` (R128). -/
  | nextnPcg64 (n : Word)
  /-- `NEXTR.PCG64` (R129). -/
  | nextrPcg64 (a b : Word)
  /-- `REAL.PCG64` (R132). -/
  | realPcg64
  /-- `REALR.PCG64` (R133). -/
  | realrPcg64 (a b : Word)
  /-- `HEADS.PCG64` (R134). -/
  | headsPcg64
  /-- `HEADSW.PCG64` (R140). -/
  | headswPcg64 (weight : Word)
  -- unit SM64
  /-- `INIT.SM64` (R210). -/
  | initSm64 (seed : Word)
  /-- `INITE.SM64` (R211). -/
  | initeSm64
  /-- `NEXT.SM64` (R213). -/
  | nextSm64
  /-- `GETSTATE.SM64` (R214). -/
  | getstateSm64
  /-- `MIN.SM64` (R121). -/
  | minSm64
  /-- `MAX.SM64` (R122). -/
  | maxSm64
  /-- `NEXTN.SM64` (R128). -/
  | nextnSm64 (n : Word)
  /-- `NEXTR.SM64` (R129). -/
  | nextrSm64 (a b : Word)
  /-- `REAL.SM64` (R132). -/
  | realSm64
  /-- `REALR.SM64` (R133). -/
  | realrSm64 (a b : Word)
  /-- `HEADS.SM64` (R134). -/
  | headsSm64
  /-- `HEADSW.SM64` (R140). -/
  | headswSm64 (weight : Word)
  -- unit XO
  /-- `INIT.XO` (R236). -/
  | initXo (seed : Word)
  /-- `INITE.XO` (R237). -/
  | initeXo
  /-- `NEXT.XO` (R233). -/
  | nextXo
  /-- `GETSTATE.XO` (R234). -/
  | getstateXo
  /-- `MIN.XO` (R121). -/
  | minXo
  /-- `MAX.XO` (R122). -/
  | maxXo
  /-- `NEXTN.XO` (R128). -/
  | nextnXo (n : Word)
  /-- `NEXTR.XO` (R129). -/
  | nextrXo (a b : Word)
  /-- `REAL.XO` (R132). -/
  | realXo
  /-- `REALR.XO` (R133). -/
  | realrXo (a b : Word)
  /-- `HEADS.XO` (R134). -/
  | headsXo
  /-- `HEADSW.XO` (R140). -/
  | headswXo (weight : Word)
  -- unit ROT
  /-- `ROTL32` (R104). -/
  | rotl32 (value count : Word)
  /-- `ROTR32` (R105). -/
  | rotr32 (value count : Word)
  /-- `ROTL64` (R106). -/
  | rotl64 (value count : Word)
  /-- `ROTR64` (R107). -/
  | rotr64 (value count : Word)
  -- unit SMP; `e` is the engine of the `eng` field
  /-- `SHUFFLE` (R263). -/
  | shuffle (e : Engine) (len : Word)
  /-- `SAMPLE` (R267). -/
  | sample (e : Engine) (n k : Word)
  /-- `SAMPLEWR` (R270). -/
  | samplewr (e : Engine) (n k : Word)
deriving DecidableEq, Repr

/-- A command packet: one header and the operand words the host supplied (R70). -/
structure Packet where
  hdr : Header
  words : List Word
deriving DecidableEq, Repr

/-- The conditions of R80, by name: why the decoder rejects a packet. The response is `E_ILLEGAL` for each of them. -/
inductive Illegal where
  /-- (a) `unit` is 7..15. -/
  | reservedUnit
  /-- (b) `op` is reserved for its unit. -/
  | reservedOp
  /-- (c) `op` is `INITP` and `unit` is `SM64` or `XO`. -/
  | absentInitp
  /-- (d) `rsv` is not 0. -/
  | reservedBits
  /-- (e) `eng` is not 0 and `unit` is not `SMP`. -/
  | engineNotZero
  /-- (f) `unit` is `SMP` and `eng` is 5, 6 or 7. -/
  | reservedEngine
  /-- (g) the number of operand words differs from the selected command's. -/
  | operandCount
deriving DecidableEq, Repr

end Sys2Proof
end

