-- ==== Sys2Proof/WellFormed.lean ====
section
/-! DEFINITION. When a packet is illegal: spec/30_encoding.md R80, one Bool for each of its conditions (a) to (g), written
over the header's value as a number and independently of the decoder. A term of `Instr` needs no check: its engine is one
of the five and each of its operands is one whole word. -/

namespace Sys2Proof

/-- Bits 15:12 of the header (R71). -/
def Packet.unitField (p : Packet) : Nat := p.hdr.toNat / 4096

/-- Bits 11:8 of the header (R71). -/
def Packet.opField (p : Packet) : Nat := p.hdr.toNat / 256 % 16

/-- Bits 7:3 of the header (R71). -/
def Packet.rsvField (p : Packet) : Nat := p.hdr.toNat / 8 % 32

/-- Bits 2:0 of the header (R71). -/
def Packet.engField (p : Packet) : Nat := p.hdr.toNat % 8

/-- R80 (a): `unit` is 7 to 15. -/
def Packet.unitReserved (p : Packet) : Bool := decide (7 ≤ p.unitField)

/-- R80 (b): `op` is reserved for its unit: 7, 14, 15 for an engine (R73), 4 to 15 for `ROT` (R74), 3 to 15 for
`SMP` (R75). -/
def Packet.opReserved (p : Packet) : Bool :=
  if p.unitField ≤ 4 then decide (p.opField = 7 ∨ 14 ≤ p.opField)
  else if p.unitField = 5 then decide (4 ≤ p.opField)
  else decide (p.unitField = 6 ∧ 3 ≤ p.opField)

/-- R80 (c): `INITP` with `unit` = `SM64` or `XO`. -/
def Packet.initpAbsent (p : Packet) : Bool :=
  decide (p.opField = 2 ∧ (p.unitField = 3 ∨ p.unitField = 4))

/-- R80 (d): `rsv` is not 0. -/
def Packet.rsvNotZero (p : Packet) : Bool := decide (p.rsvField ≠ 0)

/-- R80 (e): `eng` is not 0 and `unit` is not `SMP`. -/
def Packet.engNotZero (p : Packet) : Bool := decide (p.engField ≠ 0 ∧ p.unitField ≠ 6)

/-- R80 (f): `unit` is `SMP` and `eng` is 5, 6 or 7. -/
def Packet.engReserved (p : Packet) : Bool := decide (p.unitField = 6 ∧ 5 ≤ p.engField)

/-- The number of operand words R76 lists for the command that the unit and op fields select. -/
def Packet.operandsListed (p : Packet) : Nat :=
  match p.unitField, p.opField with
  | 0, 2 => 4
  | 1, 2 => 3
  | 2, 2 => 6
  | 2, 0 => 2
  | 5, _ => 2
  | 6, 0 => 1
  | 6, _ => 2
  | _, 0 => 1
  | _, 8 => 1
  | _, 9 => 2
  | _, 11 => 2
  | _, 13 => 1
  | _, _ => 0

/-- R80 (g): the number of operand words supplied differs from the selected command's. -/
def Packet.countWrong (p : Packet) : Bool := decide (p.words.length ≠ p.operandsListed)

/-- R80: the packet meets one of the conditions (a) to (g). -/
def Packet.illegal (p : Packet) : Bool :=
  p.unitReserved || p.opReserved || p.initpAbsent || p.rsvNotZero || p.engNotZero || p.engReserved || p.countWrong

end Sys2Proof
end

