-- ==== Sys2Proof/Decode.lean ====
section
/-! DEFINITION. The decoder of spec/30_encoding.md: from a packet to a command or to the name of the condition of R80 that
makes it illegal. Total on every (header, word list) pair (R80). After it the encoder, written from the match column of
R79, and the reading of a packet from the bits of spec/opcode_table.json's numbering. -/

namespace Sys2Proof

/-! ## Header fields (R71) -/

/-- `hdr[15:12]`. -/
def Header.unit (h : Header) : Nat := (h.extractLsb' 12 4).toNat

/-- `hdr[11:8]`. -/
def Header.op (h : Header) : Nat := (h.extractLsb' 8 4).toNat

/-- `hdr[7:3]`. -/
def Header.rsv (h : Header) : Nat := (h.extractLsb' 3 5).toNat

/-- `hdr[2:0]`. -/
def Header.eng (h : Header) : Nat := (h.extractLsb' 0 3).toNat

/-! ## Operand counts (R76, R80 g) -/

/-- A command with no operand word. -/
def operands0 (i : Instr) : List Word → Except Illegal Instr
  | [] => .ok i
  | _ => .error .operandCount

/-- A command with one operand word. -/
def operands1 (f : Word → Instr) : List Word → Except Illegal Instr
  | [a] => .ok (f a)
  | _ => .error .operandCount

/-- A command with two operand words. -/
def operands2 (f : Word → Word → Instr) : List Word → Except Illegal Instr
  | [a, b] => .ok (f a b)
  | _ => .error .operandCount

/-- A command with three operand words. -/
def operands3 (f : Word → Word → Word → Instr) : List Word → Except Illegal Instr
  | [a, b, c] => .ok (f a b c)
  | _ => .error .operandCount

/-- A command with four operand words. -/
def operands4 (f : Word → Word → Word → Word → Instr) : List Word → Except Illegal Instr
  | [a, b, c, d] => .ok (f a b c d)
  | _ => .error .operandCount

/-- A command with six operand words. -/
def operands6 (f : Word → Word → Word → Word → Word → Word → Instr) : List Word → Except Illegal Instr
  | [a, b, c, d, e, g] => .ok (f a b c d e g)
  | _ => .error .operandCount

/-! ## The units -/

/-- The operations of unit `LCG` (R73) with their operand words (R76). -/
def decodeLcg (op : Nat) (ws : List Word) : Except Illegal Instr :=
  match op with
  | 0x0 => operands1 .initLcg ws
  | 0x1 => operands0 .initeLcg ws
  | 0x2 => operands4 .initpLcg ws
  | 0x3 => operands0 .nextLcg ws
  | 0x4 => operands0 .getstateLcg ws
  | 0x5 => operands0 .minLcg ws
  | 0x6 => operands0 .maxLcg ws
  | 0x8 => operands1 .nextnLcg ws
  | 0x9 => operands2 .nextrLcg ws
  | 0xA => operands0 .realLcg ws
  | 0xB => operands2 .realrLcg ws
  | 0xC => operands0 .headsLcg ws
  | 0xD => operands1 .headswLcg ws
  | _ => .error .reservedOp

/-- The operations of unit `PCG32` (R73) with their operand words (R76). -/
def decodePcg32 (op : Nat) (ws : List Word) : Except Illegal Instr :=
  match op with
  | 0x0 => operands1 .initPcg32 ws
  | 0x1 => operands0 .initePcg32 ws
  | 0x2 => operands3 .initpPcg32 ws
  | 0x3 => operands0 .nextPcg32 ws
  | 0x4 => operands0 .getstatePcg32 ws
  | 0x5 => operands0 .minPcg32 ws
  | 0x6 => operands0 .maxPcg32 ws
  | 0x8 => operands1 .nextnPcg32 ws
  | 0x9 => operands2 .nextrPcg32 ws
  | 0xA => operands0 .realPcg32 ws
  | 0xB => operands2 .realrPcg32 ws
  | 0xC => operands0 .headsPcg32 ws
  | 0xD => operands1 .headswPcg32 ws
  | _ => .error .reservedOp

/-- The operations of unit `PCG64` (R73) with their operand words (R76). -/
def decodePcg64 (op : Nat) (ws : List Word) : Except Illegal Instr :=
  match op with
  | 0x0 => operands2 .initPcg64 ws
  | 0x1 => operands0 .initePcg64 ws
  | 0x2 => operands6 .initpPcg64 ws
  | 0x3 => operands0 .nextPcg64 ws
  | 0x4 => operands0 .getstatePcg64 ws
  | 0x5 => operands0 .minPcg64 ws
  | 0x6 => operands0 .maxPcg64 ws
  | 0x8 => operands1 .nextnPcg64 ws
  | 0x9 => operands2 .nextrPcg64 ws
  | 0xA => operands0 .realPcg64 ws
  | 0xB => operands2 .realrPcg64 ws
  | 0xC => operands0 .headsPcg64 ws
  | 0xD => operands1 .headswPcg64 ws
  | _ => .error .reservedOp

/-- The operations of unit `SM64` (R73) with their operand words (R76). -/
def decodeSm64 (op : Nat) (ws : List Word) : Except Illegal Instr :=
  match op with
  | 0x0 => operands1 .initSm64 ws
  | 0x1 => operands0 .initeSm64 ws
  | 0x2 => .error .absentInitp
  | 0x3 => operands0 .nextSm64 ws
  | 0x4 => operands0 .getstateSm64 ws
  | 0x5 => operands0 .minSm64 ws
  | 0x6 => operands0 .maxSm64 ws
  | 0x8 => operands1 .nextnSm64 ws
  | 0x9 => operands2 .nextrSm64 ws
  | 0xA => operands0 .realSm64 ws
  | 0xB => operands2 .realrSm64 ws
  | 0xC => operands0 .headsSm64 ws
  | 0xD => operands1 .headswSm64 ws
  | _ => .error .reservedOp

/-- The operations of unit `XO` (R73) with their operand words (R76). -/
def decodeXo (op : Nat) (ws : List Word) : Except Illegal Instr :=
  match op with
  | 0x0 => operands1 .initXo ws
  | 0x1 => operands0 .initeXo ws
  | 0x2 => .error .absentInitp
  | 0x3 => operands0 .nextXo ws
  | 0x4 => operands0 .getstateXo ws
  | 0x5 => operands0 .minXo ws
  | 0x6 => operands0 .maxXo ws
  | 0x8 => operands1 .nextnXo ws
  | 0x9 => operands2 .nextrXo ws
  | 0xA => operands0 .realXo ws
  | 0xB => operands2 .realrXo ws
  | 0xC => operands0 .headsXo ws
  | 0xD => operands1 .headswXo ws
  | _ => .error .reservedOp
/-- The operations of unit `ROT` (R74). -/
def decodeRot (op : Nat) (ws : List Word) : Except Illegal Instr :=
  match op with
  | 0x0 => operands2 .rotl32 ws
  | 0x1 => operands2 .rotr32 ws
  | 0x2 => operands2 .rotl64 ws
  | 0x3 => operands2 .rotr64 ws
  | _ => .error .reservedOp

/-- The engine an `eng` field names: "5, 6 and 7 are illegal" (R75). -/
def Engine.decode (eng : Nat) : Option Engine :=
  match eng with
  | 0 => some .lcg
  | 1 => some .pcg32
  | 2 => some .pcg64
  | 3 => some .sm64
  | 4 => some .xo
  | _ => none

/-- The operations of unit `SMP` for the engine `e` (R75). -/
def decodeSmp (e : Engine) (op : Nat) (ws : List Word) : Except Illegal Instr :=
  match op with
  | 0x0 => operands1 (.shuffle e) ws
  | 0x1 => operands2 (.sample e) ws
  | 0x2 => operands2 (.samplewr e) ws
  | _ => .error .reservedOp

/-- A unit other than `SMP`: its `eng` field must be 0 (R71, R80 e). -/
def decodeOther (eng : Nat) (r : Except Illegal Instr) : Except Illegal Instr :=
  if eng = 0 then r else .error .engineNotZero

/-- The decoder (R80): the command of a legal packet, or the name of a condition the packet meets. Which of several
conditions it names is the model's own order: the response is `E_ILLEGAL` for each. -/
def decode (p : Packet) : Except Illegal Instr :=
  if p.hdr.rsv ≠ 0 then .error .reservedBits
  else match p.hdr.unit with
    | 0 => decodeOther p.hdr.eng (decodeLcg p.hdr.op p.words)
    | 1 => decodeOther p.hdr.eng (decodePcg32 p.hdr.op p.words)
    | 2 => decodeOther p.hdr.eng (decodePcg64 p.hdr.op p.words)
    | 3 => decodeOther p.hdr.eng (decodeSm64 p.hdr.op p.words)
    | 4 => decodeOther p.hdr.eng (decodeXo p.hdr.op p.words)
    | 5 => decodeOther p.hdr.eng (decodeRot p.hdr.op p.words)
    | 6 => match Engine.decode p.hdr.eng with
      | some e => decodeSmp e p.hdr.op p.words
      | none => .error .reservedEngine
    | _ => .error .reservedUnit

/-! ## The encoder (R79) -/

/-- The `eng` field of an engine (R72). -/
def Engine.encode : Engine → Header
  | .lcg => 0
  | .pcg32 => 1
  | .pcg64 => 2
  | .sm64 => 3
  | .xo => 4

/-- The packet of a command: the match value of R79, the engine in the low three bits for `SMP`, and the operand words in
the order of R76. -/
def encode (i : Instr) : Packet :=
  match i with
  | .initLcg seed => ⟨0x0000, [seed]⟩
  | .initeLcg => ⟨0x0100, []⟩
  | .initpLcg seed mul inc modulus => ⟨0x0200, [seed, mul, inc, modulus]⟩
  | .nextLcg => ⟨0x0300, []⟩
  | .getstateLcg => ⟨0x0400, []⟩
  | .minLcg => ⟨0x0500, []⟩
  | .maxLcg => ⟨0x0600, []⟩
  | .nextnLcg n => ⟨0x0800, [n]⟩
  | .nextrLcg a b => ⟨0x0900, [a, b]⟩
  | .realLcg => ⟨0x0A00, []⟩
  | .realrLcg a b => ⟨0x0B00, [a, b]⟩
  | .headsLcg => ⟨0x0C00, []⟩
  | .headswLcg weight => ⟨0x0D00, [weight]⟩
  | .initPcg32 seed => ⟨0x1000, [seed]⟩
  | .initePcg32 => ⟨0x1100, []⟩
  | .initpPcg32 seed mul inc => ⟨0x1200, [seed, mul, inc]⟩
  | .nextPcg32 => ⟨0x1300, []⟩
  | .getstatePcg32 => ⟨0x1400, []⟩
  | .minPcg32 => ⟨0x1500, []⟩
  | .maxPcg32 => ⟨0x1600, []⟩
  | .nextnPcg32 n => ⟨0x1800, [n]⟩
  | .nextrPcg32 a b => ⟨0x1900, [a, b]⟩
  | .realPcg32 => ⟨0x1A00, []⟩
  | .realrPcg32 a b => ⟨0x1B00, [a, b]⟩
  | .headsPcg32 => ⟨0x1C00, []⟩
  | .headswPcg32 weight => ⟨0x1D00, [weight]⟩
  | .initPcg64 seedLo seedHi => ⟨0x2000, [seedLo, seedHi]⟩
  | .initePcg64 => ⟨0x2100, []⟩
  | .initpPcg64 seedLo seedHi mulLo mulHi incLo incHi => ⟨0x2200, [seedLo, seedHi, mulLo, mulHi, incLo, incHi]⟩
  | .nextPcg64 => ⟨0x2300, []⟩
  | .getstatePcg64 => ⟨0x2400, []⟩
  | .minPcg64 => ⟨0x2500, []⟩
  | .maxPcg64 => ⟨0x2600, []⟩
  | .nextnPcg64 n => ⟨0x2800, [n]⟩
  | .nextrPcg64 a b => ⟨0x2900, [a, b]⟩
  | .realPcg64 => ⟨0x2A00, []⟩
  | .realrPcg64 a b => ⟨0x2B00, [a, b]⟩
  | .headsPcg64 => ⟨0x2C00, []⟩
  | .headswPcg64 weight => ⟨0x2D00, [weight]⟩
  | .initSm64 seed => ⟨0x3000, [seed]⟩
  | .initeSm64 => ⟨0x3100, []⟩
  | .nextSm64 => ⟨0x3300, []⟩
  | .getstateSm64 => ⟨0x3400, []⟩
  | .minSm64 => ⟨0x3500, []⟩
  | .maxSm64 => ⟨0x3600, []⟩
  | .nextnSm64 n => ⟨0x3800, [n]⟩
  | .nextrSm64 a b => ⟨0x3900, [a, b]⟩
  | .realSm64 => ⟨0x3A00, []⟩
  | .realrSm64 a b => ⟨0x3B00, [a, b]⟩
  | .headsSm64 => ⟨0x3C00, []⟩
  | .headswSm64 weight => ⟨0x3D00, [weight]⟩
  | .initXo seed => ⟨0x4000, [seed]⟩
  | .initeXo => ⟨0x4100, []⟩
  | .nextXo => ⟨0x4300, []⟩
  | .getstateXo => ⟨0x4400, []⟩
  | .minXo => ⟨0x4500, []⟩
  | .maxXo => ⟨0x4600, []⟩
  | .nextnXo n => ⟨0x4800, [n]⟩
  | .nextrXo a b => ⟨0x4900, [a, b]⟩
  | .realXo => ⟨0x4A00, []⟩
  | .realrXo a b => ⟨0x4B00, [a, b]⟩
  | .headsXo => ⟨0x4C00, []⟩
  | .headswXo weight => ⟨0x4D00, [weight]⟩
  | .rotl32 value count => ⟨0x5000, [value, count]⟩
  | .rotr32 value count => ⟨0x5100, [value, count]⟩
  | .rotl64 value count => ⟨0x5200, [value, count]⟩
  | .rotr64 value count => ⟨0x5300, [value, count]⟩
  | .shuffle e len => ⟨0x6000 ||| e.encode, [len]⟩
  | .sample e n k => ⟨0x6100 ||| e.encode, [n, k]⟩
  | .samplewr e n k => ⟨0x6200 ||| e.encode, [n, k]⟩

/-! ## The opcode table's numbering of the bits -/

/-- How many operand words a header's command has, 0 where the header selects none: the first list of zeros, from none
to six, that the decoder accepts. -/
def operandWords (h : Header) : Nat :=
  (((List.range 7).find? fun n => (decode ⟨h, List.replicate n 0⟩).isOk)).getD 0

/-- The packet whose header is the low 16 bits of `w` and whose operand words are the bits above, 64 each, the first
lowest; every bit from `nbits` up is 0. -/
def packetOfBits (nbits w : Nat) : Packet :=
  let v := w % 2 ^ nbits
  let h := BitVec.ofNat 16 v
  ⟨h, (List.range (operandWords h)).map fun i => BitVec.ofNat 64 (v / 2 ^ (16 + 64 * i))⟩

/-- The command the decoder reads from the instruction whose bits are `w`, none where it rejects them. -/
def decodeTableWord (nbits w : Nat) : Option Instr :=
  (decode (packetOfBits nbits w)).toOption

end Sys2Proof
end

