-- ==== Sys2Proof/Config.lean ====
section
/-! DEFINITION. What an implementation fixes and the spec leaves open: the parameters of
spec/00_scope.md R8 and R9 and the record `NUM` of spec/41_contract.md R135 to R139, as ONE uninterpreted record.
"A model takes every one of these as a configuration field and must not bake the default in" (R8).

The fields of function type hold the free part of a parameter before its contract is applied; the contracts themselves
(`RANGE_MAP`'s bound, the ranges of `NUM`'s results) are applied in Sys2Proof/Machine/Numerics.lean. -/

namespace Sys2Proof

/-- The configuration record of spec/92_eei_decisions.md, "Open parameters, collected". -/
structure Config where
  /-- `LCG_DEFAULT_MUL` (R8): open, no default. -/
  lcgDefaultMul : Word
  /-- `PCG32_DEFAULT_MUL` (R8). -/
  pcg32DefaultMul : Word
  /-- `PCG32_DEFAULT_INC` (R8). -/
  pcg32DefaultInc : Word
  /-- `PCG64_DEFAULT_MUL` (R8). -/
  pcg64DefaultMul : Wide
  /-- `PCG64_DEFAULT_INC` (R8). -/
  pcg64DefaultInc : Wide
  /-- `PCG32_XS1` (R8): a shift count below 64, as R12 asks of every shift. -/
  pcg32Xs1 : Fin 64
  /-- `PCG32_XS2` (R8): a shift count below 64. -/
  pcg32Xs2 : Fin 64
  /-- `SM_M1` without its lowest bit, which is 1: the multiplier is "a fixed odd constant" (R8, R215). -/
  smM1Top : BitVec 63
  /-- `SM_M2` without its lowest bit, which is 1. -/
  smM2Top : BitVec 63
  /-- `SM_S1` less one: the count is in 1..63 (DEDUCED, R216, log 8). -/
  smS1Pred : Fin 63
  /-- `SM_S2` less one. -/
  smS2Pred : Fin 63
  /-- `SM_S3` less one. -/
  smS3Pred : Fin 63
  /-- `KMAX` less one: R9 gives `1 <= KMAX < 2^63`. -/
  kmaxPred : Fin 9223372036854775807
  /-- `LCG_EXACT` (R9, R163). -/
  lcgExact : Bool
  /-- `XO_SEED_LOW_FIRST` (R9, R235). -/
  xoSeedLowFirst : Bool
  /-- `RANGE_MAP` (R9, R131) before its bound is applied: width, raw draw, span. -/
  rangeMapRaw : Nat → Word → Word → Nat
  /-- `NUM.unit` (R135) before its bound is applied: width, raw draw. -/
  unitRaw : Nat → Word → Nat
  /-- `NUM.lerp` (R136): free for every operand. -/
  lerpRaw : Word → Word → Word → Word
  /-- `NUM.lt` (R137) where an operand is a NaN; elsewhere R137 fixes it. -/
  ltNaNRaw : Word → Word → Bool
  /-- `NUM.wstep` (R138) before its bound is applied. -/
  wstepRaw : Word → Nat → Nat
  /-- `NUM.mul` (R138) before its bound is applied. -/
  mulRaw : Word → Word → Nat
  /-- `NUM.skip` (R139) where the weight is not 0; `none` is the symbol `INF`. -/
  skipRaw : Word → Word → Option Nat
  /-- The state an LCG draw leaves when `lcg.mod` is 0, which no run reaches (R162, R163; log 12). -/
  modZeroRaw : Nat → Word
deriving Inhabited

/-- The configuration of the block: NO BODY, so nothing can be proved of a field's value (log 8). -/
opaque Config.block : Config

end Sys2Proof
end

