-- ==== Sys2Proof/Machine/Float.lean ====
section
/-! DEFINITION. Binary64 values as bit patterns (spec/00_scope.md R14): the fields of a pattern, when it is a NaN, the order
of the values, and the exact value of a finite pattern in units of 2^-1074. PRESUMED: the document says "double" (log 16). -/

namespace Sys2Proof.Machine

/-- The exponent field, bits 62:52 (R14). -/
def f64Exp (v : Word) : Nat := (v.extractLsb' 52 11).toNat

/-- The fraction field, bits 51:0 (R14). -/
def f64Frac (v : Word) : Nat := (v.extractLsb' 0 52).toNat

/-- Bits 62:0: the pattern without its sign. -/
def f64Magnitude (v : Word) : Nat := (v.extractLsb' 0 63).toNat

/-- A NaN: the largest exponent and a fraction that is not 0. -/
def f64IsNaN (v : Word) : Bool := decide (f64Exp v = 2047 ∧ f64Frac v ≠ 0)

/-- Neither an infinity nor a NaN. -/
def f64IsFinite (v : Word) : Bool := decide (f64Exp v ≠ 2047)

/-- The place of a pattern that is no NaN in the order of the values: the magnitude bits, negated when the sign bit is
set, so that -0 and +0 are equal and an infinity lies beyond every finite value. -/
def f64Order (v : Word) : Int :=
  if v.msb then -(f64Magnitude v : Int) else (f64Magnitude v : Int)

/-- The mathematical `x < y` of two patterns that are no NaN (R137). -/
def f64Less (x y : Word) : Bool := decide (f64Order x < f64Order y)

/-- The exact value of a finite pattern, multiplied by 2^1074 (every finite binary64 value is a multiple of 2^-1074). -/
def f64Scaled (v : Word) : Int :=
  let m : Nat := if f64Exp v = 0 then f64Frac v else (2 ^ 52 + f64Frac v) * 2 ^ (f64Exp v - 1)
  if v.msb then -(m : Int) else (m : Int)

/-- The pattern of 1.0. -/
def f64One : Word := 0x3FF0000000000000

/-- The pattern of 0.5, the bound of `HEADS` (R134). -/
def f64Half : Word := 0x3FE0000000000000

/-- Both zeros, +0 and -0. -/
def f64IsZero (v : Word) : Bool := decide (f64Magnitude v = 0)

end Sys2Proof.Machine
end

