-- ==== Sys2Proof/Machine/Numerics.lean ====
section
/-! DEFINITION. The parameters of the block with their contracts: the record `NUM` (spec/41_contract.md R135 to R139),
`RANGE_MAP` (R131), and the constants of spec/00_scope.md R8 and R9. Each function below is the free function of `Config`
brought into the range its contract gives. Every function that meets the contract is one of these for some `Config`, and
each of these meets it: "assume of each field only its contract" (log 8, log 9, log 10). -/

namespace Sys2Proof.Machine

/-! ## Constants -/

/-- `KMAX`, with 1 <= KMAX < 2^63 (R9). -/
def kmax (c : Config) : Nat := c.kmaxPred.val + 1

/-- `SM_M1`, odd (R8, R215). -/
def smM1 (c : Config) : Word := c.smM1Top ++ 1#1

/-- `SM_M2`, odd. -/
def smM2 (c : Config) : Word := c.smM2Top ++ 1#1

/-- `SM_S1`, in 1..63. -/
def smS1 (c : Config) : Nat := c.smS1Pred.val + 1

/-- `SM_S2`, in 1..63. -/
def smS2 (c : Config) : Nat := c.smS2Pred.val + 1

/-- `SM_S3`, in 1..63. -/
def smS3 (c : Config) : Nat := c.smS3Pred.val + 1

/-! ## RANGE_MAP -/

/-- `RANGE_MAP(W, raw, span)` (R131): "a total pure function and `0 <= RANGE_MAP(W, raw, span) < span`". -/
def rangeMap (c : Config) (width : Nat) (raw span : Word) : Word :=
  BitVec.ofNat 64 (c.rangeMapRaw width raw span % span.toNat)

/-! ## NUM -/

/-- `NUM.unit(W, raw)` (R135): a finite value strictly between 0 and 1, that is a pattern from 1 up to the one below
the pattern of 1.0. -/
def numUnit (c : Config) (width : Nat) (raw : Word) : Word :=
  BitVec.ofNat 64 (1 + c.unitRaw width raw % (f64One.toNat - 1))

/-- `NUM.lerp(a, b, r)` (R136): whatever the implementation returns; the document's promise for finite `a < b` is the
named hypothesis `LerpHalfOpen` of Sys2Proof/Safety.lean (U9, U10). -/
def numLerp (c : Config) (a b r : Word) : Word := c.lerpRaw a b r

/-- `NUM.lt(x, y)` (R137): the mathematical `x < y` where neither operand is a NaN; free where one is (U10). -/
def numLt (c : Config) (x y : Word) : Bool :=
  if f64IsNaN x || f64IsNaN y then c.ltNaNRaw x y else f64Less x y

/-- `NUM.wstep(u, k)` (R138): finite, above 0 and at most 1. -/
def numWstep (c : Config) (u : Word) (k : Nat) : Word :=
  BitVec.ofNat 64 (1 + c.wstepRaw u k % f64One.toNat)

/-- `NUM.mul(x, y)` (R138): from 0 to 1, it may be 0. -/
def numMul (c : Config) (x y : Word) : Word :=
  BitVec.ofNat 64 (c.mulRaw x y % (f64One.toNat + 1))

/-- `NUM.skip(u, w)` (R139): a natural number, or `none` for the symbol `INF`, which stands for every case in which the
quotient is not finite, "for example `w = 0`". -/
def numSkip (c : Config) (u w : Word) : Option Nat :=
  if f64IsZero w then none else c.skipRaw u w

end Sys2Proof.Machine
end

