-- ==== Sys2Proof/Machine/State.lean ====
section
/-! DEFINITION. The state of the block as plain data: everything spec/10_state.md R20 lists, and the model's own fields
for the packets presented, the entropy input and the response (log 1, log 2), which R30, R33 and R34 call inputs and
outputs of the step. -/

namespace Sys2Proof.Machine

/-- The LCG core: `lcg.state` (R21) and its parameter registers (R27). -/
structure Lcg where
  state : Word
  mul : Word
  inc : Word
  modulus : Word
deriving DecidableEq, Repr

/-- The PCG32 core: `p32.state` (R22) and its parameter registers (R27). -/
structure Pcg32 where
  state : Word
  mul : Word
  inc : Word
deriving DecidableEq, Repr

/-- The PCG64 core: `p64.state` (R23) and its parameter registers (R27). -/
structure Pcg64 where
  state : Wide
  mul : Wide
  inc : Wide
deriving DecidableEq, Repr

/-- The Xoshiro256++ core: `xo.s[0]` to `xo.s[3]` (R25). -/
structure Xo where
  s0 : Word
  s1 : Word
  s2 : Word
  s3 : Word
deriving DecidableEq, Repr

/-- The constructed flags `valid[0..4]` (R29). -/
structure Valid where
  lcg : Bool
  pcg32 : Bool
  pcg64 : Bool
  sm64 : Bool
  xo : Bool
deriving DecidableEq, Repr

/-- The index RAM `RES` (R31) as (entry number, value) pairs; its canonical form is `Memory.wf`. -/
abbrev Memory := List (Nat × Word)

/-- One response: the 8-bit status and the result words (R78). -/
structure Response where
  status : BitVec 8
  words : List Word
deriving DecidableEq, Repr

/-- What the host presents for one step: a packet, and the value on the entropy input `ENT` while it is performed
("`Inputs` is the value on the entropy input", R10, R33; log 2). -/
structure Input where
  packet : Packet
  ent : Wide
deriving DecidableEq, Repr

/-- The state of the block (R20), then the model's own interface fields. -/
structure State where
  /-- The LCG core (R21, R27). -/
  lcg : Lcg
  /-- The PCG32 core (R22, R27). -/
  p32 : Pcg32
  /-- The PCG64 core (R23, R27). -/
  p64 : Pcg64
  /-- `sm.state` (R24). -/
  sm : Word
  /-- The Xoshiro256++ core (R25). -/
  xo : Xo
  /-- `valid[0..4]` (R29). -/
  valid : Valid
  /-- `RES` (R31). -/
  res : Memory
  /-- The model's own: the inputs the host is still to present, the next one first (log 1). -/
  inbox : List Input
  /-- The model's own: the value on `ENT` during the current command (R33; log 2). -/
  ent : Wide
  /-- The model's own: the last response, none before the first (R78; log 1). -/
  response : Option Response
deriving DecidableEq, Repr

/-- The faults of the machine. The spec has none: an error is a status in a response, a next state (R303, R308). -/
inductive Fault where
  /-- Raised by `Memory` access through `resRead` and `resWrite` at an entry number of KMAX or above, which "cannot occur
  and has no defined behaviour" (R50). SAFE: no command reaches it (log 13). -/
  | resOutOfRange
  /-- Raised by Algorithm L when it runs past the turns that R268 (a) allows. SAFE: no command reaches it (log 14). -/
  | turnBound
deriving DecidableEq, Repr

/-- The refusals of the machine. -/
inductive Refusal where
  /-- Raised by `exec` for a command that has no meaning yet. SAFE: the machine stops. No arm of `exec` uses it. -/
  | notModelled (mnemonic : String)
deriving DecidableEq, Repr

/-- The machine right after reset (R35, R330): every `valid` bit 0. The spec leaves every other register and every `RES`
entry unspecified; the model names 0 (DESIGN CHOICE, log 5, log 6). Nothing is presented and nothing was answered. -/
def State.reset : State where
  lcg := ⟨0, 0, 0, 0⟩
  p32 := ⟨0, 0, 0⟩
  p64 := ⟨0, 0, 0⟩
  sm := 0
  xo := ⟨0, 0, 0, 0⟩
  valid := ⟨false, false, false, false, false⟩
  res := []
  inbox := []
  ent := 0
  response := none

end Sys2Proof.Machine
end

