-- ==== Sys2Proof/Machine/Ops.lean ====
section
/-! DEFINITION. The named operations over the state: the index RAM, the field updates, the response, and `raise`, the one
shared operation for every error (spec/60_exceptions.md R303). There is no return from an error: "there is no return
command because there is nothing to return from" (R309). -/

namespace Sys2Proof.Machine

/-! ## The index RAM RES (spec/20_memory.md R50) -/

/-- What an entry that no pair lists reads as (DESIGN CHOICE, log 6: the spec gives `RES` no reset value, R35). -/
def Memory.unlisted : Word := 0

/-- The canonical form: entry numbers strictly rising, and no pair that says what an unlisted entry reads as. -/
abbrev Memory.wf (m : Memory) : Prop :=
  m.Pairwise (fun x y => x.1 < y.1) ∧ ∀ x ∈ m, x.2 ≠ Memory.unlisted

/-- Every listed entry number is below `bound`. -/
abbrev Memory.below (bound : Nat) (m : Memory) : Prop := ∀ x ∈ m, x.1 < bound

/-- The value of entry `j`. -/
def Memory.read : Memory → Nat → Word
  | [], _ => Memory.unlisted
  | (a, v) :: m, j => if a = j then v else Memory.read m j

/-- The pair of entry `j` put before the first pair with a larger number. -/
def Memory.insert : Memory → Nat → Word → Memory
  | [], j, v => [(j, v)]
  | (a, w) :: m, j, v => if j < a then (j, v) :: (a, w) :: m else (a, w) :: Memory.insert m j v

/-- Entry `j` replaced by `v`: its pair goes, and a new one comes unless `v` is what an unlisted entry reads as. -/
def Memory.write (m : Memory) (j : Nat) (v : Word) : Memory :=
  let rest := m.filter fun x => x.1 != j
  if v = Memory.unlisted then rest else Memory.insert rest j v

/-! ## Field updates -/

/-- The state with the LCG registers `r`. -/
def State.withLcg (s : State) (r : Lcg) : State := { s with lcg := r }

/-- The state with the PCG32 registers `r`. -/
def State.withPcg32 (s : State) (r : Pcg32) : State := { s with p32 := r }

/-- The state with the PCG64 registers `r`. -/
def State.withPcg64 (s : State) (r : Pcg64) : State := { s with p64 := r }

/-- The state with `sm.state` at `v`. -/
def State.withSm (s : State) (v : Word) : State := { s with sm := v }

/-- The state with the Xoshiro256++ words `r`. -/
def State.withXo (s : State) (r : Xo) : State := { s with xo := r }

/-- The state with the constructed flags `f`. -/
def State.withValid (s : State) (f : Valid) : State := { s with valid := f }

/-- The state with the index RAM `m`. -/
def State.withRes (s : State) (m : Memory) : State := { s with res := m }

/-- The state with the response `r`. -/
def State.withResponse (s : State) (r : Response) : State := { s with response := some r }

/-- The state with the presented inputs `rest` left and `e` on the entropy input. -/
def State.withInput (s : State) (rest : List Input) (e : Wide) : State := { s with inbox := rest, ent := e }

/-- `MemRead(j, 8)` (R50). -/
def resRead (c : Config) (j : Nat) (s : State) : Except Fault Word :=
  if j < kmax c then .ok (s.res.read j) else .error .resOutOfRange

/-- `MemWrite(j, 8, v)` (R50). -/
def resWrite (c : Config) (j : Nat) (v : Word) (s : State) : Except Fault State :=
  if j < kmax c then .ok (s.withRes (s.res.write j v)) else .error .resOutOfRange

/-! ## Responses and errors -/

/-- The statuses of R300; codes 5 to 255 are never produced. -/
inductive Status where
  | ok
  | illegal
  | unseeded
  | param
  | range
deriving DecidableEq, Repr

/-- The code of a status (R300). -/
def statusCode : Status → BitVec 8
  | .ok => 0
  | .illegal => 1
  | .unseeded => 2
  | .param => 3
  | .range => 4

/-- The command was performed: status `OK` and the result words (R78). -/
def respond (words : List Word) (s : State) : Host.Outcome State Fault Refusal :=
  .next (s.withResponse ⟨statusCode .ok, words⟩)

/-- `raise <Status>` (R303): the response is the status code alone and no register, `valid` bit or `RES` entry changes.
It saves nothing, changes no mode and transfers control nowhere (R308). -/
def raise (st : Status) (s : State) : Host.Outcome State Fault Refusal :=
  .next (s.withResponse ⟨statusCode st, []⟩)

/-- The end of a command whose procedure may fault: its result words and the state it leaves. -/
def answer (r : Except Fault (List Word × State)) : Host.Outcome State Fault Refusal :=
  match r with
  | .ok (words, s) => respond words s
  | .error f => .fault f

/-! ## Presentation -/

/-- The packet the host presents next, with the state in which it is performed: the packet taken from the inputs and its
`ENT` value on the entropy input (R10, R33). -/
def present (s : State) : Option (Packet × State) :=
  match s.inbox with
  | [] => none
  | i :: rest => some (i.packet, s.withInput rest i.ent)

/-- An illegal packet: `E_ILLEGAL`, no state change (R80, R302). -/
def rejectPacket (s : State) : Host.Outcome State Fault Refusal := raise .illegal s

/-- No packet presented: "between commands it holds its state and does nothing" (R313; log 3). -/
def idle (s : State) : Host.Outcome State Fault Refusal := .next s

end Sys2Proof.Machine
end

