-- ==== Sys2Proof/Machine/Flags.lean ====
section
/-! DEFINITION. The constructed flags `valid[0..4]` (spec/10_state.md R29), the only flags of the block: "no carry, no
overflow, no condition codes; no command writes a flag as a side effect of arithmetic". -/

namespace Sys2Proof.Machine

/-- `valid[e]` (R29). -/
def State.constructed (s : State) (e : Engine) : Bool :=
  match e with
  | .lcg => s.valid.lcg
  | .pcg32 => s.valid.pcg32
  | .pcg64 => s.valid.pcg64
  | .sm64 => s.valid.sm64
  | .xo => s.valid.xo

/-- `valid[e] <- 1` (R29, R123 c). -/
def State.construct (s : State) (e : Engine) : State :=
  match e with
  | .lcg => s.withValid { s.valid with lcg := true }
  | .pcg32 => s.withValid { s.valid with pcg32 := true }
  | .pcg64 => s.withValid { s.valid with pcg64 := true }
  | .sm64 => s.withValid { s.valid with sm64 := true }
  | .xo => s.withValid { s.valid with xo := true }

/-- The check every command that uses engine `e` begins with: `if valid[e] = 0 then raise E_UNSEEDED` (R144, R260,
R301), before any operand is looked at (R307). -/
def whenConstructed (e : Engine) (s : State) (k : Host.Outcome State Fault Refusal) :
    Host.Outcome State Fault Refusal :=
  if s.constructed e then k else raise .unseeded s

end Sys2Proof.Machine
end

