-- ==== Sys2Proof/Machine/Operands.lean ====
section
/-! DEFINITION. The operand and result forms of spec/30_encoding.md R76 and R77. A u64 operand is the word itself and an
f64 operand is the word as a binary64 pattern (Sys2Proof/Machine/Float.lean). -/

namespace Sys2Proof.Machine

/-- `s64(v)`: the word as a two's-complement number (spec/00_scope.md R11, R77). -/
def s64 (v : Word) : Int := v.toInt

/-- A 128-bit operand from its two words, low word first: `{hi, lo}` (spec/20_memory.md R52). -/
def wideOf (lo hi : Word) : Wide := hi ++ lo

/-- `v[63:0]`, the low half and first word of a 128-bit value (R52, R53). -/
def wideLow (v : Wide) : Word := v.extractLsb' 0 64

/-- `v[127:64]`, the high half and second word of a 128-bit value (R52, R53). -/
def wideHigh (v : Wide) : Word := v.extractLsb' 64 64

/-- `v[31:0]` (R53). -/
def halfLow (v : Word) : Half := v.extractLsb' 0 32

/-- `v[63:32]` (R53). -/
def halfHigh (v : Word) : Half := v.extractLsb' 32 32

/-- `zext_64` of a 32-bit value (R77). -/
def zext64 (v : Half) : Word := v.setWidth 64

/-- A Boolean result: 1 for true and 0 for false (R77). -/
def boolWord (b : Bool) : Word := if b then 1 else 0

end Sys2Proof.Machine
end

