-- ==== Sys2Proof/Machine/Rotate.lean ====
section
/-! DEFINITION. The two functions of the bit-rotation unit (spec/40_rotation.md R100 to R102). -/

namespace Sys2Proof.Machine

/-- `rotl_N(v, c)` (R100): the count is reduced modulo the width (R102), and a count of 0 is a case of its own, since
a shift by the whole width is not defined (R12, R335). -/
def rotl {width : Nat} (v : BitVec width) (c : Nat) : BitVec width :=
  let r := c % width
  if r = 0 then v else v <<< r ||| v >>> (width - r)

/-- `rotr_N(v, c)` (R101). -/
def rotr {width : Nat} (v : BitVec width) (c : Nat) : BitVec width :=
  let r := c % width
  if r = 0 then v else v >>> r ||| v <<< (width - r)

end Sys2Proof.Machine
end

