-- ==== Sys2Proof/Machine/Generators.lean ====
section
/-! DEFINITION. The primitive draws `Next_e()` of the five engines over their registers, and the Xoshiro256++ seed expander:
spec/42_lcg.md R163, spec/43_pcg.md R183 and R193, spec/44_splitmix64.md R215 and R212, spec/45_xoshiro256pp.md R232 and
R235. Each is a total function of the engine's registers (spec/41_contract.md R126). -/

namespace Sys2Proof.Machine

/-! ## LCG -/

/-- `LCG_DEFAULT_MOD` = 2^63 - 25 (spec/00_scope.md R7). -/
def lcgDefaultMod : Word := 0x7FFFFFFFFFFFFFE7

/-- `LCG_DEFAULT_INC` = 0 (R7). -/
def lcgDefaultInc : Word := 0

/-- The value `t` of R163 before the reduction: exact, or wrapped to 64 bits first. -/
def lcgSum (c : Config) (r : Lcg) : Nat :=
  if c.lcgExact then r.mul.toNat * r.state.toNat + r.inc.toNat else (r.mul * r.state + r.inc).toNat

/-- `Next_0()` (R163): the register takes the residue, and the NEW state is the output. `lcg.mod` = 0 is refused by
`INITP.LCG` (R162), so no run draws with it; there the residue is a free value (log 12). -/
def lcgNext (c : Config) (r : Lcg) : Word × Lcg :=
  let t := lcgSum c r
  let v : Word := if r.modulus = 0 then c.modZeroRaw t else BitVec.ofNat 64 (t % r.modulus.toNat)
  (v, { r with state := v })

/-! ## PCG32 -/

/-- The output permutation of R183, a function of the pre-advance state. -/
def pcg32Output (c : Config) (old : Word) : Half :=
  let rot := (old.extractLsb' 59 5).toNat
  let xs : Half := (((old >>> c.pcg32Xs1.val) ^^^ old) >>> c.pcg32Xs2.val).setWidth 32
  rotr xs rot

/-- `Next_1()` (R183): the output comes from the old state (R334). -/
def pcg32Next (c : Config) (r : Pcg32) : Half × Pcg32 :=
  (pcg32Output c r.state, { r with state := r.state * r.mul + r.inc })

/-! ## PCG64 -/

/-- The output permutation of R193: the two halves of the pre-advance state, each rotated right by the top 6 bits, and
combined (conflict C2). -/
def pcg64Output (old : Wide) : Word :=
  let rot := (old.extractLsb' 122 6).toNat
  rotr (wideHigh old) rot ^^^ rotr (wideLow old) rot

/-- `Next_2()` (R193). -/
def pcg64Next (r : Pcg64) : Word × Pcg64 :=
  (pcg64Output r.state, { r with state := r.state * r.mul + r.inc })

/-! ## SplitMix64 -/

/-- `SM_GAMMA` (R7). -/
def smGamma : Word := 0x9E3779B97F4A7C15

/-- `SmAdd(s) = s +_64 SM_GAMMA` (R215). The constant stands first because a kernel that compares two states unfolds
`+` by its second operand. -/
def smAdd (v : Word) : Word := smGamma + v

/-- `SmMix` (R215): two rounds of XOR-shift and multiply, one final XOR-shift. -/
def smMix (c : Config) (z : Word) : Word :=
  let z1 := (z ^^^ (z >>> smS1 c)) * smM1 c
  let z2 := (z1 ^^^ (z1 >>> smS2 c)) * smM2 c
  z2 ^^^ (z2 >>> smS3 c)

/-- `Next_3()` (R212): the register keeps the un-mixed sum. -/
def smNext (c : Config) (v : Word) : Word × Word :=
  (smMix c (smAdd v), smAdd v)

/-! ## Xoshiro256++ -/

/-- `XO_R1` = 23, `XO_SH` = 17, `XO_R2` = 45 (R7) in `Next_4()` (R232): the assignments run one after another in the
order written, and only the output and `t` use pre-update words (conflict C1, R333). -/
def xoNext (r : Xo) : Word × Xo :=
  let out := rotl (r.s0 + r.s3) 23 + r.s0
  let t := r.s1 <<< 17
  let s2 := r.s2 ^^^ r.s0
  let s3 := r.s3 ^^^ r.s1
  let s1 := r.s1 ^^^ s2
  let s0 := r.s0 ^^^ s3
  let s2 := s2 ^^^ t
  let s3 := rotl s3 45
  (out, ⟨s0, s1, s2, s3⟩)

/-- `XoExpand` (R235): two SplitMix64 draws from a temporary value, each split into its halves, zero-extended. -/
def xoExpand (c : Config) (seed : Word) : Xo :=
  let d1 := smNext c seed
  let d2 := smNext c d1.2
  if c.xoSeedLowFirst then
    ⟨zext64 (halfLow d1.1), zext64 (halfHigh d1.1), zext64 (halfLow d2.1), zext64 (halfHigh d2.1)⟩
  else
    ⟨zext64 (halfHigh d1.1), zext64 (halfLow d1.1), zext64 (halfHigh d2.1), zext64 (halfLow d2.1)⟩

end Sys2Proof.Machine
end

