-- ==== Sys2Proof/Machine/Contract.lean ====
section
/-! DEFINITION. What the five engines have in common (spec/41_contract.md): the draw by engine (R126), the helpers `Ranged`
(R130) and `Real` (R141), construction (R123), and the common part of every engine command (R121 to R134, R140). The
meanings of the engine commands are one line each over these. -/

namespace Sys2Proof.Machine

/-- `W_e`, the output width (spec/00_scope.md R6). -/
def outputWidth : Engine → Nat
  | .pcg32 => 32
  | .lcg | .pcg64 | .sm64 | .xo => 64

/-- `Next_e()` (R126): one draw, zero-extended to a word; it writes the state of engine `e` and nothing else. -/
def draw (c : Config) (e : Engine) (s : State) : Word × State :=
  match e with
  | .lcg => let d := lcgNext c s.lcg; (d.1, s.withLcg d.2)
  | .pcg32 => let d := pcg32Next c s.p32; (zext64 d.1, s.withPcg32 d.2)
  | .pcg64 => let d := pcg64Next s.p64; (d.1, s.withPcg64 d.2)
  | .sm64 => let d := smNext c s.sm; (d.1, s.withSm d.2)
  | .xo => let d := xoNext s.xo; (d.1, s.withXo d.2)

/-- `Ranged_e(a, b)` (R130): no draw when `a >= b`, exactly one otherwise. -/
def ranged (c : Config) (e : Engine) (a b : Word) (s : State) : Word × State :=
  if s64 a ≥ s64 b then (a, s)
  else
    let d := draw c e s
    (a + rangeMap c (outputWidth e) d.1 (b - a), d.2)

/-- `Real_e()` (R141): one draw, mapped into the open unit interval. -/
def realDraw (c : Config) (e : Engine) (s : State) : Word × State :=
  let d := draw c e s
  (numUnit c (outputWidth e) d.1, d.2)

/-! ## Construction (R123): every register of the engine is written and its flag set, with no draw and no result -/

/-- The LCG constructed with the default parameters (R160). -/
def loadLcg (c : Config) (seed : Word) (s : State) : State :=
  (s.withLcg ⟨seed, c.lcgDefaultMul, lcgDefaultInc, lcgDefaultMod⟩).construct .lcg

/-- PCG32 constructed with the default parameters (R180). -/
def loadPcg32 (c : Config) (seed : Word) (s : State) : State :=
  (s.withPcg32 ⟨seed, c.pcg32DefaultMul, c.pcg32DefaultInc⟩).construct .pcg32

/-- PCG64 constructed with the default parameters (R190). -/
def loadPcg64 (c : Config) (seed : Wide) (s : State) : State :=
  (s.withPcg64 ⟨seed, c.pcg64DefaultMul, c.pcg64DefaultInc⟩).construct .pcg64

/-- SplitMix64 constructed (R210). -/
def loadSm64 (seed : Word) (s : State) : State := (s.withSm seed).construct .sm64

/-- Xoshiro256++ constructed through the expander (R236); `sm.state` and `valid[3]` are not touched (R32). -/
def loadXo (c : Config) (seed : Word) (s : State) : State := (s.withXo (xoExpand c seed)).construct .xo

/-! ## The commands every engine has -/

/-- `NEXT.e` (R125). -/
def nextCommand (c : Config) (e : Engine) (s : State) : Host.Outcome State Fault Refusal :=
  whenConstructed e s (let d := draw c e s; respond [d.1] d.2)

/-- The words of the state read-back, in the layout of R76 (R127). -/
def stateWords (e : Engine) (s : State) : List Word :=
  match e with
  | .lcg => [s.lcg.state]
  | .pcg32 => [s.p32.state]
  | .pcg64 => [wideLow s.p64.state, wideHigh s.p64.state]
  | .sm64 => [s.sm]
  | .xo => [s.xo.s0, s.xo.s1, s.xo.s2, s.xo.s3]

/-- `GETSTATE.e` (R127): it changes nothing and makes no draw. -/
def getstateCommand (e : Engine) (s : State) : Host.Outcome State Fault Refusal :=
  whenConstructed e s (respond (stateWords e s) s)

/-- `MIN.e` (R121): it does not look at `valid[e]`. -/
def minCommand (s : State) : Host.Outcome State Fault Refusal := respond [0] s

/-- `MAX.e` (R122): `2^W_e - 1`; it does not look at `valid[e]`. -/
def maxCommand (e : Engine) (s : State) : Host.Outcome State Fault Refusal :=
  respond [BitVec.ofNat 64 (2 ^ outputWidth e - 1)] s

/-- `NEXTR.e a, b` (R129). -/
def nextrCommand (c : Config) (e : Engine) (a b : Word) (s : State) : Host.Outcome State Fault Refusal :=
  whenConstructed e s (let d := ranged c e a b s; respond [d.1] d.2)

/-- `NEXTN.e n` (R128): `Ranged_e(0, n)`. -/
def nextnCommand (c : Config) (e : Engine) (n : Word) (s : State) : Host.Outcome State Fault Refusal :=
  whenConstructed e s (let d := ranged c e 0 n s; respond [d.1] d.2)

/-- `REAL.e` (R132). -/
def realCommand (c : Config) (e : Engine) (s : State) : Host.Outcome State Fault Refusal :=
  whenConstructed e s (let d := realDraw c e s; respond [d.1] d.2)

/-- `REALR.e a, b` (R133): the draw is made whatever `a` and `b` are. -/
def realrCommand (c : Config) (e : Engine) (a b : Word) (s : State) : Host.Outcome State Fault Refusal :=
  whenConstructed e s (let d := realDraw c e s; respond [numLerp c a b d.1] d.2)

/-- `HEADSW.e weight` (R140): the draw is made whatever the weight is (R338). -/
def headswCommand (c : Config) (e : Engine) (weight : Word) (s : State) : Host.Outcome State Fault Refusal :=
  whenConstructed e s (let d := realDraw c e s; respond [boolWord (numLt c d.1 weight)] d.2)

/-- `HEADS.e` (R134): `NextReal() < 0.5`. -/
def headsCommand (c : Config) (e : Engine) (s : State) : Host.Outcome State Fault Refusal :=
  whenConstructed e s (let d := realDraw c e s; respond [boolWord (numLt c d.1 f64Half)] d.2)

end Sys2Proof.Machine
end

