-- ==== Sys2Proof/Machine/UnitLcg.lean ====
section
/-! DEFINITION. The commands of unit LCG: spec/42_lcg.md and spec/41_contract.md. -/

namespace Sys2Proof.Machine

/-- `INIT.LCG` (R160): the seed becomes the state as it is. -/
def execInitLcg (seed : Word) (s : State) : Host.Outcome State Fault Refusal :=
  respond [] (loadLcg Config.block seed s)

/-- `INITE.LCG` (R161): the seed is `ENT`[63:0] (R124). -/
def execIniteLcg (s : State) : Host.Outcome State Fault Refusal :=
  respond [] (loadLcg Config.block (wideLow s.ent) s)

/-- `INITP.LCG` (R162): `E_PARAM` when the modulus is 0, and then nothing is written (R304). -/
def execInitpLcg (seed mul inc modulus : Word) (s : State) : Host.Outcome State Fault Refusal :=
  if modulus = 0 then raise .param s
  else respond [] ((s.withLcg ⟨seed, mul, inc, modulus⟩).construct .lcg)

/-- `NEXT.LCG` (R164). -/
def execNextLcg (s : State) : Host.Outcome State Fault Refusal :=
  nextCommand Config.block .lcg s

/-- `GETSTATE.LCG` (R165). -/
def execGetstateLcg (s : State) : Host.Outcome State Fault Refusal :=
  getstateCommand .lcg s

/-- `MIN.LCG` (R121). -/
def execMinLcg (s : State) : Host.Outcome State Fault Refusal :=
  minCommand s

/-- `MAX.LCG` (R122). -/
def execMaxLcg (s : State) : Host.Outcome State Fault Refusal :=
  maxCommand .lcg s

/-- `NEXTN.LCG` (R128). -/
def execNextnLcg (n : Word) (s : State) : Host.Outcome State Fault Refusal :=
  nextnCommand Config.block .lcg n s

/-- `NEXTR.LCG` (R129). -/
def execNextrLcg (a b : Word) (s : State) : Host.Outcome State Fault Refusal :=
  nextrCommand Config.block .lcg a b s

/-- `REAL.LCG` (R132). -/
def execRealLcg (s : State) : Host.Outcome State Fault Refusal :=
  realCommand Config.block .lcg s

/-- `REALR.LCG` (R133). -/
def execRealrLcg (a b : Word) (s : State) : Host.Outcome State Fault Refusal :=
  realrCommand Config.block .lcg a b s

/-- `HEADS.LCG` (R134). -/
def execHeadsLcg (s : State) : Host.Outcome State Fault Refusal :=
  headsCommand Config.block .lcg s

/-- `HEADSW.LCG` (R140). -/
def execHeadswLcg (weight : Word) (s : State) : Host.Outcome State Fault Refusal :=
  headswCommand Config.block .lcg weight s

end Sys2Proof.Machine
end

