-- ==== Sys2Proof/Machine/UnitPcg32.lean ====
section
/-! DEFINITION. The commands of unit PCG32: spec/43_pcg.md and spec/41_contract.md. -/

namespace Sys2Proof.Machine

/-- `INIT.PCG32` (R180): the seed becomes the state as it is. -/
def execInitPcg32 (seed : Word) (s : State) : Host.Outcome State Fault Refusal :=
  respond [] (loadPcg32 Config.block seed s)

/-- `INITE.PCG32` (R181): the seed is `ENT`[63:0] (R124). -/
def execInitePcg32 (s : State) : Host.Outcome State Fault Refusal :=
  respond [] (loadPcg32 Config.block (wideLow s.ent) s)

/-- `INITP.PCG32` (R182): every operand value is accepted. -/
def execInitpPcg32 (seed mul inc : Word) (s : State) : Host.Outcome State Fault Refusal :=
  respond [] ((s.withPcg32 ⟨seed, mul, inc⟩).construct .pcg32)

/-- `NEXT.PCG32` (R184). -/
def execNextPcg32 (s : State) : Host.Outcome State Fault Refusal :=
  nextCommand Config.block .pcg32 s

/-- `GETSTATE.PCG32` (R185). -/
def execGetstatePcg32 (s : State) : Host.Outcome State Fault Refusal :=
  getstateCommand .pcg32 s

/-- `MIN.PCG32` (R121). -/
def execMinPcg32 (s : State) : Host.Outcome State Fault Refusal :=
  minCommand s

/-- `MAX.PCG32` (R122). -/
def execMaxPcg32 (s : State) : Host.Outcome State Fault Refusal :=
  maxCommand .pcg32 s

/-- `NEXTN.PCG32` (R128). -/
def execNextnPcg32 (n : Word) (s : State) : Host.Outcome State Fault Refusal :=
  nextnCommand Config.block .pcg32 n s

/-- `NEXTR.PCG32` (R129). -/
def execNextrPcg32 (a b : Word) (s : State) : Host.Outcome State Fault Refusal :=
  nextrCommand Config.block .pcg32 a b s

/-- `REAL.PCG32` (R132). -/
def execRealPcg32 (s : State) : Host.Outcome State Fault Refusal :=
  realCommand Config.block .pcg32 s

/-- `REALR.PCG32` (R133). -/
def execRealrPcg32 (a b : Word) (s : State) : Host.Outcome State Fault Refusal :=
  realrCommand Config.block .pcg32 a b s

/-- `HEADS.PCG32` (R134). -/
def execHeadsPcg32 (s : State) : Host.Outcome State Fault Refusal :=
  headsCommand Config.block .pcg32 s

/-- `HEADSW.PCG32` (R140). -/
def execHeadswPcg32 (weight : Word) (s : State) : Host.Outcome State Fault Refusal :=
  headswCommand Config.block .pcg32 weight s

end Sys2Proof.Machine
end

