-- ==== Sys2Proof/Machine/UnitPcg64.lean ====
section
/-! DEFINITION. The commands of unit PCG64: spec/43_pcg.md and spec/41_contract.md. -/

namespace Sys2Proof.Machine

/-- `INIT.PCG64` (R190): the seed becomes the state as it is. -/
def execInitPcg64 (seedLo seedHi : Word) (s : State) : Host.Outcome State Fault Refusal :=
  respond [] (loadPcg64 Config.block (wideOf seedLo seedHi) s)

/-- `INITE.PCG64` (R191): the seed is `ENT` (R124). -/
def execInitePcg64 (s : State) : Host.Outcome State Fault Refusal :=
  respond [] (loadPcg64 Config.block s.ent s)

/-- `INITP.PCG64` (R192): three 128-bit operands, each low word first. -/
def execInitpPcg64 (seedLo seedHi mulLo mulHi incLo incHi : Word) (s : State) : Host.Outcome State Fault Refusal :=
  respond []
    ((s.withPcg64 ⟨wideOf seedLo seedHi, wideOf mulLo mulHi, wideOf incLo incHi⟩).construct .pcg64)

/-- `NEXT.PCG64` (R194). -/
def execNextPcg64 (s : State) : Host.Outcome State Fault Refusal :=
  nextCommand Config.block .pcg64 s

/-- `GETSTATE.PCG64` (R195). -/
def execGetstatePcg64 (s : State) : Host.Outcome State Fault Refusal :=
  getstateCommand .pcg64 s

/-- `MIN.PCG64` (R121). -/
def execMinPcg64 (s : State) : Host.Outcome State Fault Refusal :=
  minCommand s

/-- `MAX.PCG64` (R122). -/
def execMaxPcg64 (s : State) : Host.Outcome State Fault Refusal :=
  maxCommand .pcg64 s

/-- `NEXTN.PCG64` (R128). -/
def execNextnPcg64 (n : Word) (s : State) : Host.Outcome State Fault Refusal :=
  nextnCommand Config.block .pcg64 n s

/-- `NEXTR.PCG64` (R129). -/
def execNextrPcg64 (a b : Word) (s : State) : Host.Outcome State Fault Refusal :=
  nextrCommand Config.block .pcg64 a b s

/-- `REAL.PCG64` (R132). -/
def execRealPcg64 (s : State) : Host.Outcome State Fault Refusal :=
  realCommand Config.block .pcg64 s

/-- `REALR.PCG64` (R133). -/
def execRealrPcg64 (a b : Word) (s : State) : Host.Outcome State Fault Refusal :=
  realrCommand Config.block .pcg64 a b s

/-- `HEADS.PCG64` (R134). -/
def execHeadsPcg64 (s : State) : Host.Outcome State Fault Refusal :=
  headsCommand Config.block .pcg64 s

/-- `HEADSW.PCG64` (R140). -/
def execHeadswPcg64 (weight : Word) (s : State) : Host.Outcome State Fault Refusal :=
  headswCommand Config.block .pcg64 weight s

end Sys2Proof.Machine
end

