-- ==== Sys2Proof/Machine/UnitRot.lean ====
section
/-! DEFINITION. The four commands of unit ROT (spec/40_rotation.md R104 to R107): "they read no state register, write none,
need no constructed engine and raise no error of their own". -/

namespace Sys2Proof.Machine

/-- `ROTL32 value, count` (R104): only bits 31:0 of the value are used, the result is zero-extended. -/
def execRotl32 (value count : Word) (s : State) : Host.Outcome State Fault Refusal :=
  respond [zext64 (rotl (halfLow value) count.toNat)] s

/-- `ROTR32 value, count` (R105). -/
def execRotr32 (value count : Word) (s : State) : Host.Outcome State Fault Refusal :=
  respond [zext64 (rotr (halfLow value) count.toNat)] s

/-- `ROTL64 value, count` (R106). -/
def execRotl64 (value count : Word) (s : State) : Host.Outcome State Fault Refusal :=
  respond [rotl value count.toNat] s

/-- `ROTR64 value, count` (R107). -/
def execRotr64 (value count : Word) (s : State) : Host.Outcome State Fault Refusal :=
  respond [rotr value count.toNat] s

end Sys2Proof.Machine
end

