-- ==== Sys2Proof/Machine/UnitSm64.lean ====
section
/-! DEFINITION. The commands of unit SM64: spec/44_splitmix64.md and spec/41_contract.md. -/

namespace Sys2Proof.Machine

/-- `INIT.SM64` (R210): the seed becomes the state as it is. -/
def execInitSm64 (seed : Word) (s : State) : Host.Outcome State Fault Refusal :=
  respond [] (loadSm64 seed s)

/-- `INITE.SM64` (R211): the seed is `ENT`[63:0] (R124). -/
def execIniteSm64 (s : State) : Host.Outcome State Fault Refusal :=
  respond [] (loadSm64 (wideLow s.ent) s)

/-- `NEXT.SM64` (R213). -/
def execNextSm64 (s : State) : Host.Outcome State Fault Refusal :=
  nextCommand Config.block .sm64 s

/-- `GETSTATE.SM64` (R214). -/
def execGetstateSm64 (s : State) : Host.Outcome State Fault Refusal :=
  getstateCommand .sm64 s

/-- `MIN.SM64` (R121). -/
def execMinSm64 (s : State) : Host.Outcome State Fault Refusal :=
  minCommand s

/-- `MAX.SM64` (R122). -/
def execMaxSm64 (s : State) : Host.Outcome State Fault Refusal :=
  maxCommand .sm64 s

/-- `NEXTN.SM64` (R128). -/
def execNextnSm64 (n : Word) (s : State) : Host.Outcome State Fault Refusal :=
  nextnCommand Config.block .sm64 n s

/-- `NEXTR.SM64` (R129). -/
def execNextrSm64 (a b : Word) (s : State) : Host.Outcome State Fault Refusal :=
  nextrCommand Config.block .sm64 a b s

/-- `REAL.SM64` (R132). -/
def execRealSm64 (s : State) : Host.Outcome State Fault Refusal :=
  realCommand Config.block .sm64 s

/-- `REALR.SM64` (R133). -/
def execRealrSm64 (a b : Word) (s : State) : Host.Outcome State Fault Refusal :=
  realrCommand Config.block .sm64 a b s

/-- `HEADS.SM64` (R134). -/
def execHeadsSm64 (s : State) : Host.Outcome State Fault Refusal :=
  headsCommand Config.block .sm64 s

/-- `HEADSW.SM64` (R140). -/
def execHeadswSm64 (weight : Word) (s : State) : Host.Outcome State Fault Refusal :=
  headswCommand Config.block .sm64 weight s

end Sys2Proof.Machine
end

