-- ==== Sys2Proof/Machine/UnitSmp.lean ====
section
/-! DEFINITION. The sequence controller SMP (spec/46_shuffle_sample.md): the procedures over the index RAM and the three
commands. Every `MemRead` and `MemWrite` goes through `resRead` and `resWrite`. The loop variables live inside one command
(R260). -/

namespace Sys2Proof.Machine

/-! ## Procedures -/

/-- `for j := 0 to count - 1 do MemWrite(j, 8, j)` (R263, R266, R267). -/
def fillIdentity (c : Config) : Nat → State → Except Fault State
  | 0, s => .ok s
  | j + 1, s => do
    let s ← fillIdentity c j s
    resWrite c j (BitVec.ofNat 64 j) s

/-- `for j := first to first + count - 1 do res[j] <- MemRead(j, 8)` (R263, R267, R270). -/
def readFrom (c : Config) : Nat → Nat → State → Except Fault (List Word)
  | _, 0, _ => .ok []
  | first, count + 1, s => do
    let v ← resRead c first s
    let vs ← readFrom c (first + 1) count s
    pure (v :: vs)

/-- One turn of the loop of R262 at position `i`: draw `j` from [i, len) and swap the entries `i` and `j`. -/
def shuffleTurn (c : Config) (e : Engine) (len i : Nat) (s : State) : Except Fault State := do
  let d := ranged c e (BitVec.ofNat 64 i) (BitVec.ofNat 64 len) s
  let j := d.1.toNat
  let a ← resRead c i d.2
  let b ← resRead c j d.2
  let s1 ← resWrite c i b d.2
  resWrite c j a s1

/-- The loop of R262 for the positions `i`, `i + 1`, ... , `turns` of them, ascending. -/
def shuffleTurns (c : Config) (e : Engine) (len : Nat) : Nat → Nat → State → Except Fault State
  | _, 0, s => .ok s
  | i, turns + 1, s => do
    let s ← shuffleTurn c e len i s
    shuffleTurns c e len (i + 1) turns s

/-- `ShuffleRES(e, len)` (R262): `i` from 0 to `len - 2`. -/
def shuffleRes (c : Config) (e : Engine) (len : Nat) (s : State) : Except Fault State :=
  if len < 2 then .ok s else shuffleTurns c e len 0 (len - 1) s

/-- The loop of Algorithm L (R266), at most `turns` turns of it; `i` is the natural number of the last element taken,
counted from 1, and is never wrapped. -/
def sampleTurns (c : Config) (e : Engine) (n k : Nat) : Nat → Nat → Word → State → Except Fault State
  | 0, _, _, _ => .error .turnBound
  | turns + 1, i, w, s =>
    let u := realDraw c e s
    match numSkip c u.1 w with
    | none => .ok u.2
    | some skip =>
      let i := i + skip + 1
      if i > n then .ok u.2
      else do
        let slot := ranged c e 0 (BitVec.ofNat 64 k) u.2
        let s ← resWrite c slot.1.toNat (BitVec.ofNat 64 (i - 1)) slot.2
        let v := realDraw c e s
        sampleTurns c e n k turns i (numMul c w (numWstep c v.1 k)) v.2

/-- `AlgL(e, n, k)` (R266): "at most `n - k + 1` turns" (R268 a). -/
def algL (c : Config) (e : Engine) (n k : Nat) (s : State) : Except Fault State := do
  let s ← fillIdentity c k s
  let u := realDraw c e s
  sampleTurns c e n k (n - k + 1) k (numWstep c u.1 k) u.2

/-- `for j := first to first + count - 1 do MemWrite(j, 8, Ranged_e(0, n))`, ascending (R270). -/
def drawEach (c : Config) (e : Engine) (n : Word) : Nat → Nat → State → Except Fault State
  | _, 0, s => .ok s
  | first, count + 1, s => do
    let d := ranged c e 0 n s
    let s ← resWrite c first d.1 d.2
    drawEach c e n (first + 1) count s

/-! ## The bodies of the commands, after their checks -/

/-- The body of `SHUFFLE` (R263). -/
def shuffleBody (c : Config) (e : Engine) (len : Nat) (s : State) : Except Fault (List Word × State) := do
  let s ← fillIdentity c len s
  let s ← shuffleRes c e len s
  let words ← readFrom c 0 len s
  pure (words, s)

/-- The body of `SAMPLE` (R267): the empty sample, the shuffle of all `n` positions, or Algorithm L. -/
def sampleBody (c : Config) (e : Engine) (n k : Nat) (s : State) : Except Fault (List Word × State) :=
  if k = 0 then .ok ([], s)
  else if n ≤ k then shuffleBody c e n s
  else do
    let s ← algL c e n k s
    let words ← readFrom c 0 k s
    pure (words, s)

/-- The body of `SAMPLEWR` (R270). -/
def samplewrBody (c : Config) (e : Engine) (n : Word) (k : Nat) (s : State) :
    Except Fault (List Word × State) := do
  let s ← drawEach c e n 0 k s
  let words ← readFrom c 0 k s
  pure (words, s)

/-! ## The commands over a configuration -/

/-- `SHUFFLE.e len` (R263): `E_RANGE` when `len > KMAX` (R261). -/
def shuffleCommand (c : Config) (e : Engine) (len : Word) (s : State) : Host.Outcome State Fault Refusal :=
  whenConstructed e s
    (if len.toNat > kmax c then raise .range s else answer (shuffleBody c e len.toNat s))

/-- `SAMPLE.e n, k` (R267): `E_RANGE` when `n >= 2^63`, `k >= 2^63` or `min(n, k) > KMAX` (R265). -/
def sampleCommand (c : Config) (e : Engine) (n k : Word) (s : State) : Host.Outcome State Fault Refusal :=
  whenConstructed e s
    (if n.toNat ≥ 2 ^ 63 ∨ k.toNat ≥ 2 ^ 63 ∨ min n.toNat k.toNat > kmax c then raise .range s
     else answer (sampleBody c e n.toNat k.toNat s))

/-- `SAMPLEWR.e n, k` (R270): `E_RANGE` when `n >= 2^63` or `k > KMAX` (R269). -/
def samplewrCommand (c : Config) (e : Engine) (n k : Word) (s : State) : Host.Outcome State Fault Refusal :=
  whenConstructed e s
    (if n.toNat ≥ 2 ^ 63 ∨ k.toNat > kmax c then raise .range s
     else answer (samplewrBody c e n k.toNat s))

/-! ## Meanings -/

/-- `SHUFFLE` (R263). -/
def execShuffle (e : Engine) (len : Word) (s : State) : Host.Outcome State Fault Refusal :=
  shuffleCommand Config.block e len s

/-- `SAMPLE` (R267). -/
def execSample (e : Engine) (n k : Word) (s : State) : Host.Outcome State Fault Refusal :=
  sampleCommand Config.block e n k s

/-- `SAMPLEWR` (R270). -/
def execSamplewr (e : Engine) (n k : Word) (s : State) : Host.Outcome State Fault Refusal :=
  samplewrCommand Config.block e n k s

end Sys2Proof.Machine
end

