-- ==== Sys2Proof/Machine/UnitXo.lean ====
section
/-! DEFINITION. The commands of unit XO: spec/45_xoshiro256pp.md and spec/41_contract.md. -/

namespace Sys2Proof.Machine

/-- `INIT.XO` (R236): the seed goes through the expander. -/
def execInitXo (seed : Word) (s : State) : Host.Outcome State Fault Refusal :=
  respond [] (loadXo Config.block seed s)

/-- `INITE.XO` (R237): the seed is `ENT`[63:0] (R124). -/
def execIniteXo (s : State) : Host.Outcome State Fault Refusal :=
  respond [] (loadXo Config.block (wideLow s.ent) s)

/-- `NEXT.XO` (R233). -/
def execNextXo (s : State) : Host.Outcome State Fault Refusal :=
  nextCommand Config.block .xo s

/-- `GETSTATE.XO` (R234). -/
def execGetstateXo (s : State) : Host.Outcome State Fault Refusal :=
  getstateCommand .xo s

/-- `MIN.XO` (R121). -/
def execMinXo (s : State) : Host.Outcome State Fault Refusal :=
  minCommand s

/-- `MAX.XO` (R122). -/
def execMaxXo (s : State) : Host.Outcome State Fault Refusal :=
  maxCommand .xo s

/-- `NEXTN.XO` (R128). -/
def execNextnXo (n : Word) (s : State) : Host.Outcome State Fault Refusal :=
  nextnCommand Config.block .xo n s

/-- `NEXTR.XO` (R129). -/
def execNextrXo (a b : Word) (s : State) : Host.Outcome State Fault Refusal :=
  nextrCommand Config.block .xo a b s

/-- `REAL.XO` (R132). -/
def execRealXo (s : State) : Host.Outcome State Fault Refusal :=
  realCommand Config.block .xo s

/-- `REALR.XO` (R133). -/
def execRealrXo (a b : Word) (s : State) : Host.Outcome State Fault Refusal :=
  realrCommand Config.block .xo a b s

/-- `HEADS.XO` (R134). -/
def execHeadsXo (s : State) : Host.Outcome State Fault Refusal :=
  headsCommand Config.block .xo s

/-- `HEADSW.XO` (R140). -/
def execHeadswXo (weight : Word) (s : State) : Host.Outcome State Fault Refusal :=
  headswCommand Config.block .xo weight s

end Sys2Proof.Machine
end

