-- ==== Sys2Proof/Machine/Dispatch.lean ====
section
/-! DEFINITION. What each command does: one arm per constructor of Instr. -/

namespace Sys2Proof.Machine

def exec (i : Instr) (s : State) : Host.Outcome State Fault Refusal :=
  match i with
  | .initLcg seed => Sys2Proof.Machine.execInitLcg seed s
  | .initeLcg => Sys2Proof.Machine.execIniteLcg s
  | .initpLcg seed mul inc modulus => Sys2Proof.Machine.execInitpLcg seed mul inc modulus s
  | .nextLcg => Sys2Proof.Machine.execNextLcg s
  | .getstateLcg => Sys2Proof.Machine.execGetstateLcg s
  | .minLcg => Sys2Proof.Machine.execMinLcg s
  | .maxLcg => Sys2Proof.Machine.execMaxLcg s
  | .nextnLcg n => Sys2Proof.Machine.execNextnLcg n s
  | .nextrLcg a b => Sys2Proof.Machine.execNextrLcg a b s
  | .realLcg => Sys2Proof.Machine.execRealLcg s
  | .realrLcg a b => Sys2Proof.Machine.execRealrLcg a b s
  | .headsLcg => Sys2Proof.Machine.execHeadsLcg s
  | .headswLcg weight => Sys2Proof.Machine.execHeadswLcg weight s
  | .initPcg32 seed => Sys2Proof.Machine.execInitPcg32 seed s
  | .initePcg32 => Sys2Proof.Machine.execInitePcg32 s
  | .initpPcg32 seed mul inc => Sys2Proof.Machine.execInitpPcg32 seed mul inc s
  | .nextPcg32 => Sys2Proof.Machine.execNextPcg32 s
  | .getstatePcg32 => Sys2Proof.Machine.execGetstatePcg32 s
  | .minPcg32 => Sys2Proof.Machine.execMinPcg32 s
  | .maxPcg32 => Sys2Proof.Machine.execMaxPcg32 s
  | .nextnPcg32 n => Sys2Proof.Machine.execNextnPcg32 n s
  | .nextrPcg32 a b => Sys2Proof.Machine.execNextrPcg32 a b s
  | .realPcg32 => Sys2Proof.Machine.execRealPcg32 s
  | .realrPcg32 a b => Sys2Proof.Machine.execRealrPcg32 a b s
  | .headsPcg32 => Sys2Proof.Machine.execHeadsPcg32 s
  | .headswPcg32 weight => Sys2Proof.Machine.execHeadswPcg32 weight s
  | .initPcg64 seedLo seedHi => Sys2Proof.Machine.execInitPcg64 seedLo seedHi s
  | .initePcg64 => Sys2Proof.Machine.execInitePcg64 s
  | .initpPcg64 seedLo seedHi mulLo mulHi incLo incHi => Sys2Proof.Machine.execInitpPcg64 seedLo seedHi mulLo mulHi incLo incHi s
  | .nextPcg64 => Sys2Proof.Machine.execNextPcg64 s
  | .getstatePcg64 => Sys2Proof.Machine.execGetstatePcg64 s
  | .minPcg64 => Sys2Proof.Machine.execMinPcg64 s
  | .maxPcg64 => Sys2Proof.Machine.execMaxPcg64 s
  | .nextnPcg64 n => Sys2Proof.Machine.execNextnPcg64 n s
  | .nextrPcg64 a b => Sys2Proof.Machine.execNextrPcg64 a b s
  | .realPcg64 => Sys2Proof.Machine.execRealPcg64 s
  | .realrPcg64 a b => Sys2Proof.Machine.execRealrPcg64 a b s
  | .headsPcg64 => Sys2Proof.Machine.execHeadsPcg64 s
  | .headswPcg64 weight => Sys2Proof.Machine.execHeadswPcg64 weight s
  | .initSm64 seed => Sys2Proof.Machine.execInitSm64 seed s
  | .initeSm64 => Sys2Proof.Machine.execIniteSm64 s
  | .nextSm64 => Sys2Proof.Machine.execNextSm64 s
  | .getstateSm64 => Sys2Proof.Machine.execGetstateSm64 s
  | .minSm64 => Sys2Proof.Machine.execMinSm64 s
  | .maxSm64 => Sys2Proof.Machine.execMaxSm64 s
  | .nextnSm64 n => Sys2Proof.Machine.execNextnSm64 n s
  | .nextrSm64 a b => Sys2Proof.Machine.execNextrSm64 a b s
  | .realSm64 => Sys2Proof.Machine.execRealSm64 s
  | .realrSm64 a b => Sys2Proof.Machine.execRealrSm64 a b s
  | .headsSm64 => Sys2Proof.Machine.execHeadsSm64 s
  | .headswSm64 weight => Sys2Proof.Machine.execHeadswSm64 weight s
  | .initXo seed => Sys2Proof.Machine.execInitXo seed s
  | .initeXo => Sys2Proof.Machine.execIniteXo s
  | .nextXo => Sys2Proof.Machine.execNextXo s
  | .getstateXo => Sys2Proof.Machine.execGetstateXo s
  | .minXo => Sys2Proof.Machine.execMinXo s
  | .maxXo => Sys2Proof.Machine.execMaxXo s
  | .nextnXo n => Sys2Proof.Machine.execNextnXo n s
  | .nextrXo a b => Sys2Proof.Machine.execNextrXo a b s
  | .realXo => Sys2Proof.Machine.execRealXo s
  | .realrXo a b => Sys2Proof.Machine.execRealrXo a b s
  | .headsXo => Sys2Proof.Machine.execHeadsXo s
  | .headswXo weight => Sys2Proof.Machine.execHeadswXo weight s
  | .rotl32 value count => Sys2Proof.Machine.execRotl32 value count s
  | .rotr32 value count => Sys2Proof.Machine.execRotr32 value count s
  | .rotl64 value count => Sys2Proof.Machine.execRotl64 value count s
  | .rotr64 value count => Sys2Proof.Machine.execRotr64 value count s
  | .shuffle e len => Sys2Proof.Machine.execShuffle e len s
  | .sample e n k => Sys2Proof.Machine.execSample e n k s
  | .samplewr e n k => Sys2Proof.Machine.execSamplewr e n k s

end Sys2Proof.Machine
end

