-- ==== Sys2Proof/Machine/Step.lean ====
section
/-! DEFINITION. One step: the host presents one packet, the block performs it completely and answers one response
(spec/00_scope.md R10, spec/20_memory.md R55, R57). -/

namespace Sys2Proof.Machine

/-- One step: the next packet is taken and performed; an illegal one answers `E_ILLEGAL`; with none presented the block
holds its state. -/
def step (s : State) : Host.Outcome State Fault Refusal :=
  match present s with
  | none => idle s
  | some (p, t) =>
    match decode p with
    | .ok i => exec i t
    | .error _ => rejectPacket t

/-- `s` with the command whose bits are `w` presented next (the value on `ENT` stays as it is in `s`). This stands for
the host's sending of a packet (log 4). -/
def State.withFetchWord (s : State) (nbits w : Nat) : State :=
  { s with inbox := ⟨packetOfBits nbits w, s.ent⟩ :: s.inbox }

end Sys2Proof.Machine
end

