-- ==== Sys2Proof/Machine/Reference.lean ====
section
/-! DEFINITION. ONE configuration among all: the defaults of spec/00_scope.md R8 and R9 and the reference bodies of
spec/41_contract.md R135 to R137, with the arithmetic of binary64 they need. It exists "so that test vectors can carry
numbers" (section 6 there): the tests run the shared operations on it. `exec` never uses it (its configuration is
`Config.block`, of which nothing is known), so no default is baked in (log 17). `LCG_DEFAULT_MUL` and `KMAX` have no
default and stay arguments; `NUM.wstep`, `NUM.mul`, `NUM.skip` have no reference body (R138, R139) and stay arguments. -/

namespace Sys2Proof.Machine

/-! ## Binary64 arithmetic, round to nearest even (PRESUMED: IEEE 754, log 16) -/

/-- The pattern of the value `m * 2^-(1074 + sub)` rounded to nearest even, without its sign; infinity on overflow. With
the lowest kept bit at `2^(drop - sub - 1074)`, the pattern of `q` such units is `q + (drop - sub) * 2^52`. -/
def f64Round (m sub : Nat) : Nat :=
  let drop := sub + (m.log2 - sub - 52)
  let q := m / 2 ^ drop
  let rest := m % 2 ^ drop
  let half := 2 ^ (drop - 1)
  let q := if drop = 0 ∨ rest < half then q else if rest > half ∨ q % 2 = 1 then q + 1 else q
  min (q + (drop - sub) * 2 ^ 52) (2047 * 2 ^ 52)

/-- The pattern of an exact value in units of `2^-(1074 + sub)`; `negZero` is the sign of a zero result. -/
def f64OfScaled (x : Int) (sub : Nat) (negZero : Bool) : Word :=
  let bits := BitVec.ofNat 64 (f64Round x.natAbs sub)
  if x < 0 ∨ (x = 0 ∧ negZero) then bits ||| 0x8000000000000000 else bits

/-- The NaN that the arithmetic below yields, whatever the operands. DESIGN CHOICE (log 20): U10 says that under the reference
bodies "NaN operands give NaN" and not which pattern; this one is quiet, positive and keeps no payload. -/
def f64NaN : Word := 0x7FF8000000000000

/-- The sum. -/
def f64Add (x y : Word) : Word :=
  if f64IsNaN x || f64IsNaN y then f64NaN
  else if !f64IsFinite x && !f64IsFinite y then (if x = y then x else f64NaN)
  else if !f64IsFinite x then x
  else if !f64IsFinite y then y
  else f64OfScaled (f64Scaled x + f64Scaled y) 0 (x.msb && y.msb)

/-- The negated value. -/
def f64Neg (x : Word) : Word := x ^^^ 0x8000000000000000

/-- The product. -/
def f64Mul (x y : Word) : Word :=
  let sign : Word := (x ^^^ y) &&& 0x8000000000000000
  if f64IsNaN x || f64IsNaN y then f64NaN
  else if !f64IsFinite x || !f64IsFinite y then
    (if f64IsZero x || f64IsZero y then f64NaN else 0x7FF0000000000000 ||| sign)
  else f64OfScaled (f64Scaled x * f64Scaled y) 1074 (x.msb != y.msb)

/-! ## Reference bodies -/

/-- The reference body of `NUM.unit` (R135): `(2 * raw + 1) * 2^-33` or `(2 * (raw >> 12) + 1) * 2^-53`. -/
def referenceUnit (width : Nat) (raw : Word) : Word :=
  if width = 32 then BitVec.ofNat 64 (f64Round ((2 * raw.toNat + 1) * 2 ^ 1041) 0)
  else BitVec.ofNat 64 (f64Round ((2 * (raw.toNat / 2 ^ 12) + 1) * 2 ^ 1021) 0)

/-- The reference body of `NUM.lerp` (R136): `a + (b - a) * r`, each operation rounded. -/
def referenceLerp (a b r : Word) : Word := f64Add a (f64Mul (f64Add b (f64Neg a)) r)

/-- The configuration with every default and reference body the spec gives. `modZeroRaw`, for which it gives none and which
no run reaches, is 0 here (DESIGN CHOICE, log 20). -/
def referenceConfig (lcgMul : Word) (kmaxPred : Fin 9223372036854775807) (wstep : Word → Nat → Word)
    (mul : Word → Word → Word) (skip : Word → Word → Option Nat) : Config where
  lcgDefaultMul := lcgMul
  pcg32DefaultMul := 0x5851F42D4C957F2D
  pcg32DefaultInc := 0x14057B7EF767814F
  pcg64DefaultMul := 0x2360ED051FC65DA44385DF649FCCF645
  pcg64DefaultInc := 0x5851F42D4C957F2D14057B7EF767814F
  pcg32Xs1 := 18
  pcg32Xs2 := 27
  smM1Top := (0xBF58476D1CE4E5B9#64).extractLsb' 1 63
  smM2Top := (0x94D049BB133111EB#64).extractLsb' 1 63
  smS1Pred := 29
  smS2Pred := 26
  smS3Pred := 30
  kmaxPred := kmaxPred
  lcgExact := true
  xoSeedLowFirst := true
  rangeMapRaw := fun _ raw _ => raw.toNat
  unitRaw := fun width raw => (referenceUnit width raw).toNat - 1
  lerpRaw := referenceLerp
  ltNaNRaw := fun _ _ => false
  wstepRaw := fun u k => (wstep u k).toNat - 1
  mulRaw := fun x y => (mul x y).toNat
  skipRaw := skip
  modZeroRaw := fun _ => 0

end Sys2Proof.Machine
end

