-- ==== Sys2Proof/Safety.lean ====
section
/-! DEFINITION. The terms the statements use: which engine a command needs and owns, the bounds its operands must meet, how many
result words it lists, successive draws, when two states agree on an engine, and what a sound state is. -/

namespace Sys2Proof.Machine

/-! ## Commands -/

/-- The engine a command finds constructed or answers `E_UNSEEDED` (R301): none for the construction commands, `MIN`,
`MAX` and the `ROT` commands, "the commands that never raise it". -/
def needsEngine (i : Instr) : Option Engine :=
  match i with
  | .initLcg _ => none
  | .initeLcg => none
  | .initpLcg _ _ _ _ => none
  | .nextLcg => some .lcg
  | .getstateLcg => some .lcg
  | .minLcg => none
  | .maxLcg => none
  | .nextnLcg _ => some .lcg
  | .nextrLcg _ _ => some .lcg
  | .realLcg => some .lcg
  | .realrLcg _ _ => some .lcg
  | .headsLcg => some .lcg
  | .headswLcg _ => some .lcg
  | .initPcg32 _ => none
  | .initePcg32 => none
  | .initpPcg32 _ _ _ => none
  | .nextPcg32 => some .pcg32
  | .getstatePcg32 => some .pcg32
  | .minPcg32 => none
  | .maxPcg32 => none
  | .nextnPcg32 _ => some .pcg32
  | .nextrPcg32 _ _ => some .pcg32
  | .realPcg32 => some .pcg32
  | .realrPcg32 _ _ => some .pcg32
  | .headsPcg32 => some .pcg32
  | .headswPcg32 _ => some .pcg32
  | .initPcg64 _ _ => none
  | .initePcg64 => none
  | .initpPcg64 _ _ _ _ _ _ => none
  | .nextPcg64 => some .pcg64
  | .getstatePcg64 => some .pcg64
  | .minPcg64 => none
  | .maxPcg64 => none
  | .nextnPcg64 _ => some .pcg64
  | .nextrPcg64 _ _ => some .pcg64
  | .realPcg64 => some .pcg64
  | .realrPcg64 _ _ => some .pcg64
  | .headsPcg64 => some .pcg64
  | .headswPcg64 _ => some .pcg64
  | .initSm64 _ => none
  | .initeSm64 => none
  | .nextSm64 => some .sm64
  | .getstateSm64 => some .sm64
  | .minSm64 => none
  | .maxSm64 => none
  | .nextnSm64 _ => some .sm64
  | .nextrSm64 _ _ => some .sm64
  | .realSm64 => some .sm64
  | .realrSm64 _ _ => some .sm64
  | .headsSm64 => some .sm64
  | .headswSm64 _ => some .sm64
  | .initXo _ => none
  | .initeXo => none
  | .nextXo => some .xo
  | .getstateXo => some .xo
  | .minXo => none
  | .maxXo => none
  | .nextnXo _ => some .xo
  | .nextrXo _ _ => some .xo
  | .realXo => some .xo
  | .realrXo _ _ => some .xo
  | .headsXo => some .xo
  | .headswXo _ => some .xo
  | .rotl32 _ _ => none
  | .rotr32 _ _ => none
  | .rotl64 _ _ => none
  | .rotr64 _ _ => none
  | .shuffle e _ => some e
  | .sample e _ _ => some e
  | .samplewr e _ _ => some e

/-- The one engine whose registers a command may write: its unit, or the engine its `eng` field names (R26, R260). -/
def ownEngine (i : Instr) : Option Engine :=
  match i with
  | .initLcg _ => some .lcg
  | .initeLcg => some .lcg
  | .initpLcg _ _ _ _ => some .lcg
  | .nextLcg => some .lcg
  | .getstateLcg => some .lcg
  | .minLcg => some .lcg
  | .maxLcg => some .lcg
  | .nextnLcg _ => some .lcg
  | .nextrLcg _ _ => some .lcg
  | .realLcg => some .lcg
  | .realrLcg _ _ => some .lcg
  | .headsLcg => some .lcg
  | .headswLcg _ => some .lcg
  | .initPcg32 _ => some .pcg32
  | .initePcg32 => some .pcg32
  | .initpPcg32 _ _ _ => some .pcg32
  | .nextPcg32 => some .pcg32
  | .getstatePcg32 => some .pcg32
  | .minPcg32 => some .pcg32
  | .maxPcg32 => some .pcg32
  | .nextnPcg32 _ => some .pcg32
  | .nextrPcg32 _ _ => some .pcg32
  | .realPcg32 => some .pcg32
  | .realrPcg32 _ _ => some .pcg32
  | .headsPcg32 => some .pcg32
  | .headswPcg32 _ => some .pcg32
  | .initPcg64 _ _ => some .pcg64
  | .initePcg64 => some .pcg64
  | .initpPcg64 _ _ _ _ _ _ => some .pcg64
  | .nextPcg64 => some .pcg64
  | .getstatePcg64 => some .pcg64
  | .minPcg64 => some .pcg64
  | .maxPcg64 => some .pcg64
  | .nextnPcg64 _ => some .pcg64
  | .nextrPcg64 _ _ => some .pcg64
  | .realPcg64 => some .pcg64
  | .realrPcg64 _ _ => some .pcg64
  | .headsPcg64 => some .pcg64
  | .headswPcg64 _ => some .pcg64
  | .initSm64 _ => some .sm64
  | .initeSm64 => some .sm64
  | .nextSm64 => some .sm64
  | .getstateSm64 => some .sm64
  | .minSm64 => some .sm64
  | .maxSm64 => some .sm64
  | .nextnSm64 _ => some .sm64
  | .nextrSm64 _ _ => some .sm64
  | .realSm64 => some .sm64
  | .realrSm64 _ _ => some .sm64
  | .headsSm64 => some .sm64
  | .headswSm64 _ => some .sm64
  | .initXo _ => some .xo
  | .initeXo => some .xo
  | .nextXo => some .xo
  | .getstateXo => some .xo
  | .minXo => some .xo
  | .maxXo => some .xo
  | .nextnXo _ => some .xo
  | .nextrXo _ _ => some .xo
  | .realXo => some .xo
  | .realrXo _ _ => some .xo
  | .headsXo => some .xo
  | .headswXo _ => some .xo
  | .rotl32 _ _ => none
  | .rotr32 _ _ => none
  | .rotl64 _ _ => none
  | .rotr64 _ _ => none
  | .shuffle e _ => some e
  | .sample e _ _ => some e
  | .samplewr e _ _ => some e

/-- The number of result words a command lists (R76, column "result words on `OK`"). -/
def resultCount (i : Instr) : Nat :=
  match i with
  | .initLcg _ => 0
  | .initeLcg => 0
  | .initpLcg _ _ _ _ => 0
  | .nextLcg => 1
  | .getstateLcg => 1
  | .minLcg => 1
  | .maxLcg => 1
  | .nextnLcg _ => 1
  | .nextrLcg _ _ => 1
  | .realLcg => 1
  | .realrLcg _ _ => 1
  | .headsLcg => 1
  | .headswLcg _ => 1
  | .initPcg32 _ => 0
  | .initePcg32 => 0
  | .initpPcg32 _ _ _ => 0
  | .nextPcg32 => 1
  | .getstatePcg32 => 1
  | .minPcg32 => 1
  | .maxPcg32 => 1
  | .nextnPcg32 _ => 1
  | .nextrPcg32 _ _ => 1
  | .realPcg32 => 1
  | .realrPcg32 _ _ => 1
  | .headsPcg32 => 1
  | .headswPcg32 _ => 1
  | .initPcg64 _ _ => 0
  | .initePcg64 => 0
  | .initpPcg64 _ _ _ _ _ _ => 0
  | .nextPcg64 => 1
  | .getstatePcg64 => 2
  | .minPcg64 => 1
  | .maxPcg64 => 1
  | .nextnPcg64 _ => 1
  | .nextrPcg64 _ _ => 1
  | .realPcg64 => 1
  | .realrPcg64 _ _ => 1
  | .headsPcg64 => 1
  | .headswPcg64 _ => 1
  | .initSm64 _ => 0
  | .initeSm64 => 0
  | .nextSm64 => 1
  | .getstateSm64 => 1
  | .minSm64 => 1
  | .maxSm64 => 1
  | .nextnSm64 _ => 1
  | .nextrSm64 _ _ => 1
  | .realSm64 => 1
  | .realrSm64 _ _ => 1
  | .headsSm64 => 1
  | .headswSm64 _ => 1
  | .initXo _ => 0
  | .initeXo => 0
  | .nextXo => 1
  | .getstateXo => 4
  | .minXo => 1
  | .maxXo => 1
  | .nextnXo _ => 1
  | .nextrXo _ _ => 1
  | .realXo => 1
  | .realrXo _ _ => 1
  | .headsXo => 1
  | .headswXo _ => 1
  | .rotl32 _ _ => 1
  | .rotr32 _ _ => 1
  | .rotl64 _ _ => 1
  | .rotr64 _ _ => 1
  | .shuffle _ len => len.toNat
  | .sample _ n k => min n.toNat k.toNat
  | .samplewr _ _ k => k.toNat

/-- The number of entries of `RES` a command may write, from entry 0 up (R31, R263, R267, R270): none but for `SMP`. -/
def writtenEntries (i : Instr) : Nat :=
  match i with
  | .shuffle _ len => len.toNat
  | .sample _ n k => min n.toNat k.toNat
  | .samplewr _ _ k => k.toNat
  | _ => 0

/-- A construction command (R123). -/
def isConstruction (i : Instr) : Bool :=
  match i with
  | .initLcg _ | .initeLcg | .initpLcg _ _ _ _ => true
  | .initPcg32 _ | .initePcg32 | .initpPcg32 _ _ _ => true
  | .initPcg64 _ _ | .initePcg64 | .initpPcg64 _ _ _ _ _ _ => true
  | .initSm64 _ | .initeSm64 => true
  | .initXo _ | .initeXo => true
  | _ => false

/-- The operands of a command are within the bounds of R261, R265 and R269; there are no bounds elsewhere. -/
def inBounds (c : Config) (i : Instr) : Prop :=
  match i with
  | .shuffle _ len => len.toNat ≤ kmax c
  | .sample _ n k => n.toNat < 2 ^ 63 ∧ k.toNat < 2 ^ 63 ∧ min n.toNat k.toNat ≤ kmax c
  | .samplewr _ n k => n.toNat < 2 ^ 63 ∧ k.toNat ≤ kmax c
  | _ => True

/-- The modulus operand of `INITP.LCG` is 0 (R304). -/
def zeroModulus (i : Instr) : Prop :=
  match i with
  | .initpLcg _ _ _ modulus => modulus = 0
  | _ => False

/-- The engine a command needs, if any, is constructed. -/
def engineReady (i : Instr) (s : State) : Prop := ∀ e, needsEngine i = some e → s.constructed e = true

/-! ## The commands of an engine, by the engine -/

/-- `NEXT.e`. -/
def nextOf (e : Engine) : Instr :=
  match e with
  | .lcg => .nextLcg
  | .pcg32 => .nextPcg32
  | .pcg64 => .nextPcg64
  | .sm64 => .nextSm64
  | .xo => .nextXo

/-- `GETSTATE.e`. -/
def getstateOf (e : Engine) : Instr :=
  match e with
  | .lcg => .getstateLcg
  | .pcg32 => .getstatePcg32
  | .pcg64 => .getstatePcg64
  | .sm64 => .getstateSm64
  | .xo => .getstateXo

/-- `MIN.e`. -/
def minOf (e : Engine) : Instr :=
  match e with
  | .lcg => .minLcg
  | .pcg32 => .minPcg32
  | .pcg64 => .minPcg64
  | .sm64 => .minSm64
  | .xo => .minXo

/-- `MAX.e`. -/
def maxOf (e : Engine) : Instr :=
  match e with
  | .lcg => .maxLcg
  | .pcg32 => .maxPcg32
  | .pcg64 => .maxPcg64
  | .sm64 => .maxSm64
  | .xo => .maxXo

/-- `NEXTN.e n`. -/
def nextnOf (e : Engine) (n : Word) : Instr :=
  match e with
  | .lcg => .nextnLcg n
  | .pcg32 => .nextnPcg32 n
  | .pcg64 => .nextnPcg64 n
  | .sm64 => .nextnSm64 n
  | .xo => .nextnXo n

/-- `NEXTR.e a, b`. -/
def nextrOf (e : Engine) (a b : Word) : Instr :=
  match e with
  | .lcg => .nextrLcg a b
  | .pcg32 => .nextrPcg32 a b
  | .pcg64 => .nextrPcg64 a b
  | .sm64 => .nextrSm64 a b
  | .xo => .nextrXo a b

/-- `REAL.e`. -/
def realOf (e : Engine) : Instr :=
  match e with
  | .lcg => .realLcg
  | .pcg32 => .realPcg32
  | .pcg64 => .realPcg64
  | .sm64 => .realSm64
  | .xo => .realXo

/-- `REALR.e a, b`. -/
def realrOf (e : Engine) (a b : Word) : Instr :=
  match e with
  | .lcg => .realrLcg a b
  | .pcg32 => .realrPcg32 a b
  | .pcg64 => .realrPcg64 a b
  | .sm64 => .realrSm64 a b
  | .xo => .realrXo a b

/-- `HEADS.e`. -/
def headsOf (e : Engine) : Instr :=
  match e with
  | .lcg => .headsLcg
  | .pcg32 => .headsPcg32
  | .pcg64 => .headsPcg64
  | .sm64 => .headsSm64
  | .xo => .headsXo

/-- `HEADSW.e weight`. -/
def headswOf (e : Engine) (weight : Word) : Instr :=
  match e with
  | .lcg => .headswLcg weight
  | .pcg32 => .headswPcg32 weight
  | .pcg64 => .headswPcg64 weight
  | .sm64 => .headswSm64 weight
  | .xo => .headswXo weight

/-! ## Successive draws -/

/-- The state after `count` draws of engine `e` (R126). -/
def drawTimes (c : Config) (e : Engine) : Nat → State → State
  | 0, s => s
  | count + 1, s => drawTimes c e count (draw c e s).2

/-- The values of the next `count` draws of engine `e`. -/
def outputs (c : Config) (e : Engine) : Nat → State → List Word
  | 0, _ => []
  | count + 1, s => (draw c e s).1 :: outputs c e count (draw c e s).2

/-! ## Relations between states -/

/-- Two states hold the same registers of engine `e`. -/
def sameRegisters (e : Engine) (s t : State) : Prop :=
  match e with
  | .lcg => s.lcg = t.lcg
  | .pcg32 => s.p32 = t.p32
  | .pcg64 => s.p64 = t.p64
  | .sm64 => s.sm = t.sm
  | .xo => s.xo = t.xo

/-- Two states that differ at most in what the spec leaves unspecified after reset (R35): the registers of engines not
constructed, and `RES`. -/
def sameButUnspecified (s t : State) : Prop :=
  s.valid = t.valid ∧ s.inbox = t.inbox ∧ s.ent = t.ent ∧ s.response = t.response ∧
    ∀ e, s.constructed e = true → sameRegisters e s t

/-! ## Sound states -/

/-- A response the block may give (R78, R300): a status code up to 4, and no result word unless it is `OK`. -/
def Response.legal (r : Response) : Prop := r.status.toNat ≤ 4 ∧ (r.status ≠ 0 → r.words = [])

/-- What every step keeps: `RES` in its canonical form with entry numbers below KMAX, a constructed LCG with a modulus
that is not 0 (R27), a constructed Xoshiro256++ that is not all zero (R241), and a legal response. -/
structure State.Sound (c : Config) (s : State) : Prop where
  canonical : Memory.wf s.res
  bounded : Memory.below (kmax c) s.res
  modulus : s.valid.lcg = true → s.lcg.modulus ≠ 0
  notZero : s.valid.xo = true → s.xo ≠ ⟨0, 0, 0, 0⟩
  legal : ∀ r, s.response = some r → r.legal

/-! ## Sequences -/

/-- The entries `i` and `j` of a list exchanged (unchanged where one of them does not exist). -/
def swapEntries {α : Type} (l : List α) (i j : Nat) : List α :=
  match l[i]?, l[j]? with
  | some a, some b => (l.set i b).set j a
  | _, _ => l

/-- The document's Fisher-Yates loop on a host sequence (R262): at `i`, `i + 1`, ... the next choice is exchanged with
entry `i`. -/
def fisherYates {α : Type} : List Nat → Nat → List α → List α
  | [], _, l => l
  | j :: js, i, l => fisherYates js (i + 1) (swapEntries l i j)

/-- The position a draw of [i, len) chooses (R130, R131). -/
def choice (c : Config) (e : Engine) (len i : Nat) (raw : Word) : Nat :=
  i + (rangeMap c (outputWidth e) raw (BitVec.ofNat 64 (len - i))).toNat

/-- The positions that `SHUFFLE.e len` draws, in order: one from [i, len) for each `i` from 0 to `len - 2` (R262). -/
def shuffleChoices (c : Config) (e : Engine) (len : Nat) (s : State) : List Nat :=
  ((outputs c e (len - 1) s).zipIdx).map fun x => choice c e len x.2 x.1

/-- The value of the draw that follows `before` draws (R126). -/
def rawDraw (c : Config) (e : Engine) (s : State) (before : Nat) : Word := (draw c e (drawTimes c e before s)).1

/-- Algorithm L (R266) on a list of positions, with no index RAM and no word arithmetic: `raw` gives the successive draws,
`d` is the number of the next one, `i` the last element taken (from 1), `w` the weight, `slots` the reservoir. -/
def algorithmL (c : Config) (e : Engine) (n k : Nat) (raw : Nat → Word) :
    Nat → Nat → Nat → Word → List Nat → List Nat
  | 0, _, _, _, slots => slots
  | turns + 1, d, i, w, slots =>
    match numSkip c (numUnit c (outputWidth e) (raw d)) w with
    | none => slots
    | some skip =>
      if n < i + skip + 1 then slots
      else
        let slot := (rangeMap c (outputWidth e) (raw (d + 1)) (BitVec.ofNat 64 k)).toNat
        let w := numMul c w (numWstep c (numUnit c (outputWidth e) (raw (d + 2))) k)
        algorithmL c e n k raw turns (d + 3) (i + skip + 1) w (slots.set slot (i + skip))

/-- How many elements of the reservoir `algorithmL` overwrites, over the same draws: its turns before the one that ends it, by
a skip of `INF` or past element `n` (the `r` of R271). -/
def replacements (c : Config) (e : Engine) (n k : Nat) (raw : Nat → Word) : Nat → Nat → Nat → Word → Nat
  | 0, _, _, _ => 0
  | turns + 1, d, i, w =>
    match numSkip c (numUnit c (outputWidth e) (raw d)) w with
    | none => 0
    | some skip =>
      if n < i + skip + 1 then 0
      else
        let w := numMul c w (numWstep c (numUnit c (outputWidth e) (raw (d + 2))) k)
        replacements c e n k raw turns (d + 3) (i + skip + 1) w + 1

/-! ## Numbers -/

/-- The document's promise for `NUM.lerp` (R136): for finite `a < b` and `r` in the open unit interval the result is
finite and in [a, b). Not assumed of any configuration: a named hypothesis (U9). -/
def LerpHalfOpen (c : Config) : Prop :=
  ∀ a b r : Word, f64IsFinite a = true → f64IsFinite b = true → f64IsFinite r = true →
    f64Scaled a < f64Scaled b → 0 < f64Scaled r → f64Scaled r < 2 ^ 1074 →
    f64IsFinite (numLerp c a b r) = true ∧ f64Scaled a ≤ f64Scaled (numLerp c a b r) ∧
      f64Scaled (numLerp c a b r) < f64Scaled b

/-- How many bits of a value are 1. -/
def onesCount {width : Nat} (v : BitVec width) : Nat := (List.range width).countP fun i => v.getLsbD i

/-- The exclusive-or of two Xoshiro256++ states, word by word. -/
def Xo.xor (x y : Xo) : Xo := ⟨x.s0 ^^^ y.s0, x.s1 ^^^ y.s1, x.s2 ^^^ y.s2, x.s3 ^^^ y.s3⟩

end Sys2Proof.Machine
end

