-- ==== Sys2Proof/Certificates/Slice0/Obligations.lean ====
section
/-! DEFINITION. The statements for the provers, one `def Obligations.<Name> : Prop` each, from the numbered rules of spec/.
`Config.block` is the block's configuration, of which nothing is known: a statement about it holds whatever the open
parameters are. -/

open Sys2Proof Sys2Proof.Machine

/-! ## Encoding (spec/30_encoding.md) -/

/-- Decoding an encoded command gives it back, with every operand word at every value (R79). -/
def Obligations.DecodeOfEncodeGivesEveryCommandBack : Prop :=
  ∀ i : Instr, decode (encode i) = .ok i

/-- A packet that decodes is the encoding of its command: each command has one packet (R79, R82 "no aliases"). -/
def Obligations.EncodeOfDecodeGivesThePacketBack : Prop :=
  ∀ (p : Packet) (i : Instr), decode p = .ok i → encode i = p

/-- The decoder rejects a packet exactly when it meets one of the conditions (a) to (g) of R80, which `Packet.illegal`
writes over the header as a number. -/
def Obligations.DecoderRejectsExactlyTheIllegalPackets : Prop :=
  ∀ p : Packet, (∃ r, decode p = .error r) ↔ p.illegal = true

/-- R302: an illegal packet answers `E_ILLEGAL` and changes nothing (but the model's own input fields, log 1); a legal
one never answers it; and whether a packet is illegal depends on its header and the NUMBER of its words only. -/
def Obligations.IllegalPacketsAnswerTheIllegalStatus : Prop :=
  (∀ (s : State) (p : Packet) (e : Wide) (rest : List Input),
    s.inbox = ⟨p, e⟩ :: rest → p.illegal = true →
      step s = .next { s with inbox := rest, ent := e, response := some ⟨1, []⟩ }) ∧
  (∀ (s t : State) (p : Packet) (e : Wide) (rest : List Input) (r : Response),
    s.inbox = ⟨p, e⟩ :: rest → p.illegal = false → step s = .next t → t.response = some r → r.status ≠ 1) ∧
  (∀ p q : Packet, p.hdr = q.hdr → p.words.length = q.words.length → p.illegal = q.illegal)

/-- R217, R238: the headers 0x3200 and 0x4200 are illegal whatever the operands; a step on them answers `E_ILLEGAL`. -/
def Obligations.NoParameterisedConstructorForSm64AndXo : Prop :=
  ∀ (s : State) (h : Header) (words : List Word) (e : Wide) (rest : List Input),
    h = 0x3200 ∨ h = 0x4200 → s.inbox = ⟨⟨h, words⟩, e⟩ :: rest →
      decode ⟨h, words⟩ = .error .absentInitp ∧
      step s = .next { s with inbox := rest, ent := e, response := some ⟨1, []⟩ }

/-- Sanity: packets written out from R79 and R76 decode to the commands they stand for, one of each family. -/
def Obligations.PacketsWrittenFromTheTableDecode : Prop :=
  ∀ a b c d : Word,
    decode ⟨0x0200, [a, b, c, d]⟩ = .ok (.initpLcg a b c d) ∧
    decode ⟨0x1D00, [a]⟩ = .ok (.headswPcg32 a) ∧
    decode ⟨0x2000, [a, b]⟩ = .ok (.initPcg64 a b) ∧
    decode ⟨0x3300, []⟩ = .ok .nextSm64 ∧
    decode ⟨0x4900, [a, b]⟩ = .ok (.nextrXo a b) ∧
    decode ⟨0x5100, [a, b]⟩ = .ok (.rotr32 a b) ∧
    decode ⟨0x6004, [a]⟩ = .ok (.shuffle .xo a) ∧
    decode ⟨0x6102, [a, b]⟩ = .ok (.sample .pcg64 a b)

/-! ## Step and reset -/

/-- A step runs the decoded command: when the packet presented next decodes to `i`, the step is `exec i` on the state with
that input taken and its `ENT` value on the entropy input (R10, R57). -/
def Obligations.StepRunsTheDecodedCommand : Prop :=
  ∀ (s : State) (p : Packet) (e : Wide) (rest : List Input) (i : Instr),
    s.inbox = ⟨p, e⟩ :: rest → decode p = .ok i →
      step s = exec i { s with inbox := rest, ent := e }

/-- With no packet presented a step changes nothing. The MODEL's choice of what a step is then (log 3), after R313: "between
commands it holds its state and does nothing". -/
def Obligations.StepWithNothingPresentedIsIdle : Prop :=
  ∀ s : State, s.inbox = [] → step s = .next s

/-- After reset no engine is constructed: the values R35 states (the other registers it leaves unspecified). -/
def Obligations.ResetLeavesNothingConstructed : Prop :=
  ∀ e : Engine, State.reset.constructed e = false

/-! ## The rotation unit (spec/40_rotation.md) -/

/-- R100 and R101 for both widths: where each bit goes, and the two-shift formula with the count 0 apart. -/
def Obligations.RotationsMoveEachBit : Prop :=
  ∀ (N : Nat) (v : BitVec N) (c : Nat), N = 32 ∨ N = 64 →
    (∀ i, i < N → (rotl v c).getLsbD ((i + c) % N) = v.getLsbD i) ∧
    (∀ i, i < N → (rotr v c).getLsbD i = v.getLsbD ((i + c) % N)) ∧
    (c % N = 0 → rotl v c = v ∧ rotr v c = v) ∧
    (c % N ≠ 0 → rotl v c = v <<< (c % N) ||| v >>> (N - c % N) ∧
      rotr v c = v >>> (c % N) ||| v <<< (N - c % N))

/-- The laws (a) to (e) of R103. -/
def Obligations.RotationLaws : Prop :=
  ∀ (N : Nat) (v u : BitVec N) (c d : Nat), N = 32 ∨ N = 64 →
    rotr v c = rotl v ((N - c % N) % N) ∧
    rotl (rotr v c) c = v ∧ rotr (rotl v c) c = v ∧
    rotl (rotl v c) d = rotl v (c + d) ∧ rotr (rotr v c) d = rotr v (c + d) ∧
    rotl (v ^^^ u) c = rotl v c ^^^ rotl u c ∧ rotr (v ^^^ u) c = rotr v c ^^^ rotr u c ∧
    onesCount (rotl v c) = onesCount v ∧
    rotl (0 : BitVec N) c = 0 ∧ rotl (BitVec.allOnes N) c = BitVec.allOnes N

/-- R104 to R107: each `ROT` command completes in every state, constructed engines or not, with the rotated value as its one
result word and nothing else changed. The 32-bit commands use bits 31:0 of the value only, answer with bits 63:32 at 0, and
the count is reduced modulo the width (R102). -/
def Obligations.RotCommandsAnswerTheRotatedValue : Prop :=
  ∀ (s : State) (value count : Word),
    exec (.rotl32 value count) s = .next { s with
      response := some ⟨0, [(rotl (value.setWidth 32) (count.toNat % 32)).setWidth 64]⟩ } ∧
    exec (.rotr32 value count) s = .next { s with
      response := some ⟨0, [(rotr (value.setWidth 32) (count.toNat % 32)).setWidth 64]⟩ } ∧
    exec (.rotl64 value count) s = .next { s with response := some ⟨0, [rotl value (count.toNat % 64)]⟩ } ∧
    exec (.rotr64 value count) s = .next { s with response := some ⟨0, [rotr value (count.toNat % 64)]⟩ }

/-! ## Construction (spec/41_contract.md R123, R124) -/

/-- `INIT.e` completes in every state: the seed is loaded as it is, the parameter registers take the defaults, the flag is
set, and nothing else changes (R160, R180, R190, R210); for `XO` the seed goes through the expander and `sm` and
`valid[3]` stay (R236, R32). -/
def Obligations.InitWritesEveryRegisterOfItsEngine : Prop :=
  ∀ (s : State) (seed hi : Word),
    exec (.initLcg seed) s = .next { s with
      lcg := ⟨seed, Config.block.lcgDefaultMul, 0, 0x7FFFFFFFFFFFFFE7⟩
      valid := { s.valid with lcg := true }, response := some ⟨0, []⟩ } ∧
    exec (.initPcg32 seed) s = .next { s with
      p32 := ⟨seed, Config.block.pcg32DefaultMul, Config.block.pcg32DefaultInc⟩
      valid := { s.valid with pcg32 := true }, response := some ⟨0, []⟩ } ∧
    exec (.initPcg64 seed hi) s = .next { s with
      p64 := ⟨hi ++ seed, Config.block.pcg64DefaultMul, Config.block.pcg64DefaultInc⟩
      valid := { s.valid with pcg64 := true }, response := some ⟨0, []⟩ } ∧
    exec (.initSm64 seed) s = .next { s with
      sm := seed, valid := { s.valid with sm64 := true }, response := some ⟨0, []⟩ } ∧
    exec (.initXo seed) s = .next { s with
      xo := xoExpand Config.block seed, valid := { s.valid with xo := true }, response := some ⟨0, []⟩ }

/-- R124: `INITE.e` is `INIT.e` with the seed taken from the entropy input, `ENT[63:0]`, or all of it for `PCG64`; and it
completes in every state. -/
def Obligations.IniteTakesItsSeedFromEntropy : Prop :=
  ∀ s : State,
    (exec .initeLcg s = exec (.initLcg (s.ent.setWidth 64)) s ∧ exec .initeLcg s = .next { s with
      lcg := ⟨s.ent.setWidth 64, Config.block.lcgDefaultMul, 0, 0x7FFFFFFFFFFFFFE7⟩
      valid := { s.valid with lcg := true }, response := some ⟨0, []⟩ }) ∧
    (exec .initePcg32 s = exec (.initPcg32 (s.ent.setWidth 64)) s ∧ exec .initePcg32 s = .next { s with
      p32 := ⟨s.ent.setWidth 64, Config.block.pcg32DefaultMul, Config.block.pcg32DefaultInc⟩
      valid := { s.valid with pcg32 := true }, response := some ⟨0, []⟩ }) ∧
    (exec .initePcg64 s = exec (.initPcg64 (s.ent.setWidth 64) ((s.ent >>> 64).setWidth 64)) s ∧
     exec .initePcg64 s = .next { s with
      p64 := ⟨s.ent, Config.block.pcg64DefaultMul, Config.block.pcg64DefaultInc⟩
      valid := { s.valid with pcg64 := true }, response := some ⟨0, []⟩ }) ∧
    (exec .initeSm64 s = exec (.initSm64 (s.ent.setWidth 64)) s ∧ exec .initeSm64 s = .next { s with
      sm := s.ent.setWidth 64, valid := { s.valid with sm64 := true }, response := some ⟨0, []⟩ }) ∧
    (exec .initeXo s = exec (.initXo (s.ent.setWidth 64)) s ∧ exec .initeXo s = .next { s with
      xo := xoExpand Config.block (s.ent.setWidth 64)
      valid := { s.valid with xo := true }, response := some ⟨0, []⟩ })

/-- `INITP.e` completes in every state with the operands in the registers, 128-bit operands low word first, the flag set and
nothing else changed (R162 for a modulus that is not 0, R182, R192). -/
def Obligations.InitpWritesItsOperands : Prop :=
  ∀ (s : State) (x0 x1 x2 x3 x4 x5 : Word),
    (x3 ≠ 0 → exec (.initpLcg x0 x1 x2 x3) s = .next { s with
      lcg := ⟨x0, x1, x2, x3⟩, valid := { s.valid with lcg := true }, response := some ⟨0, []⟩ }) ∧
    exec (.initpPcg32 x0 x1 x2) s = .next { s with
      p32 := ⟨x0, x1, x2⟩, valid := { s.valid with pcg32 := true }, response := some ⟨0, []⟩ } ∧
    exec (.initpPcg64 x0 x1 x2 x3 x4 x5) s = .next { s with
      p64 := ⟨x1 ++ x0, x3 ++ x2, x5 ++ x4⟩
      valid := { s.valid with pcg64 := true }, response := some ⟨0, []⟩ }

/-- R235: the four words the expander loads are the halves of two successive SplitMix64 draws from the seed, zero-extended,
so each is below 2^32; the half order is `XO_SEED_LOW_FIRST`. -/
def Obligations.SeedWordsAreHalvesOfTwoDraws : Prop :=
  ∀ (c : Config) (seed : Word),
    let z1 := smMix c (0x9E3779B97F4A7C15 + seed)
    let z2 := smMix c (0x9E3779B97F4A7C15 + (0x9E3779B97F4A7C15 + seed))
    let x := xoExpand c seed
    (c.xoSeedLowFirst = true →
      x.s0.toNat = z1.toNat % 2 ^ 32 ∧ x.s1.toNat = z1.toNat / 2 ^ 32 ∧
      x.s2.toNat = z2.toNat % 2 ^ 32 ∧ x.s3.toNat = z2.toNat / 2 ^ 32) ∧
    (c.xoSeedLowFirst = false →
      x.s0.toNat = z1.toNat / 2 ^ 32 ∧ x.s1.toNat = z1.toNat % 2 ^ 32 ∧
      x.s2.toNat = z2.toNat / 2 ^ 32 ∧ x.s3.toNat = z2.toNat % 2 ^ 32) ∧
    x.s0.toNat < 2 ^ 32 ∧ x.s1.toNat < 2 ^ 32 ∧ x.s2.toNat < 2 ^ 32 ∧ x.s3.toNat < 2 ^ 32

/-! ## Errors (spec/60_exceptions.md) -/

/-- R301: a command that uses engine `e` answers `E_UNSEEDED`, and changes nothing, exactly when `valid[e]` is 0; the
construction commands, `MIN`, `MAX` and `ROT` (for which `needsEngine` is none) never do. -/
def Obligations.UnseededIsAnsweredExactlyWhenNotConstructed : Prop :=
  (∀ (i : Instr) (e : Engine) (s : State), needsEngine i = some e → s.constructed e = false →
    exec i s = .next { s with response := some ⟨2, []⟩ }) ∧
  (∀ (i : Instr) (s t : State) (r : Response), exec i s = .next t → t.response = some r → r.status = 2 →
    ∃ e, needsEngine i = some e ∧ s.constructed e = false)

/-- R304: `INITP.LCG` with modulus 0 answers `E_PARAM` and writes nothing, and no other command or operand answers it. -/
def Obligations.OnlyZeroModulusIsRefused : Prop :=
  (∀ (s : State) (seed mul inc : Word),
    exec (.initpLcg seed mul inc 0) s = .next { s with response := some ⟨3, []⟩ }) ∧
  (∀ (i : Instr) (s t : State) (r : Response), exec i s = .next t → t.response = some r → r.status = 3 →
    ∃ seed mul inc, i = .initpLcg seed mul inc 0)

/-- R305 with R307: the three `SMP` commands answer `E_RANGE`, and change nothing, exactly when their engine is constructed and an
operand exceeds the bounds; no other command answers it. -/
def Obligations.RangeIsAnsweredExactlyOutsideTheBounds : Prop :=
  (∀ (i : Instr) (s : State), engineReady i s → ¬ inBounds Config.block i →
    exec i s = .next { s with response := some ⟨4, []⟩ }) ∧
  (∀ (i : Instr) (s t : State) (r : Response), exec i s = .next t → t.response = some r → r.status = 4 →
    engineReady i s ∧ ¬ inBounds Config.block i)

/-- R303: a command that answers anything but `OK` changes no register, flag or entry and has no result word; and so does a
step on a packet, illegal or not (but for the model's own input fields, log 1). -/
def Obligations.RefusedCommandsLeaveTheStateAlone : Prop :=
  (∀ (i : Instr) (s t : State) (r : Response), exec i s = .next t → t.response = some r → r.status ≠ 0 →
    t = { s with response := some ⟨r.status, []⟩ }) ∧
  (∀ (s t : State) (p : Packet) (e : Wide) (rest : List Input) (r : Response), s.inbox = ⟨p, e⟩ :: rest →
    step s = .next t → t.response = some r → r.status ≠ 0 →
      t = { s with inbox := rest, ent := e, response := some ⟨r.status, []⟩ })

/-- Every command answers in every state: no command faults or is refused by the machine, and its response carries one of
the statuses R300 gives a command ("A command that passes them cannot fail afterwards", R260). -/
def Obligations.EveryCommandAnswersAListedStatus : Prop :=
  ∀ (i : Instr) (s : State), ∃ t r, exec i s = .next t ∧ t.response = some r ∧
    (r.status = 0 ∨ r.status = 2 ∨ r.status = 3 ∨ r.status = 4)

/-- R76, R78: every command whose engine is constructed and whose operands are within bounds is performed: it answers `OK` with
as many result words as R76 lists. It covers all 70 commands. -/
def Obligations.AcceptedCommandsAnswerTheListedWords : Prop :=
  ∀ (i : Instr) (s : State), engineReady i s → inBounds Config.block i → ¬ zeroModulus i →
    ∃ t words, exec i s = .next t ∧ t.response = some ⟨0, words⟩ ∧ words.length = resultCount i

/-! ## The contract (spec/41_contract.md) -/

/-- R121, R122: `MIN.e` answers 0 and `MAX.e` answers 2^W_e - 1 in every state, constructed or not, and nothing else
changes: minLcg, minPcg32, minPcg64, minSm64, minXo, maxLcg, maxPcg32, maxPcg64, maxSm64, maxXo. -/
def Obligations.MinAndMaxAnswerWithoutConstruction : Prop :=
  ∀ (s : State) (e : Engine),
    exec (minOf e) s = .next { s with response := some ⟨0, [0]⟩ } ∧
    exec (maxOf e) s = .next { s with
      response := some ⟨0, [if e = .pcg32 then 0x00000000FFFFFFFF else 0xFFFFFFFFFFFFFFFF]⟩ }

/-- `GETSTATE.e` of a constructed engine answers the raw state in the layout of R76 and changes nothing (R127, R165, R185,
R195, R214, R234). -/
def Obligations.GetstateAnswersTheRawState : Prop :=
  ∀ s : State,
    (s.valid.lcg = true →
      exec .getstateLcg s = .next { s with response := some ⟨0, [s.lcg.state]⟩ }) ∧
    (s.valid.pcg32 = true →
      exec .getstatePcg32 s = .next { s with response := some ⟨0, [s.p32.state]⟩ }) ∧
    (s.valid.pcg64 = true → exec .getstatePcg64 s = .next { s with
      response := some ⟨0, [s.p64.state.setWidth 64, (s.p64.state >>> 64).setWidth 64]⟩ }) ∧
    (s.valid.sm64 = true → exec .getstateSm64 s = .next { s with response := some ⟨0, [s.sm]⟩ }) ∧
    (s.valid.xo = true → exec .getstateXo s = .next { s with
      response := some ⟨0, [s.xo.s0, s.xo.s1, s.xo.s2, s.xo.s3]⟩ })

/-- R130, R129: `NEXTR.e a, b` on a constructed engine. For `a >= b` it answers `a` without a draw. For `a < b` it makes
exactly one draw and answers `a` plus an offset below the span, and the result lies in [a, b) as signed numbers. Commands:
nextrLcg, nextrPcg32, nextrPcg64, nextrSm64, nextrXo. -/
def Obligations.RangedDrawsStayInTheHalfOpenRange : Prop :=
  ∀ (s : State) (e : Engine) (a b : Word), s.constructed e = true →
    (b.toInt ≤ a.toInt → exec (nextrOf e a b) s = .next { s with response := some ⟨0, [a]⟩ }) ∧
    (a.toInt < b.toInt →
      let d := draw Config.block e s
      let off := rangeMap Config.block (outputWidth e) d.1 (b - a)
      exec (nextrOf e a b) s = .next { d.2 with response := some ⟨0, [a + off]⟩ } ∧
      ((b - a).toNat : Int) = b.toInt - a.toInt ∧ off.toNat < (b - a).toNat ∧
      a.toInt ≤ (a + off).toInt ∧ (a + off).toInt < b.toInt)

/-- R128: `NEXTN.e n` is `Ranged_e(0, n)`: it has the effect of `NEXTR.e 0, n`; for `n <= 0` it answers 0 with no draw, and for
`n > 0` it makes one draw and answers below `n`. Commands: nextnLcg, nextnPcg32, nextnPcg64, nextnSm64, nextnXo. -/
def Obligations.NextnAnswersBelowItsBound : Prop :=
  ∀ (s : State) (e : Engine) (n : Word), s.constructed e = true →
    exec (nextnOf e n) s = exec (nextrOf e 0 n) s ∧
    (n.toInt ≤ 0 → exec (nextnOf e n) s = .next { s with response := some ⟨0, [0]⟩ }) ∧
    (0 < n.toInt → ∃ r : Word, r.toNat < n.toNat ∧
      exec (nextnOf e n) s = .next { (draw Config.block e s).2 with response := some ⟨0, [r]⟩ })

/-- R131: `RANGE_MAP` of any configuration keeps below its span, and every map that does is the `RANGE_MAP` of some
configuration: the model assumes the contract and nothing more. -/
def Obligations.RangeMapIsAnyMapBelowItsSpan : Prop :=
  (∀ (c : Config) (width : Nat) (raw span : Word), span ≠ 0 → (rangeMap c width raw span).toNat < span.toNat) ∧
  (∀ f : Nat → Word → Word → Word, (∀ width raw span, span ≠ 0 → (f width raw span).toNat < span.toNat) →
    ∃ c : Config, ∀ width raw span, span ≠ 0 → rangeMap c width raw span = f width raw span)

/-- R132 with R135, R141: `REAL.e` on a constructed engine makes one draw and answers a finite value strictly between 0 and
1. Commands: realLcg, realPcg32, realPcg64, realSm64, realXo. -/
def Obligations.RealDrawsLieInTheOpenUnitInterval : Prop :=
  ∀ (s : State) (e : Engine), s.constructed e = true →
    let d := draw Config.block e s
    let r := numUnit Config.block (outputWidth e) d.1
    exec (realOf e) s = .next { d.2 with response := some ⟨0, [r]⟩ } ∧
    f64IsFinite r = true ∧ 0 < f64Scaled r ∧ f64Scaled r < 2 ^ 1074

/-- R133: `REALR.e a, b` on a constructed engine makes one draw whatever `a` and `b` are and answers `NUM.lerp(a, b, r)`.
Commands: realrLcg, realrPcg32, realrPcg64, realrSm64, realrXo. -/
def Obligations.RealrAnswersTheMapOfOneDraw : Prop :=
  ∀ (s : State) (e : Engine) (a b : Word), s.constructed e = true →
    let d := draw Config.block e s
    exec (realrOf e a b) s = .next { d.2 with
      response := some ⟨0, [numLerp Config.block a b (numUnit Config.block (outputWidth e) d.1)]⟩ }

/-- The document's promise for `NextReal(a, b)` (R136), carried to the response: for every configuration whose `NUM.lerp`
keeps it (a named hypothesis, U9; log 10), the shared operation behind every `REALR` command answers in [a, b). -/
def Obligations.LerpPromiseBoundsRealr : Prop :=
  ∀ (c : Config) (s : State) (e : Engine) (a b : Word), LerpHalfOpen c → s.constructed e = true →
    f64IsFinite a = true → f64IsFinite b = true → f64Scaled a < f64Scaled b →
    ∃ t r, realrCommand c e a b s = .next t ∧ t.response = some ⟨0, [r]⟩ ∧
      f64Scaled a ≤ f64Scaled r ∧ f64Scaled r < f64Scaled b

/-- R134: `HEADS.e` on a constructed engine makes one draw and answers 1 when the unit value is below one half, 0 otherwise
(2^1073 is one half in the units of `f64Scaled`). Commands: headsLcg, headsPcg32, headsPcg64, headsSm64, headsXo. -/
def Obligations.HeadsComparesOneDrawWithOneHalf : Prop :=
  ∀ (s : State) (e : Engine), s.constructed e = true →
    let d := draw Config.block e s
    let r := numUnit Config.block (outputWidth e) d.1
    exec (headsOf e) s = .next { d.2 with response := some ⟨0, [if f64Scaled r < 2 ^ 1073 then 1 else 0]⟩ }

/-- R140: `HEADSW.e weight` on a constructed engine makes one draw whatever the weight is and answers a Boolean word; for a
finite weight it says whether the unit value is below the weight, so a weight of 0 or less gives 0 and one of 1 or more
gives 1; the infinities give 1 and 0; a NaN gives what `NUM.lt` returns. Commands: headswLcg, headswPcg32,
headswPcg64, headswSm64, headswXo. -/
def Obligations.HeadswComparesOneDrawWithTheWeight : Prop :=
  ∀ (s : State) (e : Engine) (weight : Word), s.constructed e = true →
    let d := draw Config.block e s
    let r := numUnit Config.block (outputWidth e) d.1
    ∃ word : Word, (word = 0 ∨ word = 1) ∧
      exec (headswOf e weight) s = .next { d.2 with response := some ⟨0, [word]⟩ } ∧
      (f64IsFinite weight = true → (word = 1 ↔ f64Scaled r < f64Scaled weight)) ∧
      (f64IsFinite weight = true → f64Scaled weight ≤ 0 → word = 0) ∧
      (f64IsFinite weight = true → 2 ^ 1074 ≤ f64Scaled weight → word = 1) ∧
      (weight = 0x7FF0000000000000 → word = 1) ∧ (weight = 0xFFF0000000000000 → word = 0) ∧
      (f64IsNaN weight = true → (word = 1 ↔ Config.block.ltNaNRaw r weight = true))

/-- R137: `NUM.lt` of every configuration is the mathematical `<` on patterns that are no NaN: on finite ones the order of
their exact values; an infinity lies outside every finite value; and of the four pairs of two infinities only minus
infinity and plus infinity are in the order. These are all the patterns that are no NaN. -/
def Obligations.LessThanIsTheOrderOfTheExactValues : Prop :=
  ∀ (c : Config) (x y : Word),
    (f64IsFinite x = true → f64IsFinite y = true → (numLt c x y = true ↔ f64Scaled x < f64Scaled y)) ∧
    (f64IsFinite x = true → numLt c x 0x7FF0000000000000 = true ∧ numLt c 0x7FF0000000000000 x = false) ∧
    (f64IsFinite x = true → numLt c 0xFFF0000000000000 x = true ∧ numLt c x 0xFFF0000000000000 = false) ∧
    (numLt c 0xFFF0000000000000 0x7FF0000000000000 = true ∧ numLt c 0x7FF0000000000000 0xFFF0000000000000 = false ∧
      numLt c 0x7FF0000000000000 0x7FF0000000000000 = false ∧ numLt c 0xFFF0000000000000 0xFFF0000000000000 = false) ∧
    (f64IsNaN x = false ↔ f64IsFinite x = true ∨ x = 0x7FF0000000000000 ∨ x = 0xFFF0000000000000)

/-- R135: with the reference body, `NUM.unit` is exactly `(2 * raw + 1) * 2^-33` for a 32-bit draw and
`(2 * (raw >> 12) + 1) * 2^-53` for a 64-bit one (in the units of `f64Scaled`, 2^-1074): no rounding is involved. -/
def Obligations.ReferenceUnitIsExact : Prop :=
  ∀ (mul : Word) (k : Fin 9223372036854775807) (ws : Word → Nat → Word) (m : Word → Word → Word)
    (sk : Word → Word → Option Nat) (raw : Word),
    let c := referenceConfig mul k ws m sk
    (raw.toNat < 2 ^ 32 → f64IsFinite (numUnit c 32 raw) = true ∧
      f64Scaled (numUnit c 32 raw) = (2 * raw.toNat + 1) * 2 ^ 1041) ∧
    (f64IsFinite (numUnit c 64 raw) = true ∧
      f64Scaled (numUnit c 64 raw) = (2 * (raw.toNat / 2 ^ 12) + 1) * 2 ^ 1021)

/-- R127, the reconstruction property: construct from the words `GETSTATE.e` answered, through `INITP` with the parameters
the engine had, or through `INIT` where it had the defaults, from any state `t`; the engine then yields for ever the values
it would have yielded had it been left alone. `e` in `LCG`, `PCG32`, `PCG64`, `SM64`. -/
def Obligations.ReconstructionReproducesTheFuture : Prop :=
  ∀ (s g t : State) (lo hi : Word) (count : Nat),
    (exec .getstateLcg s = .next g → g.response = some ⟨0, [lo]⟩ → s.lcg.modulus ≠ 0 →
      ∃ u, exec (.initpLcg lo s.lcg.mul s.lcg.inc s.lcg.modulus) t = .next u ∧
        outputs Config.block .lcg count u = outputs Config.block .lcg count s) ∧
    (exec .getstateLcg s = .next g → g.response = some ⟨0, [lo]⟩ →
      s.lcg = ⟨s.lcg.state, Config.block.lcgDefaultMul, 0, 0x7FFFFFFFFFFFFFE7⟩ →
      ∃ u, exec (.initLcg lo) t = .next u ∧
        outputs Config.block .lcg count u = outputs Config.block .lcg count s) ∧
    (exec .getstatePcg32 s = .next g → g.response = some ⟨0, [lo]⟩ →
      ∃ u, exec (.initpPcg32 lo s.p32.mul s.p32.inc) t = .next u ∧
        outputs Config.block .pcg32 count u = outputs Config.block .pcg32 count s) ∧
    (exec .getstatePcg32 s = .next g → g.response = some ⟨0, [lo]⟩ →
      s.p32 = ⟨s.p32.state, Config.block.pcg32DefaultMul, Config.block.pcg32DefaultInc⟩ →
      ∃ u, exec (.initPcg32 lo) t = .next u ∧
        outputs Config.block .pcg32 count u = outputs Config.block .pcg32 count s) ∧
    (exec .getstatePcg64 s = .next g → g.response = some ⟨0, [lo, hi]⟩ →
      ∃ u, exec (.initpPcg64 lo hi (s.p64.mul.setWidth 64) ((s.p64.mul >>> 64).setWidth 64)
          (s.p64.inc.setWidth 64) ((s.p64.inc >>> 64).setWidth 64)) t = .next u ∧
        outputs Config.block .pcg64 count u = outputs Config.block .pcg64 count s) ∧
    (exec .getstatePcg64 s = .next g → g.response = some ⟨0, [lo, hi]⟩ →
      s.p64 = ⟨s.p64.state, Config.block.pcg64DefaultMul, Config.block.pcg64DefaultInc⟩ →
      ∃ u, exec (.initPcg64 lo hi) t = .next u ∧
        outputs Config.block .pcg64 count u = outputs Config.block .pcg64 count s) ∧
    (exec .getstateSm64 s = .next g → g.response = some ⟨0, [lo]⟩ →
      ∃ u, exec (.initSm64 lo) t = .next u ∧
        outputs Config.block .sm64 count u = outputs Config.block .sm64 count s)

/-! ## The five draws: `NEXT.e` and the generators -/

/-- R163, R164: `NEXT.LCG` on a constructed LCG writes the residue of `mul * state + inc`, taken over the integers or after
wrapping to 64 bits as `LCG_EXACT` says, and answers the NEW state; nothing else changes. (A modulus of 0 in a constructed
LCG is ruled out by `State.Sound`.) -/
def Obligations.LcgDrawFollowsTheRecurrence : Prop :=
  ∀ s : State, s.valid.lcg = true → s.lcg.modulus ≠ 0 →
    ∃ v : Word,
      v.toNat = (if Config.block.lcgExact then s.lcg.mul.toNat * s.lcg.state.toNat + s.lcg.inc.toNat
        else (s.lcg.mul.toNat * s.lcg.state.toNat + s.lcg.inc.toNat) % 2 ^ 64) % s.lcg.modulus.toNat ∧
      exec .nextLcg s = .next { s with lcg := { s.lcg with state := v }, response := some ⟨0, [v]⟩ }

/-- R183, R184: `NEXT.PCG32` on a constructed PCG32: the state takes the congruential step modulo 2^64, and the answer is the
permutation of the OLD state: its folded value rotated right by its top 5 bits, zero-extended; nothing else changes. -/
def Obligations.Pcg32DrawPermutesTheOldState : Prop :=
  ∀ s : State, s.valid.pcg32 = true →
    let old := s.p32.state
    let fold := old ^^^ (old >>> Config.block.pcg32Xs1.val)
    let xs : Half := (fold >>> Config.block.pcg32Xs2.val).setWidth 32
    exec .nextPcg32 s = .next { s with
      p32 := { s.p32 with state := s.p32.inc + s.p32.mul * old }
      response := some ⟨0, [(rotr xs (old.toNat / 2 ^ 59)).setWidth 64]⟩ }

/-- R196 with R193, R194: `NEXT.PCG64` on a constructed PCG64 answers the exclusive-or of the halves of the OLD state, rotated
right ONCE by its top 6 bits, which is what the two rotators of R193 give (conflict C2); the state takes the step modulo
2^128; nothing else changes. -/
def Obligations.Pcg64DrawRotatesTheFoldedHalves : Prop :=
  ∀ s : State, s.valid.pcg64 = true →
    let old := s.p64.state
    let fold : Word := (old >>> 64).setWidth 64 ^^^ old.setWidth 64
    exec .nextPcg64 s = .next { s with
      p64 := { s.p64 with state := s.p64.inc + s.p64.mul * old }
      response := some ⟨0, [rotr fold (old.toNat / 2 ^ 122)]⟩ }

/-- R212, R213, R215: `NEXT.SM64` on a constructed SplitMix64 adds `SM_GAMMA` to the state and answers the finaliser of the
NEW state; nothing else changes. -/
def Obligations.SplitMixDrawMixesTheNewState : Prop :=
  ∀ s : State, s.valid.sm64 = true →
    let c := Config.block
    let z0 := 0x9E3779B97F4A7C15 + s.sm
    let z1 := (z0 ^^^ (z0 >>> smS1 c)) * smM1 c
    let z2 := (z1 ^^^ (z1 >>> smS2 c)) * smM2 c
    exec .nextSm64 s = .next { s with sm := z0, response := some ⟨0, [z2 ^^^ (z2 >>> smS3 c)]⟩ }

/-- R232, R233: `NEXT.XO` on a constructed Xoshiro256++ in the closed form of R232, over the words before the update (conflict
C1: the sequential reading); nothing else changes. -/
def Obligations.XoshiroDrawInClosedForm : Prop :=
  ∀ s : State, s.valid.xo = true →
    let a := s.xo.s0
    let b := s.xo.s1
    let c := s.xo.s2
    let d := s.xo.s3
    exec .nextXo s = .next { s with
      xo := ⟨a ^^^ b ^^^ d, a ^^^ b ^^^ c, a ^^^ c ^^^ (b <<< 17), rotl (b ^^^ d) 45⟩
      response := some ⟨0, [rotl (a + d) 23 + a]⟩ }

/-- R168 (a) to (d): after a draw the LCG's state is below the modulus and equals the output; with increment 0 a state that
is a multiple of the modulus is followed by 0 for ever (with `LCG_EXACT` true; the state 0 under either reading); with
modulus 1 a draw gives 0; with multiplier 0 it gives `inc mod modulus`. -/
def Obligations.LcgRangeAndFixedPoints : Prop :=
  ∀ (c : Config) (r : Lcg), r.modulus ≠ 0 →
    ((lcgNext c r).2.state.toNat < r.modulus.toNat ∧ (lcgNext c r).1 = (lcgNext c r).2.state) ∧
    (∀ (s : State) (count : Nat), c.lcgExact = true ∨ r.state = 0 → s.lcg = r → r.inc = 0 →
      r.modulus.toNat ∣ r.state.toNat → ∀ v ∈ outputs c .lcg count s, v = 0) ∧
    (r.modulus = 1 → (lcgNext c r).1 = 0) ∧
    (r.mul = 0 → (lcgNext c r).1.toNat = r.inc.toNat % r.modulus.toNat)

/-- R187 (b) to (e): from the state 0 the PCG32 output is 0 and the new state the increment, for every configuration; with the default shifts, every state below
2^27 gives 0, a state whose top 5 bits are 0 gives its folded value unrotated, and the state 2^64 - 1 gives
0xFFF00001. -/
def Obligations.Pcg32OutputFacts : Prop :=
  ∀ (c : Config) (old : Word),
    (∀ mul inc : Word, pcg32Next c ⟨0, mul, inc⟩ = (0, ⟨inc, mul, inc⟩)) ∧
    (c.pcg32Xs1.val = 18 → c.pcg32Xs2.val = 27 →
      (old.toNat < 2 ^ 27 → pcg32Output c old = 0) ∧
      (old.toNat < 2 ^ 59 → pcg32Output c old = ((old ^^^ (old >>> 18)) >>> 27).setWidth 32) ∧
      pcg32Output c 0xFFFFFFFFFFFFFFFF = 0xFFF00001)

/-- R198 (a) to (d): the PCG64 output is 0 exactly when the two halves are equal; a state below 2^122 gives the exclusive-or of
the halves unrotated; two complementary halves under a count of 0 give all ones. -/
def Obligations.Pcg64OutputFacts : Prop :=
  ∀ old : Wide,
    (pcg64Output old = 0 ↔ (old >>> 64).setWidth 64 = old.setWidth 64) ∧
    (old.toNat < 2 ^ 122 → pcg64Output old = (old >>> 64).setWidth 64 ^^^ old.setWidth 64) ∧
    (∀ inc mul : Wide, (pcg64Next ⟨0, mul, inc⟩) = (0, ⟨inc, mul, inc⟩)) ∧
    pcg64Output 0x0123456789ABCDEFFEDCBA9876543210 = 0xFFFFFFFFFFFFFFFF

/-- R216: after `n` draws from `s` the SplitMix64 state is `s + n * SM_GAMMA`, it does not repeat before 2^64 draws, the
finaliser is a bijection that maps 0 to 0, the output is 0 exactly when the state after the addition is 0, and two
consecutive draws are never both 0; for every configuration (odd multipliers, shifts in 1..63). -/
def Obligations.SplitMixStateIsACounter : Prop :=
  ∀ (c : Config) (s : State) (n : Nat),
    (drawTimes c .sm64 n s).sm = s.sm + BitVec.ofNat 64 n * 0x9E3779B97F4A7C15 ∧
    (0 < n → n < 2 ^ 64 → (drawTimes c .sm64 n s).sm ≠ s.sm) ∧
    Function.Bijective (smMix c) ∧ smMix c 0 = 0 ∧
    ((draw c .sm64 s).1 = 0 ↔ 0x9E3779B97F4A7C15 + s.sm = 0) ∧
    ¬ ((draw c .sm64 s).1 = 0 ∧ (draw c .sm64 (draw c .sm64 s).2).1 = 0)

/-- R240 (a) to (c): the Xoshiro256++ state update is linear over exclusive-or and a bijection; the all-zero state maps to
itself and outputs 0; and a state that is not all zero never becomes all zero. -/
def Obligations.XoshiroUpdateIsALinearBijection : Prop :=
  (∀ x y : Xo, (xoNext (x.xor y)).2 = (xoNext x).2.xor (xoNext y).2) ∧
  Function.Bijective (fun x : Xo => (xoNext x).2) ∧
  xoNext ⟨0, 0, 0, 0⟩ = (0, ⟨0, 0, 0, 0⟩) ∧
  (∀ x : Xo, (xoNext x).2 = ⟨0, 0, 0, 0⟩ → x = ⟨0, 0, 0, 0⟩)

/-- R241: the state that construction produces is never all zero, and draws never make it so; for every configuration. -/
def Obligations.ConstructedXoshiroIsNeverAllZero : Prop :=
  ∀ (c : Config) (seed : Word) (s : State) (count : Nat),
    xoExpand c seed ≠ ⟨0, 0, 0, 0⟩ ∧ (drawTimes c .xo count (loadXo c seed s)).xo ≠ ⟨0, 0, 0, 0⟩

/-! ## Frames over all commands -/

/-- R26, R29: no command writes a register of an engine other than its own, and none clears or sets that engine's flag. It
leaves the model's own fields for what the host is still to present and for the value on `ENT` alone too: the model's
choice (log 1, log 2) after R33 and R34, which call them inputs. -/
def Obligations.CommandsTouchOnlyTheirOwnEngine : Prop :=
  ∀ (i : Instr) (s t : State), exec i s = .next t →
    (∀ e, ownEngine i ≠ some e → sameRegisters e s t ∧ t.constructed e = s.constructed e) ∧
    t.inbox = s.inbox ∧ t.ent = s.ent

/-- R26, R57 (a), (b): what a command of engine `e` answers, and what it leaves in that engine, depends on the registers and the
flag of `e` and on the entropy input only: not on another engine, on `RES` or on an earlier response. -/
def Obligations.CommandsReadOnlyTheirOwnEngine : Prop :=
  ∀ (i : Instr) (e : Engine) (s t s' : State), ownEngine i = some e → sameRegisters e s t →
    s.constructed e = t.constructed e → s.ent = t.ent → exec i s = .next s' →
      ∃ t', exec i t = .next t' ∧ t'.response = s'.response ∧ sameRegisters e s' t' ∧
        s'.constructed e = t'.constructed e

/-- R27, R29: only construction writes a parameter register or a flag; a flag is never cleared. -/
def Obligations.OnlyConstructionWritesParametersAndFlags : Prop :=
  ∀ (i : Instr) (s t : State), exec i s = .next t →
    (isConstruction i = false → t.valid = s.valid ∧
      t.lcg = { s.lcg with state := t.lcg.state } ∧ t.p32 = { s.p32 with state := t.p32.state } ∧
      t.p64 = { s.p64 with state := t.p64.state }) ∧
    (∀ e, s.constructed e = true → t.constructed e = true)

/-- R31: only the `SMP` commands write `RES`, and of its entries only those from 0 up to the number of positions they
answer; every other entry reads as before. -/
def Obligations.OnlySequenceCommandsWriteTheIndexRam : Prop :=
  ∀ (i : Instr) (s t : State), exec i s = .next t →
    ∀ j, writtenEntries i ≤ j → t.res.read j = s.res.read j

/-- R35, R330: what reset leaves unspecified cannot be observed. Two states that differ only in the registers of engines not
constructed and in `RES` take steps with the same response, to two states that again differ only so. -/
def Obligations.UnspecifiedContentsAreNotObservable : Prop :=
  ∀ s t s' : State, sameButUnspecified s t → step s = .next s' →
    ∃ t', step t = .next t' ∧ sameButUnspecified s' t'

/-- Every step keeps a state sound: `RES` canonical with entry numbers below KMAX, the modulus of a constructed LCG not 0
(R27, R162), a constructed Xoshiro256++ not all zero (R241), and the response legal (R78, R300). From EVERY sound state. -/
def Obligations.EveryStepKeepsTheStateSound : Prop :=
  ∀ s t : State, s.Sound Config.block → step s = .next t → t.Sound Config.block

/-- The state after reset is sound. -/
def Obligations.ResetIsSound : Prop :=
  State.reset.Sound Config.block

/-! ## The sequence controller (spec/46_shuffle_sample.md) -/

/-- R263, R262: `SHUFFLE.e len` with `len <= KMAX` on a constructed engine completes; its result words are the numbers 0 to
`len - 1`, each once; engine `e` makes `len - 1` draws (none for `len` = 0); and but for `RES` and the response nothing
else changes. -/
def Obligations.ShuffleAnswersAPermutation : Prop :=
  ∀ (e : Engine) (len : Word) (s : State), s.constructed e = true → len.toNat ≤ kmax Config.block →
    ∃ m words, exec (.shuffle e len) s = .next { drawTimes Config.block e (len.toNat - 1) s with
        res := m, response := some ⟨0, words⟩ } ∧
      words = (List.range len.toNat).map m.read ∧ (words.map BitVec.toNat).Perm (List.range len.toNat)

/-- R264: if the response is `P`, a permutation of the positions, the sequence the document's Fisher-Yates loop makes of a host sequence `old` with the same
draws has `old[P[i]]` at each place `i`. -/
def Obligations.ShuffleAppliesFisherYatesToTheHostSequence : Prop :=
  ∀ (α : Type) (e : Engine) (len : Word) (s t : State) (words : List Word) (old : List α),
    s.constructed e = true → len.toNat ≤ kmax Config.block → old.length = len.toNat →
    exec (.shuffle e len) s = .next t → t.response = some ⟨0, words⟩ →
    words.length = len.toNat ∧ (words.map BitVec.toNat).Perm (List.range len.toNat) ∧
    ∀ i, i < len.toNat →
      (fisherYates (shuffleChoices Config.block e len.toNat s) 0 old)[i]? = old[(words.getD i 0).toNat]?

/-- R267, R268 (b) to (d): `SAMPLE.e n, k` within bounds on a constructed engine completes with `min(n, k)` result words, all
different and below `n`; for `n <= k` they are all of 0 to `n - 1`; and but for engine `e`, `RES` and the response
nothing changes. -/
def Obligations.SampleAnswersDistinctPositions : Prop :=
  ∀ (e : Engine) (n k : Word) (s : State), s.constructed e = true →
    n.toNat < 2 ^ 63 → k.toNat < 2 ^ 63 → min n.toNat k.toNat ≤ kmax Config.block →
    ∃ count m words, exec (.sample e n k) s = .next { drawTimes Config.block e count s with
        res := m, response := some ⟨0, words⟩ } ∧
      words = (List.range (min n.toNat k.toNat)).map m.read ∧
      words.length = min n.toNat k.toNat ∧ words.Nodup ∧ (∀ w ∈ words, w.toNat < n.toNat) ∧
      (n.toNat ≤ k.toNat → (words.map BitVec.toNat).Perm (List.range n.toNat))

/-- R266: for `1 <= k < n` the words `SAMPLE.e n, k` answers are the reservoir that Algorithm L leaves, written as
`algorithmL` on a list of positions, with no index RAM: the order of the draws, the 1-based element number that never wraps,
and the last element admitted. -/
def Obligations.SampleFollowsAlgorithmL : Prop :=
  ∀ (e : Engine) (n k : Word) (s : State), s.constructed e = true →
    0 < k.toNat → k.toNat < n.toNat → n.toNat < 2 ^ 63 → k.toNat ≤ kmax Config.block →
    ∃ t words, exec (.sample e n k) s = .next t ∧ t.response = some ⟨0, words⟩ ∧
      let c := Config.block
      let raw := rawDraw c e s
      words.map BitVec.toNat =
        algorithmL c e n.toNat k.toNat raw (n.toNat - k.toNat + 1) 1 k.toNat
          (numWstep c (numUnit c (outputWidth e) (raw 0)) k.toNat) (List.range k.toNat)

/-- R270: `SAMPLEWR.e n, k` within bounds on a constructed engine completes with exactly `k` result words: for `n > 0` the
offsets of `k` successive draws, each below `n`; for `n = 0` `k` zeros with no draw; and but for engine `e`, `RES` and the
response nothing changes. -/
def Obligations.SamplewrAnswersOneRangedDrawPerWord : Prop :=
  ∀ (e : Engine) (n k : Word) (s : State), s.constructed e = true →
    n.toNat < 2 ^ 63 → k.toNat ≤ kmax Config.block →
    (n ≠ 0 → ∃ m words, exec (.samplewr e n k) s = .next { drawTimes Config.block e k.toNat s with
        res := m, response := some ⟨0, words⟩ } ∧
      words = (outputs Config.block e k.toNat s).map (fun raw => rangeMap Config.block (outputWidth e) raw n) ∧
      words = (List.range k.toNat).map m.read ∧ words.length = k.toNat ∧ ∀ w ∈ words, w.toNat < n.toNat) ∧
    (n = 0 → ∃ m, exec (.samplewr e n k) s = .next { s with
        res := m, response := some ⟨0, List.replicate k.toNat 0⟩ } ∧
      List.replicate k.toNat 0 = (List.range k.toNat).map m.read)

/-- R271: how many draws each successful `SMP` command makes, which is how many steps engine `e` advances; for `1 <= k < n`
it is `2 + 3r`, where `r` is the number of elements Algorithm L overwrites. One that ends with an error, for want of
construction or for an operand out of bounds, makes none. -/
def Obligations.SequenceCommandsMakeTheListedDraws : Prop :=
  ∀ (e : Engine) (s : State) (n k : Word),
    (s.constructed e = false → ∀ i ∈ [Instr.shuffle e n, .sample e n k, .samplewr e n k], ∀ t,
      exec i s = .next t → sameRegisters e s t) ∧
    (s.constructed e = true →
      (∀ t, exec (.shuffle e n) s = .next t →
        sameRegisters e (drawTimes Config.block e (if n.toNat ≤ kmax Config.block then n.toNat - 1 else 0) s) t) ∧
      (∀ t, exec (.sample e n k) s = .next t →
        (¬ inBounds Config.block (.sample e n k) → sameRegisters e s t) ∧
        (inBounds Config.block (.sample e n k) →
          ((k = 0 ∨ n = 0) → sameRegisters e s t) ∧
          (1 ≤ n.toNat → n.toNat ≤ k.toNat → sameRegisters e (drawTimes Config.block e (n.toNat - 1) s) t) ∧
          (1 ≤ k.toNat → k.toNat < n.toNat →
            let c := Config.block
            let raw := rawDraw c e s
            let r := replacements c e n.toNat k.toNat raw (n.toNat - k.toNat + 1) 1 k.toNat
              (numWstep c (numUnit c (outputWidth e) (raw 0)) k.toNat)
            r ≤ n.toNat - k.toNat ∧ sameRegisters e (drawTimes c e (2 + 3 * r) s) t))) ∧
      (∀ t, exec (.samplewr e n k) s = .next t →
        sameRegisters e (drawTimes Config.block e
          (if n.toNat < 2 ^ 63 ∧ k.toNat ≤ kmax Config.block ∧ n ≠ 0 then k.toNat else 0) s) t))
end

