-- ==== Sys2Proof/Laws/Decode.lean ====
section
/-! SUPPORT. What the operand readers and the header fields can do, once each (spec/30_encoding.md R71, R76, R80). -/

namespace Sys2Proof

theorem operands0_ok {i j : Instr} {ws : List Word} (h : operands0 i ws = .ok j) : ws = [] ∧ j = i := by
  unfold operands0 at h; split at h <;> cases h; exact ⟨rfl, rfl⟩

theorem operands1_ok {f : Word → Instr} {j : Instr} {ws : List Word} (h : operands1 f ws = .ok j) :
    ∃ a, ws = [a] ∧ j = f a := by
  unfold operands1 at h; split at h <;> cases h; exact ⟨_, rfl, rfl⟩

theorem operands2_ok {f : Word → Word → Instr} {j : Instr} {ws : List Word} (h : operands2 f ws = .ok j) :
    ∃ a b, ws = [a, b] ∧ j = f a b := by
  unfold operands2 at h; split at h <;> cases h; exact ⟨_, _, rfl, rfl⟩

theorem operands3_ok {f : Word → Word → Word → Instr} {j : Instr} {ws : List Word}
    (h : operands3 f ws = .ok j) : ∃ a b c, ws = [a, b, c] ∧ j = f a b c := by
  unfold operands3 at h; split at h <;> cases h; exact ⟨_, _, _, rfl, rfl⟩

theorem operands4_ok {f : Word → Word → Word → Word → Instr} {j : Instr} {ws : List Word}
    (h : operands4 f ws = .ok j) : ∃ a b c d, ws = [a, b, c, d] ∧ j = f a b c d := by
  unfold operands4 at h; split at h <;> cases h; exact ⟨_, _, _, _, rfl, rfl⟩

theorem operands6_ok {f : Word → Word → Word → Word → Word → Word → Instr} {j : Instr} {ws : List Word}
    (h : operands6 f ws = .ok j) : ∃ a b c d e g, ws = [a, b, c, d, e, g] ∧ j = f a b c d e g := by
  unfold operands6 at h; split at h <;> cases h; exact ⟨_, _, _, _, _, _, rfl, rfl⟩

theorem operands0_error (i : Instr) (ws : List Word) :
    (∃ r, operands0 i ws = .error r) ↔ ws.length ≠ 0 := by
  unfold operands0; split <;> simp_all

theorem operands1_error (f : Word → Instr) (ws : List Word) :
    (∃ r, operands1 f ws = .error r) ↔ ws.length ≠ 1 := by
  unfold operands1; split <;> simp_all [List.length_eq_one_iff]

theorem operands2_error (f : Word → Word → Instr) (ws : List Word) :
    (∃ r, operands2 f ws = .error r) ↔ ws.length ≠ 2 := by
  unfold operands2; split <;> simp_all [List.length_eq_two]

theorem operands3_error (f : Word → Word → Word → Instr) (ws : List Word) :
    (∃ r, operands3 f ws = .error r) ↔ ws.length ≠ 3 := by
  unfold operands3; split <;> simp_all [List.length_eq_three]

theorem operands4_error (f : Word → Word → Word → Word → Instr) (ws : List Word) :
    (∃ r, operands4 f ws = .error r) ↔ ws.length ≠ 4 := by
  unfold operands4; rcases ws with _ | ⟨_, _ | ⟨_, _ | ⟨_, _ | ⟨_, _ | ⟨_, _⟩⟩⟩⟩⟩ <;> simp

theorem operands6_error (f : Word → Word → Word → Word → Word → Word → Instr) (ws : List Word) :
    (∃ r, operands6 f ws = .error r) ↔ ws.length ≠ 6 := by
  unfold operands6
  rcases ws with _ | ⟨_, _ | ⟨_, _ | ⟨_, _ | ⟨_, _ | ⟨_, _ | ⟨_, _ | ⟨_, _⟩⟩⟩⟩⟩⟩⟩ <;> simp

/-! ## Header fields as numbers (R71) -/

theorem Header.unit_eq (h : Header) : h.unit = h.toNat / 4096 := by
  have := h.isLt; simp [Header.unit, BitVec.extractLsb'_toNat, Nat.shiftRight_eq_div_pow]; omega

theorem Header.op_eq (h : Header) : h.op = h.toNat / 256 % 16 := by
  simp [Header.op, BitVec.extractLsb'_toNat, Nat.shiftRight_eq_div_pow]

theorem Header.rsv_eq (h : Header) : h.rsv = h.toNat / 8 % 32 := by
  simp [Header.rsv, BitVec.extractLsb'_toNat, Nat.shiftRight_eq_div_pow]

theorem Header.eng_eq (h : Header) : h.eng = h.toNat % 8 := by
  simp [Header.eng, BitVec.extractLsb'_toNat]

/-- A header is its four fields. -/
theorem Header.ext_fields {h g : Header} (h1 : h.unit = g.unit) (h2 : h.op = g.op) (h3 : h.rsv = g.rsv)
    (h4 : h.eng = g.eng) : h = g := by
  rw [Header.unit_eq, Header.unit_eq] at h1
  rw [Header.op_eq, Header.op_eq] at h2
  rw [Header.rsv_eq, Header.rsv_eq] at h3
  rw [Header.eng_eq, Header.eng_eq] at h4
  apply BitVec.eq_of_toNat_eq
  have := h.isLt; have := g.isLt
  omega

end Sys2Proof
end

