-- ==== Sys2Proof/Laws/State.lean ====
section
/-! SUPPORT. One lemma per field per update of State, true by rfl, so that no proof unfolds a record update; and the same for
`construct`, whose only field is `valid`. -/

namespace Sys2Proof.Machine

@[simp] theorem State.withLcg_lcg (s : State) (r : Lcg) : (s.withLcg r).lcg = r := rfl
@[simp] theorem State.withLcg_p32 (s : State) (r : Lcg) : (s.withLcg r).p32 = s.p32 := rfl
@[simp] theorem State.withLcg_p64 (s : State) (r : Lcg) : (s.withLcg r).p64 = s.p64 := rfl
@[simp] theorem State.withLcg_sm (s : State) (r : Lcg) : (s.withLcg r).sm = s.sm := rfl
@[simp] theorem State.withLcg_xo (s : State) (r : Lcg) : (s.withLcg r).xo = s.xo := rfl
@[simp] theorem State.withLcg_valid (s : State) (r : Lcg) : (s.withLcg r).valid = s.valid := rfl
@[simp] theorem State.withLcg_res (s : State) (r : Lcg) : (s.withLcg r).res = s.res := rfl
@[simp] theorem State.withLcg_inbox (s : State) (r : Lcg) : (s.withLcg r).inbox = s.inbox := rfl
@[simp] theorem State.withLcg_ent (s : State) (r : Lcg) : (s.withLcg r).ent = s.ent := rfl
@[simp] theorem State.withLcg_response (s : State) (r : Lcg) : (s.withLcg r).response = s.response := rfl

@[simp] theorem State.withPcg32_lcg (s : State) (r : Pcg32) : (s.withPcg32 r).lcg = s.lcg := rfl
@[simp] theorem State.withPcg32_p32 (s : State) (r : Pcg32) : (s.withPcg32 r).p32 = r := rfl
@[simp] theorem State.withPcg32_p64 (s : State) (r : Pcg32) : (s.withPcg32 r).p64 = s.p64 := rfl
@[simp] theorem State.withPcg32_sm (s : State) (r : Pcg32) : (s.withPcg32 r).sm = s.sm := rfl
@[simp] theorem State.withPcg32_xo (s : State) (r : Pcg32) : (s.withPcg32 r).xo = s.xo := rfl
@[simp] theorem State.withPcg32_valid (s : State) (r : Pcg32) : (s.withPcg32 r).valid = s.valid := rfl
@[simp] theorem State.withPcg32_res (s : State) (r : Pcg32) : (s.withPcg32 r).res = s.res := rfl
@[simp] theorem State.withPcg32_inbox (s : State) (r : Pcg32) : (s.withPcg32 r).inbox = s.inbox := rfl
@[simp] theorem State.withPcg32_ent (s : State) (r : Pcg32) : (s.withPcg32 r).ent = s.ent := rfl
@[simp] theorem State.withPcg32_response (s : State) (r : Pcg32) : (s.withPcg32 r).response = s.response := rfl

@[simp] theorem State.withPcg64_lcg (s : State) (r : Pcg64) : (s.withPcg64 r).lcg = s.lcg := rfl
@[simp] theorem State.withPcg64_p32 (s : State) (r : Pcg64) : (s.withPcg64 r).p32 = s.p32 := rfl
@[simp] theorem State.withPcg64_p64 (s : State) (r : Pcg64) : (s.withPcg64 r).p64 = r := rfl
@[simp] theorem State.withPcg64_sm (s : State) (r : Pcg64) : (s.withPcg64 r).sm = s.sm := rfl
@[simp] theorem State.withPcg64_xo (s : State) (r : Pcg64) : (s.withPcg64 r).xo = s.xo := rfl
@[simp] theorem State.withPcg64_valid (s : State) (r : Pcg64) : (s.withPcg64 r).valid = s.valid := rfl
@[simp] theorem State.withPcg64_res (s : State) (r : Pcg64) : (s.withPcg64 r).res = s.res := rfl
@[simp] theorem State.withPcg64_inbox (s : State) (r : Pcg64) : (s.withPcg64 r).inbox = s.inbox := rfl
@[simp] theorem State.withPcg64_ent (s : State) (r : Pcg64) : (s.withPcg64 r).ent = s.ent := rfl
@[simp] theorem State.withPcg64_response (s : State) (r : Pcg64) : (s.withPcg64 r).response = s.response := rfl

@[simp] theorem State.withSm_lcg (s : State) (v : Word) : (s.withSm v).lcg = s.lcg := rfl
@[simp] theorem State.withSm_p32 (s : State) (v : Word) : (s.withSm v).p32 = s.p32 := rfl
@[simp] theorem State.withSm_p64 (s : State) (v : Word) : (s.withSm v).p64 = s.p64 := rfl
@[simp] theorem State.withSm_sm (s : State) (v : Word) : (s.withSm v).sm = v := rfl
@[simp] theorem State.withSm_xo (s : State) (v : Word) : (s.withSm v).xo = s.xo := rfl
@[simp] theorem State.withSm_valid (s : State) (v : Word) : (s.withSm v).valid = s.valid := rfl
@[simp] theorem State.withSm_res (s : State) (v : Word) : (s.withSm v).res = s.res := rfl
@[simp] theorem State.withSm_inbox (s : State) (v : Word) : (s.withSm v).inbox = s.inbox := rfl
@[simp] theorem State.withSm_ent (s : State) (v : Word) : (s.withSm v).ent = s.ent := rfl
@[simp] theorem State.withSm_response (s : State) (v : Word) : (s.withSm v).response = s.response := rfl

@[simp] theorem State.withXo_lcg (s : State) (r : Xo) : (s.withXo r).lcg = s.lcg := rfl
@[simp] theorem State.withXo_p32 (s : State) (r : Xo) : (s.withXo r).p32 = s.p32 := rfl
@[simp] theorem State.withXo_p64 (s : State) (r : Xo) : (s.withXo r).p64 = s.p64 := rfl
@[simp] theorem State.withXo_sm (s : State) (r : Xo) : (s.withXo r).sm = s.sm := rfl
@[simp] theorem State.withXo_xo (s : State) (r : Xo) : (s.withXo r).xo = r := rfl
@[simp] theorem State.withXo_valid (s : State) (r : Xo) : (s.withXo r).valid = s.valid := rfl
@[simp] theorem State.withXo_res (s : State) (r : Xo) : (s.withXo r).res = s.res := rfl
@[simp] theorem State.withXo_inbox (s : State) (r : Xo) : (s.withXo r).inbox = s.inbox := rfl
@[simp] theorem State.withXo_ent (s : State) (r : Xo) : (s.withXo r).ent = s.ent := rfl
@[simp] theorem State.withXo_response (s : State) (r : Xo) : (s.withXo r).response = s.response := rfl

@[simp] theorem State.withValid_lcg (s : State) (f : Valid) : (s.withValid f).lcg = s.lcg := rfl
@[simp] theorem State.withValid_p32 (s : State) (f : Valid) : (s.withValid f).p32 = s.p32 := rfl
@[simp] theorem State.withValid_p64 (s : State) (f : Valid) : (s.withValid f).p64 = s.p64 := rfl
@[simp] theorem State.withValid_sm (s : State) (f : Valid) : (s.withValid f).sm = s.sm := rfl
@[simp] theorem State.withValid_xo (s : State) (f : Valid) : (s.withValid f).xo = s.xo := rfl
@[simp] theorem State.withValid_valid (s : State) (f : Valid) : (s.withValid f).valid = f := rfl
@[simp] theorem State.withValid_res (s : State) (f : Valid) : (s.withValid f).res = s.res := rfl
@[simp] theorem State.withValid_inbox (s : State) (f : Valid) : (s.withValid f).inbox = s.inbox := rfl
@[simp] theorem State.withValid_ent (s : State) (f : Valid) : (s.withValid f).ent = s.ent := rfl
@[simp] theorem State.withValid_response (s : State) (f : Valid) : (s.withValid f).response = s.response := rfl

@[simp] theorem State.withRes_lcg (s : State) (m : Memory) : (s.withRes m).lcg = s.lcg := rfl
@[simp] theorem State.withRes_p32 (s : State) (m : Memory) : (s.withRes m).p32 = s.p32 := rfl
@[simp] theorem State.withRes_p64 (s : State) (m : Memory) : (s.withRes m).p64 = s.p64 := rfl
@[simp] theorem State.withRes_sm (s : State) (m : Memory) : (s.withRes m).sm = s.sm := rfl
@[simp] theorem State.withRes_xo (s : State) (m : Memory) : (s.withRes m).xo = s.xo := rfl
@[simp] theorem State.withRes_valid (s : State) (m : Memory) : (s.withRes m).valid = s.valid := rfl
@[simp] theorem State.withRes_res (s : State) (m : Memory) : (s.withRes m).res = m := rfl
@[simp] theorem State.withRes_inbox (s : State) (m : Memory) : (s.withRes m).inbox = s.inbox := rfl
@[simp] theorem State.withRes_ent (s : State) (m : Memory) : (s.withRes m).ent = s.ent := rfl
@[simp] theorem State.withRes_response (s : State) (m : Memory) : (s.withRes m).response = s.response := rfl

@[simp] theorem State.withResponse_lcg (s : State) (r : Response) : (s.withResponse r).lcg = s.lcg := rfl
@[simp] theorem State.withResponse_p32 (s : State) (r : Response) : (s.withResponse r).p32 = s.p32 := rfl
@[simp] theorem State.withResponse_p64 (s : State) (r : Response) : (s.withResponse r).p64 = s.p64 := rfl
@[simp] theorem State.withResponse_sm (s : State) (r : Response) : (s.withResponse r).sm = s.sm := rfl
@[simp] theorem State.withResponse_xo (s : State) (r : Response) : (s.withResponse r).xo = s.xo := rfl
@[simp] theorem State.withResponse_valid (s : State) (r : Response) : (s.withResponse r).valid = s.valid := rfl
@[simp] theorem State.withResponse_res (s : State) (r : Response) : (s.withResponse r).res = s.res := rfl
@[simp] theorem State.withResponse_inbox (s : State) (r : Response) : (s.withResponse r).inbox = s.inbox := rfl
@[simp] theorem State.withResponse_ent (s : State) (r : Response) : (s.withResponse r).ent = s.ent := rfl
@[simp] theorem State.withResponse_response (s : State) (r : Response) : (s.withResponse r).response = some r := rfl

@[simp] theorem State.withInput_lcg (s : State) (rest : List Input) (e : Wide) :
    (s.withInput rest e).lcg = s.lcg := rfl
@[simp] theorem State.withInput_p32 (s : State) (rest : List Input) (e : Wide) :
    (s.withInput rest e).p32 = s.p32 := rfl
@[simp] theorem State.withInput_p64 (s : State) (rest : List Input) (e : Wide) :
    (s.withInput rest e).p64 = s.p64 := rfl
@[simp] theorem State.withInput_sm (s : State) (rest : List Input) (e : Wide) :
    (s.withInput rest e).sm = s.sm := rfl
@[simp] theorem State.withInput_xo (s : State) (rest : List Input) (e : Wide) :
    (s.withInput rest e).xo = s.xo := rfl
@[simp] theorem State.withInput_valid (s : State) (rest : List Input) (e : Wide) :
    (s.withInput rest e).valid = s.valid := rfl
@[simp] theorem State.withInput_res (s : State) (rest : List Input) (e : Wide) :
    (s.withInput rest e).res = s.res := rfl
@[simp] theorem State.withInput_inbox (s : State) (rest : List Input) (e : Wide) :
    (s.withInput rest e).inbox = rest := rfl
@[simp] theorem State.withInput_ent (s : State) (rest : List Input) (e : Wide) :
    (s.withInput rest e).ent = e := rfl
@[simp] theorem State.withInput_response (s : State) (rest : List Input) (e : Wide) :
    (s.withInput rest e).response = s.response := rfl

@[simp] theorem State.construct_lcg (s : State) (e : Engine) : (s.construct e).lcg = s.lcg := by
  cases e <;> rfl
@[simp] theorem State.construct_p32 (s : State) (e : Engine) : (s.construct e).p32 = s.p32 := by
  cases e <;> rfl
@[simp] theorem State.construct_p64 (s : State) (e : Engine) : (s.construct e).p64 = s.p64 := by
  cases e <;> rfl
@[simp] theorem State.construct_sm (s : State) (e : Engine) : (s.construct e).sm = s.sm := by
  cases e <;> rfl
@[simp] theorem State.construct_xo (s : State) (e : Engine) : (s.construct e).xo = s.xo := by
  cases e <;> rfl
@[simp] theorem State.construct_res (s : State) (e : Engine) : (s.construct e).res = s.res := by
  cases e <;> rfl
@[simp] theorem State.construct_inbox (s : State) (e : Engine) : (s.construct e).inbox = s.inbox := by
  cases e <;> rfl
@[simp] theorem State.construct_ent (s : State) (e : Engine) : (s.construct e).ent = s.ent := by
  cases e <;> rfl
@[simp] theorem State.construct_response (s : State) (e : Engine) : (s.construct e).response = s.response := by
  cases e <;> rfl

/-- Construction sets the flag of its engine and no other (R29). -/
@[simp] theorem State.construct_constructed (s : State) (e d : Engine) :
    (s.construct e).constructed d = (if d = e then true else s.constructed d) := by
  cases e <;> cases d <;> rfl

@[simp] theorem State.withResponse_constructed (s : State) (r : Response) (e : Engine) :
    (s.withResponse r).constructed e = s.constructed e := by cases e <;> rfl

@[simp] theorem State.withRes_constructed (s : State) (m : Memory) (e : Engine) :
    (s.withRes m).constructed e = s.constructed e := by cases e <;> rfl

/-- Nothing is constructed after reset (R35). -/
@[simp] theorem State.reset_constructed (e : Engine) : State.reset.constructed e = false := by cases e <;> rfl

@[simp] theorem State.withRes_withRes (s : State) (m n : Memory) : (s.withRes m).withRes n = s.withRes n := rfl

@[simp] theorem State.withResponse_withResponse (s : State) (r q : Response) :
    (s.withResponse r).withResponse q = s.withResponse q := rfl

@[simp] theorem State.withRes_self (s : State) : s.withRes s.res = s := rfl

end Sys2Proof.Machine
end

