-- ==== Sys2Proof/Laws/Memory.lean ====
section
/-! SUPPORT. The laws of the index RAM: a read after a write, and that every operation keeps the canonical form
(spec/20_memory.md R50). -/

namespace Sys2Proof.Machine

theorem Memory.read_insert (m : Memory) (j k : Nat) (v : Word) (h : ∀ x ∈ m, x.1 ≠ j) :
    (Memory.insert m j v).read k = if k = j then v else m.read k := by
  induction m with
  | nil => by_cases hk : j = k <;> simp [Memory.insert, Memory.read, hk, eq_comm]
  | cons x m ih =>
    obtain ⟨a, w⟩ := x
    have ha : a ≠ j := h (a, w) (by simp)
    have ih := ih fun y hy => h y (by simp [hy])
    by_cases hja : j < a
    · simp only [Memory.insert, hja, if_true, Memory.read]
      by_cases hk : j = k <;> simp [hk, eq_comm]
    · by_cases hak : a = k
      · subst hak; simp [Memory.insert, Memory.read, hja, ha]
      · simp [Memory.insert, Memory.read, hja, hak, ih]

theorem Memory.read_filter (m : Memory) (j k : Nat) :
    Memory.read (m.filter fun x => x.1 != j) k = if k = j then Memory.unlisted else m.read k := by
  induction m with
  | nil => simp [Memory.read]
  | cons x m ih =>
    obtain ⟨a, w⟩ := x
    by_cases haj : a = j
    · subst haj
      by_cases hk : k = a
      · subst hk; simpa using ih
      · have : a ≠ k := fun h => hk h.symm
        simp [ih, hk, Memory.read, this]
    · by_cases hak : a = k
      · subst hak; simp [haj, Memory.read]
      · simp [haj, Memory.read, hak, ih]

/-- A read after a write gives the value written, and a write leaves every other entry alone (R50). -/
@[simp] theorem Memory.read_write (m : Memory) (j k : Nat) (v : Word) :
    (m.write j v).read k = if k = j then v else m.read k := by
  have hne : ∀ x ∈ m.filter (fun x => x.1 != j), x.1 ≠ j := by simp
  by_cases hv : v = Memory.unlisted
  · subst hv; simp [Memory.write, Memory.read_filter]
  · simp only [Memory.write, hv, if_false, Memory.read_insert _ _ _ _ hne, Memory.read_filter]
    split <;> simp_all

theorem Memory.mem_insert (m : Memory) (j : Nat) (v : Word) (x : Nat × Word) :
    x ∈ Memory.insert m j v ↔ x = (j, v) ∨ x ∈ m := by
  induction m with
  | nil => simp [Memory.insert]
  | cons y m ih =>
    by_cases h : j < y.1
    · simp [Memory.insert, h]
    · simp only [Memory.insert, h, if_false, List.mem_cons, ih]; tauto

/-- The pairs of a memory after a write. -/
theorem Memory.mem_write {m : Memory} {j : Nat} {v : Word} {x : Nat × Word} (h : x ∈ m.write j v) :
    (x = (j, v) ∧ v ≠ Memory.unlisted) ∨ (x ∈ m ∧ x.1 ≠ j) := by
  by_cases hv : v = Memory.unlisted
  · simp [Memory.write, hv] at h; exact .inr h
  · simp only [Memory.write, hv, if_false, Memory.mem_insert, List.mem_filter] at h
    simpa [hv] using h

theorem Memory.insert_sorted (m : Memory) (j : Nat) (v : Word)
    (hs : m.Pairwise fun x y => x.1 < y.1) (h : ∀ x ∈ m, x.1 ≠ j) :
    (Memory.insert m j v).Pairwise fun x y => x.1 < y.1 := by
  induction m with
  | nil => simp [Memory.insert]
  | cons x m ih =>
    obtain ⟨hx, hm⟩ := List.pairwise_cons.1 hs
    by_cases hj : j < x.1
    · simp only [Memory.insert, hj, if_true]
      refine List.pairwise_cons.2 ⟨fun y hy => ?_, hs⟩
      rcases List.mem_cons.1 hy with rfl | hy
      · exact hj
      · exact hj.trans (hx y hy)
    · simp only [Memory.insert, hj, if_false]
      refine List.pairwise_cons.2 ⟨fun y hy => ?_, ih hm fun y hy => h y (by simp [hy])⟩
      rcases (Memory.mem_insert m j v y).1 hy with rfl | hy
      · have := h x (by simp); simp only; omega
      · exact hx y hy

/-- A write keeps the canonical form. -/
theorem Memory.wf_write {m : Memory} (j : Nat) (v : Word) (h : Memory.wf m) : Memory.wf (m.write j v) := by
  have hs : (m.filter fun x => x.1 != j).Pairwise fun x y => x.1 < y.1 := h.1.filter _
  refine ⟨?_, fun x hx => ?_⟩
  · by_cases hv : v = Memory.unlisted
    · simpa [Memory.write, hv] using hs
    · simpa [Memory.write, hv] using Memory.insert_sorted _ j v hs (by simp)
  · rcases Memory.mem_write hx with ⟨rfl, hv⟩ | ⟨hx, -⟩
    · exact hv
    · exact h.2 x hx

/-- A write below a bound keeps the entry numbers below it. -/
theorem Memory.below_write {m : Memory} {bound j : Nat} (v : Word) (h : Memory.below bound m) (hj : j < bound) :
    Memory.below bound (m.write j v) := by
  intro x hx
  rcases Memory.mem_write hx with ⟨rfl, -⟩ | ⟨hx, -⟩
  · exact hj
  · exact h x hx

theorem Memory.read_of_lt {m : Memory} {k : Nat} (h : ∀ x ∈ m, k < x.1) : m.read k = Memory.unlisted := by
  induction m with
  | nil => rfl
  | cons x m ih =>
    have hx := h x (by simp)
    have : x.1 ≠ k := by omega
    simp [Memory.read, this, ih fun y hy => h y (by simp [hy])]

/-- Equal memories are equal data: two canonical memories that read alike are one list. -/
theorem Memory.eq_of_read {m n : Memory} (hm : Memory.wf m) (hn : Memory.wf n) (h : ∀ j, m.read j = n.read j) :
    m = n := by
  induction m generalizing n with
  | nil =>
    cases n with
    | nil => rfl
    | cons y n => exact absurd (by simpa [Memory.read] using (h y.1).symm) (hn.2 y (by simp))
  | cons x m ih =>
    cases n with
    | nil => exact absurd (by simpa [Memory.read] using h x.1) (hm.2 x (by simp))
    | cons y n =>
      obtain ⟨hx, hms⟩ := List.pairwise_cons.1 hm.1
      obtain ⟨hy, hns⟩ := List.pairwise_cons.1 hn.1
      have hkey : x.1 = y.1 := by
        rcases Nat.lt_trichotomy x.1 y.1 with hlt | heq | hlt
        · have h1 := h x.1
          rw [Memory.read_of_lt (m := y :: n) (by
            intro z hz; rcases List.mem_cons.1 hz with rfl | hz
            · exact hlt
            · exact hlt.trans (hy z hz))] at h1
          exact absurd (by simpa [Memory.read] using h1) (hm.2 x (by simp))
        · exact heq
        · have h1 := h y.1
          rw [Memory.read_of_lt (m := x :: m) (by
            intro z hz; rcases List.mem_cons.1 hz with rfl | hz
            · exact hlt
            · exact hlt.trans (hx z hz))] at h1
          exact absurd (by simpa [Memory.read] using h1.symm) (hn.2 y (by simp))
      have hval : x.2 = y.2 := by simpa [Memory.read, hkey] using h x.1
      have htail : m = n := by
        refine ih ⟨hms, fun z hz => hm.2 z (by simp [hz])⟩ ⟨hns, fun z hz => hn.2 z (by simp [hz])⟩ fun j => ?_
        by_cases hj : x.1 = j
        · rw [Memory.read_of_lt fun z hz => hj ▸ hx z hz, Memory.read_of_lt fun z hz => (hj ▸ hkey) ▸ hy z hz]
        · have hj' : y.1 ≠ j := hkey ▸ hj
          simpa [Memory.read, hj, hj'] using h j
      rw [htail, Prod.ext hkey hval]

/-- The memory after reset is canonical. -/
theorem Memory.reset_wf : Memory.wf State.reset.res := by simp [Memory.wf, State.reset]

end Sys2Proof.Machine
end

