-- ==== Sys2Proof/Laws/Draw.lean ====
section
/-! SUPPORT. What a draw and the helpers over it can do: spec/41_contract.md R126, R130, R131, R135, R141. -/

namespace Sys2Proof.Machine

/-! ## Draws -/

/-- A draw changes only its own engine's registers (R26, R126). -/
theorem draw_sameRegisters (c : Config) (e d : Engine) (s : State) (h : d ≠ e) :
    sameRegisters d s (draw c e s).2 := by
  cases e <;> cases d <;> first | rfl | exact absurd rfl h

@[simp] theorem draw_valid (c : Config) (e : Engine) (s : State) : (draw c e s).2.valid = s.valid := by
  cases e <;> rfl

@[simp] theorem draw_res (c : Config) (e : Engine) (s : State) : (draw c e s).2.res = s.res := by
  cases e <;> rfl

@[simp] theorem draw_inbox (c : Config) (e : Engine) (s : State) : (draw c e s).2.inbox = s.inbox := by
  cases e <;> rfl

@[simp] theorem draw_ent (c : Config) (e : Engine) (s : State) : (draw c e s).2.ent = s.ent := by
  cases e <;> rfl

@[simp] theorem draw_response (c : Config) (e : Engine) (s : State) :
    (draw c e s).2.response = s.response := by
  cases e <;> rfl

/-- The value of a draw does not depend on `RES`. -/
@[simp] theorem draw_withRes_fst (c : Config) (e : Engine) (s : State) (m : Memory) :
    (draw c e (s.withRes m)).1 = (draw c e s).1 := by
  cases e <;> rfl

@[simp] theorem draw_withRes_snd (c : Config) (e : Engine) (s : State) (m : Memory) :
    (draw c e (s.withRes m)).2 = (draw c e s).2.withRes m := by
  cases e <;> rfl

/-- A draw depends on its own engine's registers only (R57 a). -/
theorem draw_congr (c : Config) (e : Engine) (s t : State) (h : sameRegisters e s t) :
    (draw c e s).1 = (draw c e t).1 ∧ sameRegisters e (draw c e s).2 (draw c e t).2 := by
  cases e <;> simp_all [sameRegisters, draw]

@[simp] theorem drawTimes_zero (c : Config) (e : Engine) (s : State) : drawTimes c e 0 s = s := rfl

theorem drawTimes_succ (c : Config) (e : Engine) (n : Nat) (s : State) :
    drawTimes c e (n + 1) s = drawTimes c e n (draw c e s).2 := rfl

theorem drawTimes_add (c : Config) (e : Engine) (m n : Nat) (s : State) :
    drawTimes c e (m + n) s = drawTimes c e n (drawTimes c e m s) := by
  induction m generalizing s with
  | zero => simp
  | succ m ih => rw [Nat.succ_add, drawTimes_succ, ih, drawTimes_succ]

@[simp] theorem drawTimes_valid (c : Config) (e : Engine) (n : Nat) (s : State) :
    (drawTimes c e n s).valid = s.valid := by
  induction n generalizing s with
  | zero => rfl
  | succ n ih => rw [drawTimes_succ, ih, draw_valid]

@[simp] theorem drawTimes_res (c : Config) (e : Engine) (n : Nat) (s : State) :
    (drawTimes c e n s).res = s.res := by
  induction n generalizing s with
  | zero => rfl
  | succ n ih => rw [drawTimes_succ, ih, draw_res]

@[simp] theorem drawTimes_inbox (c : Config) (e : Engine) (n : Nat) (s : State) :
    (drawTimes c e n s).inbox = s.inbox := by
  induction n generalizing s with
  | zero => rfl
  | succ n ih => rw [drawTimes_succ, ih, draw_inbox]

@[simp] theorem drawTimes_ent (c : Config) (e : Engine) (n : Nat) (s : State) :
    (drawTimes c e n s).ent = s.ent := by
  induction n generalizing s with
  | zero => rfl
  | succ n ih => rw [drawTimes_succ, ih, draw_ent]

@[simp] theorem drawTimes_response (c : Config) (e : Engine) (n : Nat) (s : State) :
    (drawTimes c e n s).response = s.response := by
  induction n generalizing s with
  | zero => rfl
  | succ n ih => rw [drawTimes_succ, ih, draw_response]

@[simp] theorem drawTimes_withRes (c : Config) (e : Engine) (n : Nat) (s : State) (m : Memory) :
    drawTimes c e n (s.withRes m) = (drawTimes c e n s).withRes m := by
  induction n generalizing s with
  | zero => rfl
  | succ n ih => rw [drawTimes_succ, draw_withRes_snd, ih, drawTimes_succ]

theorem sameRegisters_trans {e : Engine} {s t u : State} (h : sameRegisters e s t) (k : sameRegisters e t u) :
    sameRegisters e s u := by
  cases e <;> exact Eq.trans h k

theorem sameRegisters_symm {e : Engine} {s t : State} (h : sameRegisters e s t) : sameRegisters e t s := by
  cases e <;> exact Eq.symm h

@[simp] theorem sameRegisters_refl (e : Engine) (s : State) : sameRegisters e s s := by cases e <;> rfl

@[simp] theorem sameRegisters_withRes (e : Engine) (s t : State) (m : Memory) :
    sameRegisters e s (t.withRes m) ↔ sameRegisters e s t := by cases e <;> rfl

@[simp] theorem sameRegisters_withResponse (e : Engine) (s t : State) (r : Response) :
    sameRegisters e s (t.withResponse r) ↔ sameRegisters e s t := by cases e <;> rfl

/-- Draws change only their own engine's registers (R26). -/
theorem drawTimes_sameRegisters (c : Config) (e d : Engine) (n : Nat) (s : State) (h : d ≠ e) :
    sameRegisters d s (drawTimes c e n s) := by
  induction n generalizing s with
  | zero => simp
  | succ n ih => exact sameRegisters_trans (draw_sameRegisters c e d s h) (ih _)

theorem drawTimes_congr (c : Config) (e : Engine) (n : Nat) (s t : State) (h : sameRegisters e s t) :
    sameRegisters e (drawTimes c e n s) (drawTimes c e n t) := by
  induction n generalizing s t with
  | zero => exact h
  | succ n ih => exact ih _ _ (draw_congr c e s t h).2

theorem outputs_congr (c : Config) (e : Engine) (n : Nat) (s t : State) (h : sameRegisters e s t) :
    outputs c e n s = outputs c e n t := by
  induction n generalizing s t with
  | zero => rfl
  | succ n ih => simp [outputs, (draw_congr c e s t h).1, ih _ _ (draw_congr c e s t h).2]

@[simp] theorem outputs_length (c : Config) (e : Engine) (n : Nat) (s : State) :
    (outputs c e n s).length = n := by
  induction n generalizing s with
  | zero => rfl
  | succ n ih => simp [outputs, ih]

/-- Draws never change a parameter register: they are "immutable ... fixed at construction" (R27). -/
theorem draw_parameters (c : Config) (e : Engine) (s : State) :
    (draw c e s).2.lcg = { s.lcg with state := (draw c e s).2.lcg.state } ∧
    (draw c e s).2.p32 = { s.p32 with state := (draw c e s).2.p32.state } ∧
    (draw c e s).2.p64 = { s.p64 with state := (draw c e s).2.p64.state } := by
  cases e <;> exact ⟨rfl, rfl, rfl⟩

theorem drawTimes_parameters (c : Config) (e : Engine) (n : Nat) (s : State) :
    (drawTimes c e n s).lcg = { s.lcg with state := (drawTimes c e n s).lcg.state } ∧
    (drawTimes c e n s).p32 = { s.p32 with state := (drawTimes c e n s).p32.state } ∧
    (drawTimes c e n s).p64 = { s.p64 with state := (drawTimes c e n s).p64.state } := by
  induction n generalizing s with
  | zero => exact ⟨rfl, rfl, rfl⟩
  | succ n ih =>
    obtain ⟨a, b, d⟩ := ih (draw c e s).2
    obtain ⟨a', b', d'⟩ := draw_parameters c e s
    rw [drawTimes_succ]
    exact ⟨by rw [a, a'], by rw [b, b'], by rw [d, d']⟩

/-! ## RANGE_MAP and Ranged -/

/-- `RANGE_MAP` keeps below its span (R131). -/
theorem rangeMap_lt (c : Config) (width : Nat) (raw span : Word) (h : span ≠ 0) :
    (rangeMap c width raw span).toNat < span.toNat := by
  have hs : 0 < span.toNat := Nat.pos_of_ne_zero fun h0 => h (by simpa using BitVec.eq_of_toNat_eq h0)
  have hlt := Nat.mod_lt (c.rangeMapRaw width raw span) hs
  rw [rangeMap, BitVec.toNat_ofNat, Nat.mod_eq_of_lt (hlt.trans span.isLt)]
  exact hlt

/-- `Ranged_e(a, b)` with `a >= b` answers `a` and makes no draw (R130). -/
theorem ranged_of_ge (c : Config) (e : Engine) (a b : Word) (s : State) (h : b.toInt ≤ a.toInt) :
    ranged c e a b s = (a, s) := by
  simp [ranged, s64, h]

/-- `Ranged_e(a, b)` with `a < b` makes one draw (R130). -/
theorem ranged_of_lt (c : Config) (e : Engine) (a b : Word) (s : State) (h : a.toInt < b.toInt) :
    ranged c e a b s = (a + rangeMap c (outputWidth e) (draw c e s).1 (b - a), (draw c e s).2) := by
  simp [ranged, s64, Int.not_le.2 h]

theorem toInt_of_lt_half {v : Word} (h : v.toNat < 2 ^ 63) : v.toInt = v.toNat := by
  rw [BitVec.toInt_eq_toNat_cond]; split <;> omega

/-- `Ranged_e(i, len)` with `i < len < 2^63`, as `SHUFFLE` uses it (R261, R262): one draw, a position of [i, len). -/
theorem ranged_position (c : Config) (e : Engine) (len i : Nat) (s : State) (hi : i < len) (hl : len < 2 ^ 63) :
    ranged c e (BitVec.ofNat 64 i) (BitVec.ofNat 64 len) s =
      (BitVec.ofNat 64 (choice c e len i (draw c e s).1), (draw c e s).2) ∧
    i ≤ choice c e len i (draw c e s).1 ∧ choice c e len i (draw c e s).1 < len := by
  have h1 : (BitVec.ofNat 64 i).toNat = i := by simp; omega
  have h2 : (BitVec.ofNat 64 len).toNat = len := by simp; omega
  have hsub : BitVec.ofNat 64 len - BitVec.ofNat 64 i = BitVec.ofNat 64 (len - i) := by
    apply BitVec.eq_of_toNat_eq; rw [BitVec.toNat_sub, h1, h2, BitVec.toNat_ofNat]; omega
  have h3 : (BitVec.ofNat 64 (len - i)).toNat = len - i := by simp; omega
  have hne : BitVec.ofNat 64 (len - i) ≠ (0 : Word) := fun h0 => by
    have := congrArg BitVec.toNat h0; rw [h3] at this; simp at this; omega
  have hlt := rangeMap_lt c (outputWidth e) (draw c e s).1 _ hne
  rw [h3] at hlt
  refine ⟨?_, by unfold choice; omega, by unfold choice; omega⟩
  rw [ranged_of_lt _ _ _ _ _ (by
    rw [toInt_of_lt_half (by omega), toInt_of_lt_half (by omega), h1, h2]; omega), hsub]
  refine Prod.ext ?_ rfl
  apply BitVec.eq_of_toNat_eq
  simp only [choice, BitVec.toNat_add, BitVec.toNat_ofNat]
  omega

/-! ## NUM -/

/-- `NUM.unit` answers a finite value strictly between 0 and 1 (R135). -/
theorem numUnit_bounds (c : Config) (width : Nat) (raw : Word) :
    0 < (numUnit c width raw).toNat ∧ (numUnit c width raw).toNat < f64One.toNat := by
  have h := Nat.mod_lt (c.unitRaw width raw) (show 0 < f64One.toNat - 1 by decide)
  have h1 : f64One.toNat = 4607182418800017408 := by decide
  rw [numUnit, BitVec.toNat_ofNat]
  omega

/-- `Real_e()` makes one draw (R141). -/
theorem realDraw_eq (c : Config) (e : Engine) (s : State) :
    realDraw c e s = (numUnit c (outputWidth e) (draw c e s).1, (draw c e s).2) := rfl

/-- `KMAX` is at least 1 and below 2^63 (R9). -/
theorem kmax_bounds (c : Config) : 1 ≤ kmax c ∧ kmax c < 2 ^ 63 := by
  have := c.kmaxPred.isLt
  unfold kmax; omega

end Sys2Proof.Machine
end

