-- ==== Sys2Proof/Laws/Sequence.lean ====
section
/-! SUPPORT. What the procedures of the sequence controller can do, once each (spec/46_shuffle_sample.md): the state they leave
is some draws of engine `e` and a new index RAM, and the first entries of that RAM are what the same procedure makes of a
list, with no RAM. -/

namespace Sys2Proof.Machine

/-! ## The entries of the index RAM -/

/-- `m'` comes from `m` by writes to entries below `count` only, with `count` at most KMAX. -/
structure Memory.WritesBelow (c : Config) (count : Nat) (m m' : Memory) : Prop where
  wf : Memory.wf m → Memory.wf m'
  below : Memory.below (kmax c) m → Memory.below (kmax c) m'
  outside : ∀ j, count ≤ j → m'.read j = m.read j

theorem Memory.WritesBelow.refl (c : Config) (count : Nat) (m : Memory) : Memory.WritesBelow c count m m :=
  ⟨id, id, fun _ _ => rfl⟩

theorem Memory.WritesBelow.trans {c : Config} {count : Nat} {m m' m'' : Memory}
    (h : Memory.WritesBelow c count m m') (k : Memory.WritesBelow c count m' m'') :
    Memory.WritesBelow c count m m'' :=
  ⟨fun a => k.wf (h.wf a), fun a => k.below (h.below a), fun j hj => (k.outside j hj).trans (h.outside j hj)⟩

theorem Memory.WritesBelow.mono {c : Config} {count more : Nat} {m m' : Memory}
    (h : Memory.WritesBelow c count m m') (hle : count ≤ more) : Memory.WritesBelow c more m m' :=
  ⟨h.wf, h.below, fun j hj => h.outside j (hle.trans hj)⟩

theorem Memory.WritesBelow.write {c : Config} {count : Nat} (m : Memory) (j : Nat) (v : Word)
    (hj : j < count) (hc : count ≤ kmax c) : Memory.WritesBelow c count m (m.write j v) :=
  ⟨Memory.wf_write j v, fun h => Memory.below_write v h (hj.trans_le hc), fun i hi => by
    rw [Memory.read_write, if_neg (by omega)]⟩

/-- The first `count` entries, as numbers. -/
def Memory.entries (m : Memory) (count : Nat) : List Nat := (List.range count).map fun j => (m.read j).toNat

@[simp] theorem Memory.entries_length (m : Memory) (count : Nat) : (m.entries count).length = count := by
  simp [Memory.entries]

theorem Memory.entries_get (m : Memory) (count i : Nat) :
    (m.entries count)[i]? = if i < count then some (m.read i).toNat else none := by
  simp only [Memory.entries, List.getElem?_map]
  split <;> simp_all

theorem Memory.entries_write (m : Memory) (count j : Nat) (v : Word) :
    (m.write j v).entries count = (m.entries count).set j v.toNat := by
  apply List.ext_getElem?
  intro i
  simp only [Memory.entries_get, List.getElem?_set, Memory.read_write, Memory.entries_length]
  by_cases hi : i < count <;> by_cases hj : j = i <;> simp_all [eq_comm]

/-! ## Reading and filling -/

theorem resRead_of_lt {c : Config} {j : Nat} (s : State) (h : j < kmax c) : resRead c j s = .ok (s.res.read j) := by
  simp [resRead, h]

theorem resWrite_of_lt {c : Config} {j : Nat} (v : Word) (s : State) (h : j < kmax c) :
    resWrite c j v s = .ok (s.withRes (s.res.write j v)) := by
  simp [resWrite, h]

/-- Reading entries in range answers them and changes nothing. -/
theorem readFrom_eq (c : Config) (first count : Nat) (s : State) (h : first + count ≤ kmax c) :
    readFrom c first count s = .ok ((List.range' first count).map s.res.read) := by
  induction count generalizing first with
  | zero => rfl
  | succ n ih =>
    simp only [readFrom, resRead_of_lt s (show first < kmax c by omega), ih (first + 1) (by omega)]
    rfl

theorem readFrom_zero (c : Config) (count : Nat) (s : State) (h : count ≤ kmax c) :
    ∃ words, readFrom c 0 count s = .ok words ∧ words = (List.range count).map s.res.read ∧
      words.map BitVec.toNat = s.res.entries count := by
  refine ⟨_, readFrom_eq c 0 count s (by omega), by rw [List.range_eq_range'], ?_⟩
  simp [Memory.entries, List.range_eq_range', Function.comp_def]

/-- The identity permutation written to the first entries (R263, R266). -/
theorem fillIdentity_eq (c : Config) (count : Nat) (s : State) (h : count ≤ kmax c) :
    ∃ m, fillIdentity c count s = .ok (s.withRes m) ∧ Memory.WritesBelow c count s.res m ∧
      ∀ j, j < count → m.read j = BitVec.ofNat 64 j := by
  induction count with
  | zero => exact ⟨s.res, rfl, .refl .., by simp⟩
  | succ n ih =>
    obtain ⟨m, hm, hw, hr⟩ := ih (by omega)
    refine ⟨m.write n (BitVec.ofNat 64 n), ?_, ?_, fun j hj => ?_⟩
    · simp only [fillIdentity, hm]
      exact resWrite_of_lt _ (s.withRes m) (by omega)
    · exact (hw.mono (by omega)).trans (.write m n _ (by omega) h)
    · rw [Memory.read_write]
      split
      · simp_all
      · exact hr j (by omega)

theorem fillIdentity_entries (c : Config) (count : Nat) (s : State) (h : count ≤ kmax c) :
    ∃ m, fillIdentity c count s = .ok (s.withRes m) ∧ Memory.WritesBelow c count s.res m ∧
      m.entries count = List.range count := by
  obtain ⟨m, hm, hw, hr⟩ := fillIdentity_eq c count s h
  refine ⟨m, hm, hw, ?_⟩
  apply List.ext_getElem?
  intro i
  have hk := (kmax_bounds c).2
  rw [Memory.entries_get]
  by_cases hi : i < count
  · simp [hi, hr i hi, Nat.mod_eq_of_lt (show i < 18446744073709551616 by omega)]
  · simp [hi]

/-! ## SHUFFLE -/

/-- One turn of the shuffle exchanges the entries `i` and the one drawn (R262). -/
theorem shuffleTurn_eq (c : Config) (e : Engine) (len i : Nat) (s : State) (hi : i < len) (hl : len ≤ kmax c) :
    ∃ m, shuffleTurn c e len i s = .ok ((draw c e s).2.withRes m) ∧ Memory.WritesBelow c len s.res m ∧
      m.entries len = swapEntries (s.res.entries len) i (choice c e len i (draw c e s).1) := by
  have hk := (kmax_bounds c).2
  obtain ⟨hr, h1, h2⟩ := ranged_position c e len i s hi (by omega)
  generalize hj : choice c e len i (draw c e s).1 = j at *
  have hjn : (BitVec.ofNat 64 j).toNat = j := by simp; omega
  refine ⟨(s.res.write i (s.res.read j)).write j (s.res.read i), ?_, ?_, ?_⟩
  · simp only [shuffleTurn, hr, hjn, resRead_of_lt (c := c) (j := i) _ (by omega),
      resRead_of_lt (c := c) (j := j) _ (by omega)]
    show (do
      let s1 ← resWrite c i _ _
      resWrite c j _ s1) = _
    rw [resWrite_of_lt _ _ (show i < kmax c by omega)]
    show resWrite c j _ _ = _
    rw [resWrite_of_lt _ _ (show j < kmax c by omega)]
    simp
  · exact (Memory.WritesBelow.write _ i _ hi hl).trans (.write _ j _ h2 hl)
  · have hgi := Memory.entries_get s.res len i
    have hgj := Memory.entries_get s.res len j
    rw [if_pos hi] at hgi
    rw [if_pos h2] at hgj
    simp only [swapEntries, hgi, hgj, Memory.entries_write]

/-- The loop of R262 is the document's Fisher-Yates loop on the entries, with one draw a turn. -/
theorem shuffleTurns_eq (c : Config) (e : Engine) (len turns i : Nat) (s : State) (hi : i + turns ≤ len)
    (hl : len ≤ kmax c) :
    ∃ m, shuffleTurns c e len i turns s = .ok ((drawTimes c e turns s).withRes m) ∧
      Memory.WritesBelow c len s.res m ∧
      m.entries len = fisherYates (((outputs c e turns s).zipIdx i).map fun x => choice c e len x.2 x.1) i
        (s.res.entries len) := by
  induction turns generalizing i s with
  | zero => exact ⟨s.res, rfl, .refl .., rfl⟩
  | succ n ih =>
    obtain ⟨m, hm, hw, he⟩ := shuffleTurn_eq c e len i s (by omega) hl
    obtain ⟨m', hm', hw', he'⟩ := ih (i + 1) ((draw c e s).2.withRes m) (by omega)
    refine ⟨m', ?_, hw.trans hw', ?_⟩
    · simp only [shuffleTurns, hm]
      exact hm'.trans (by simp [drawTimes_succ])
    · have ho : outputs c e n ((draw c e s).2.withRes m) = outputs c e n (draw c e s).2 :=
        outputs_congr _ _ _ _ _ (sameRegisters_symm (by simp))
      rw [ho] at he'
      simpa [outputs, fisherYates, he] using he'

/-- The body of `SHUFFLE`: `len - 1` draws, and the result words are the permutation the Fisher-Yates loop makes of the
identity (R262, R263). -/
theorem shuffleBody_eq (c : Config) (e : Engine) (len : Nat) (s : State) (hl : len ≤ kmax c) :
    ∃ m words, shuffleBody c e len s = .ok (words, (drawTimes c e (len - 1) s).withRes m) ∧
      Memory.WritesBelow c len s.res m ∧ words = (List.range len).map m.read ∧
      words.map BitVec.toNat = fisherYates (shuffleChoices c e len s) 0 (List.range len) := by
  obtain ⟨m, hm, hw, he⟩ := fillIdentity_entries c len s hl
  have ho (n : Nat) : outputs c e n (s.withRes m) = outputs c e n s :=
    outputs_congr _ _ _ _ _ (sameRegisters_symm (by simp))
  have hsh : ∃ m', shuffleRes c e len (s.withRes m) = .ok ((drawTimes c e (len - 1) s).withRes m') ∧
      Memory.WritesBelow c len m m' ∧
      m'.entries len = fisherYates (shuffleChoices c e len s) 0 (List.range len) := by
    by_cases h2 : len < 2
    · have h0 : len - 1 = 0 := by omega
      refine ⟨m, by simp [shuffleRes, h2, h0], .refl .., ?_⟩
      simp [shuffleChoices, h0, outputs, fisherYates, he]
    · obtain ⟨m', hm', hw', he'⟩ := shuffleTurns_eq c e len (len - 1) 0 (s.withRes m) (by omega) hl
      refine ⟨m', by simpa [shuffleRes, h2] using hm', hw', ?_⟩
      simpa [shuffleChoices, ho, he] using he'
  obtain ⟨m', hm', hw', he'⟩ := hsh
  obtain ⟨words, hwd, hread, hmap⟩ := readFrom_zero c len ((drawTimes c e (len - 1) s).withRes m') hl
  refine ⟨m', words, ?_, hw.trans hw', hread, hmap.trans he'⟩
  simp only [shuffleBody, hm]
  show (do
    let s ← shuffleRes c e len (s.withRes m)
    let words ← readFrom c 0 len s
    pure (words, s)) = _
  rw [hm']
  show (do
    let words ← readFrom c 0 len _
    pure (words, _)) = _
  rw [hwd]
  rfl

/-! ## SAMPLE -/

/-- A further draw after `d` of them. -/
theorem draw_drawTimes (c : Config) (e : Engine) (d : Nat) (s : State) :
    draw c e (drawTimes c e d s) = (rawDraw c e s d, drawTimes c e (d + 1) s) := by
  rw [drawTimes_add]; rfl

/-- The loop of Algorithm L over the index RAM is `algorithmL` on the reservoir; a turn that replaces an element makes three
draws and the last turn makes one, and the bound on the turns is never met (R266, R268 a, R271). -/
theorem sampleTurns_eq (c : Config) (e : Engine) (n k : Nat) (s : State) (hk0 : 0 < k) (hk : k ≤ kmax c)
    (hn : n < 2 ^ 63) (turns d i : Nat) (w : Word) (m : Memory) (hi : i ≤ n) (ht : n - i + 1 ≤ turns) :
    ∃ r m', sampleTurns c e n k turns i w ((drawTimes c e d s).withRes m) =
        .ok ((drawTimes c e (d + 1 + 3 * r) s).withRes m') ∧ r ≤ n - i ∧
      r = replacements c e n k (rawDraw c e s) turns d i w ∧ Memory.WritesBelow c k m m' ∧
      m'.entries k = algorithmL c e n k (rawDraw c e s) turns d i w (m.entries k) := by
  induction turns generalizing d i w m with
  | zero => omega
  | succ turns ih =>
    have hd : realDraw c e ((drawTimes c e d s).withRes m) =
        (numUnit c (outputWidth e) (rawDraw c e s d), (drawTimes c e (d + 1) s).withRes m) := by
      simp [realDraw_eq, draw_drawTimes]
    simp only [sampleTurns, hd, algorithmL, replacements]
    cases hs : numSkip c (numUnit c (outputWidth e) (rawDraw c e s d)) w with
    | none => exact ⟨0, m, rfl, by omega, rfl, .refl .., rfl⟩
    | some skip =>
      by_cases hout : n < i + skip + 1
      · exact ⟨0, m, by simp [hout], by omega, by simp [hout], .refl .., by simp [hout]⟩
      · have hb := (kmax_bounds c).2
        have hkn : (BitVec.ofNat 64 k).toNat = k := by simp; omega
        have hne : BitVec.ofNat 64 k ≠ (0 : Word) := fun h0 => by
          have := congrArg BitVec.toNat h0; rw [hkn] at this; simp at this; omega
        have hlt := rangeMap_lt c (outputWidth e) (rawDraw c e s (d + 1)) _ hne
        rw [hkn] at hlt
        have hrg : ranged c e 0 (BitVec.ofNat 64 k) ((drawTimes c e (d + 1) s).withRes m) =
            (rangeMap c (outputWidth e) (rawDraw c e s (d + 1)) (BitVec.ofNat 64 k),
              (drawTimes c e (d + 2) s).withRes m) := by
          rw [ranged_of_lt _ _ _ _ _ (by
            rw [toInt_of_lt_half (v := BitVec.ofNat 64 k) (by omega), hkn]; simpa using hk0)]
          simp [draw_drawTimes]
        generalize hslot : rangeMap c (outputWidth e) (rawDraw c e s (d + 1)) (BitVec.ofNat 64 k) = slot at *
        have hval : (BitVec.ofNat 64 (i + skip)).toNat = i + skip := by simp; omega
        obtain ⟨r, m', hm', hr, hrep, hw', he'⟩ := ih (d + 3) (i + skip + 1)
          (numMul c w (numWstep c (numUnit c (outputWidth e) (rawDraw c e s (d + 2))) k))
          (m.write slot.toNat (BitVec.ofNat 64 (i + skip))) (by omega) (by omega)
        refine ⟨r + 1, m', ?_, by omega, by simp [hout, hrep], (Memory.WritesBelow.write m _ _ hlt hk).trans hw', ?_⟩
        · simp only [gt_iff_lt, hout, if_false, hrg]
          rw [resWrite_of_lt _ _ (by omega)]
          have hd2 : realDraw c e ((drawTimes c e (d + 2) s).withRes
              (m.write slot.toNat (BitVec.ofNat 64 (i + skip)))) =
              (numUnit c (outputWidth e) (rawDraw c e s (d + 2)),
                (drawTimes c e (d + 3) s).withRes (m.write slot.toNat (BitVec.ofNat 64 (i + skip)))) := by
            simp [realDraw_eq, draw_drawTimes]
          show sampleTurns c e n k turns _ (numMul c w (numWstep c (realDraw c e _).1 k)) (realDraw c e _).2 = _
          simp only [State.withRes_withRes, State.withRes_res, Nat.add_sub_cancel, hd2, hm']
          rw [show d + 3 + 1 + 3 * r = d + 1 + 3 * (r + 1) by omega]
        · rw [he', Memory.entries_write, hval]
          simp [hout]

/-- The body of `SAMPLE` for `1 <= k < n`: `2 + 3r` draws with `r <= n - k`, and the result words are the reservoir that
`algorithmL` leaves (R266, R267, R271). -/
theorem sampleBody_eq_algorithmL (c : Config) (e : Engine) (n k : Nat) (s : State) (hk0 : 0 < k) (hkn : k < n)
    (hn : n < 2 ^ 63) (hk : k ≤ kmax c) :
    ∃ r m words, sampleBody c e n k s = .ok (words, (drawTimes c e (2 + 3 * r) s).withRes m) ∧ r ≤ n - k ∧
      r = replacements c e n k (rawDraw c e s) (n - k + 1) 1 k
        (numWstep c (numUnit c (outputWidth e) (rawDraw c e s 0)) k) ∧
      Memory.WritesBelow c k s.res m ∧ words = (List.range k).map m.read ∧
      words.map BitVec.toNat = algorithmL c e n k (rawDraw c e s) (n - k + 1) 1 k
        (numWstep c (numUnit c (outputWidth e) (rawDraw c e s 0)) k) (List.range k) := by
  obtain ⟨m, hm, hw, he⟩ := fillIdentity_entries c k s hk
  have hd : realDraw c e (s.withRes m) =
      (numUnit c (outputWidth e) (rawDraw c e s 0), (drawTimes c e 1 s).withRes m) := by
    simp [realDraw_eq, rawDraw, drawTimes_succ]
  obtain ⟨r, m', hm', hr, hrep, hw', he'⟩ := sampleTurns_eq c e n k s hk0 hk hn (n - k + 1) 1 k
    (numWstep c (numUnit c (outputWidth e) (rawDraw c e s 0)) k) m (by omega) (by omega)
  obtain ⟨words, hwd, hread, hmap⟩ := readFrom_zero c k ((drawTimes c e (2 + 3 * r) s).withRes m') hk
  have halg : algL c e n k s = .ok ((drawTimes c e (2 + 3 * r) s).withRes m') := by
    simp only [algL, hm]
    show sampleTurns c e n k (n - k + 1) k (numWstep c (realDraw c e (s.withRes m)).1 k)
      (realDraw c e (s.withRes m)).2 = _
    rw [hd]
    exact hm'
  refine ⟨r, m', words, ?_, hr, hrep, hw.trans hw', hread, by rw [hmap]; simpa [he] using he'⟩
  simp only [sampleBody, show k ≠ 0 by omega, show ¬ n ≤ k by omega, if_false, halg]
  show (do
    let words ← readFrom c 0 k _
    pure (words, _)) = _
  rw [hwd]
  rfl

/-! ## SAMPLEWR -/

/-- The word that `Ranged_e(0, n)` makes of a draw (R130, R270). -/
theorem ranged_zero (c : Config) (e : Engine) (n : Word) (s : State) (hn : n.toNat < 2 ^ 63) (h0 : n ≠ 0) :
    ranged c e 0 n s = (rangeMap c (outputWidth e) (draw c e s).1 n, (draw c e s).2) := by
  have : 0 < n.toNat := Nat.pos_of_ne_zero fun h => h0 (by simpa using BitVec.eq_of_toNat_eq h)
  rw [ranged_of_lt _ _ _ _ _ (by rw [toInt_of_lt_half hn]; simpa using this)]
  simp

theorem drawEach_eq (c : Config) (e : Engine) (n : Word) (hn : n.toNat < 2 ^ 63) (h0 : n ≠ 0) (count first : Nat)
    (s : State) (h : first + count ≤ kmax c) :
    ∃ m, drawEach c e n first count s = .ok ((drawTimes c e count s).withRes m) ∧
      Memory.WritesBelow c (first + count) s.res m ∧ (∀ j, j < first → m.read j = s.res.read j) ∧
      (List.range' first count).map m.read = (outputs c e count s).map fun raw => rangeMap c (outputWidth e) raw n := by
  induction count generalizing first s with
  | zero => exact ⟨s.res, rfl, .refl .., fun _ _ => rfl, rfl⟩
  | succ count ih =>
    have hr := ranged_zero c e n s hn h0
    generalize hv : rangeMap c (outputWidth e) (draw c e s).1 n = v at hr
    obtain ⟨m, hm, hw, hb, ho⟩ := ih (first + 1) ((draw c e s).2.withRes (s.res.write first v)) (by omega)
    have hout : outputs c e count ((draw c e s).2.withRes (s.res.write first v)) = outputs c e count (draw c e s).2 :=
      outputs_congr _ _ _ _ _ (sameRegisters_symm (by simp))
    refine ⟨m, ?_, ?_, fun j hj => ?_, ?_⟩
    · simp only [drawEach, hr, resWrite_of_lt (c := c) (j := first) v (draw c e s).2 (by omega)]
      show drawEach c e n (first + 1) count ((draw c e s).2.withRes ((draw c e s).2.res.write first v)) = _
      rw [draw_res, hm]
      simp [drawTimes_succ]
    · rw [show first + (count + 1) = first + 1 + count by omega]
      exact (Memory.WritesBelow.write _ first v (by omega) (by omega)).trans hw
    · rw [hb j (by omega), State.withRes_res, Memory.read_write, if_neg (by omega)]
    · rw [hout] at ho
      simp only [List.range'_succ, List.map_cons, outputs, ho, hv]
      rw [hb first (by omega), State.withRes_res, Memory.read_write, if_pos rfl]

theorem drawEach_zero (c : Config) (e : Engine) (count first : Nat) (s : State) (h : first + count ≤ kmax c) :
    ∃ m, drawEach c e 0 first count s = .ok (s.withRes m) ∧ Memory.WritesBelow c (first + count) s.res m ∧
      (∀ j, j < first → m.read j = s.res.read j) ∧ (List.range' first count).map m.read = List.replicate count 0 := by
  induction count generalizing first s with
  | zero => exact ⟨s.res, rfl, .refl .., fun _ _ => rfl, rfl⟩
  | succ count ih =>
    have hr : ranged c e 0 0 s = (0, s) := ranged_of_ge c e 0 0 s (by simp)
    obtain ⟨m, hm, hw, hb, ho⟩ := ih (first + 1) (s.withRes (s.res.write first 0)) (by omega)
    refine ⟨m, ?_, ?_, fun j hj => ?_, ?_⟩
    · simp only [drawEach, hr, resWrite_of_lt (c := c) (j := first) 0 s (by omega)]
      exact hm
    · rw [show first + (count + 1) = first + 1 + count by omega]
      exact (Memory.WritesBelow.write _ first 0 (by omega) (by omega)).trans hw
    · rw [hb j (by omega), State.withRes_res, Memory.read_write, if_neg (by omega)]
    · simp only [List.range'_succ, List.map_cons, ho, List.replicate_succ]
      rw [hb first (by omega), State.withRes_res, Memory.read_write, if_pos rfl]

/-- The body of `SAMPLEWR` for `n > 0`: one ranged draw a word (R270). -/
theorem samplewrBody_eq (c : Config) (e : Engine) (n : Word) (k : Nat) (s : State) (hn : n.toNat < 2 ^ 63)
    (h0 : n ≠ 0) (hk : k ≤ kmax c) :
    ∃ m, samplewrBody c e n k s = .ok ((outputs c e k s).map (fun raw => rangeMap c (outputWidth e) raw n),
        (drawTimes c e k s).withRes m) ∧ Memory.WritesBelow c k s.res m ∧
      (outputs c e k s).map (fun raw => rangeMap c (outputWidth e) raw n) = (List.range k).map m.read := by
  obtain ⟨m, hm, hw, -, ho⟩ := drawEach_eq c e n hn h0 k 0 s (by omega)
  refine ⟨m, ?_, by simpa using hw, by rw [List.range_eq_range', ho]⟩
  have hrd := readFrom_eq c 0 k ((drawTimes c e k s).withRes m) (by omega)
  rw [State.withRes_res, ho] at hrd
  simp only [samplewrBody, hm]
  show (do
    let words ← readFrom c 0 k _
    pure (words, _)) = _
  rw [hrd]
  rfl

/-- The body of `SAMPLEWR` for `n = 0`: zeros, and no draw (R270). -/
theorem samplewrBody_zero (c : Config) (e : Engine) (k : Nat) (s : State) (hk : k ≤ kmax c) :
    ∃ m, samplewrBody c e 0 k s = .ok (List.replicate k 0, s.withRes m) ∧ Memory.WritesBelow c k s.res m ∧
      List.replicate k 0 = (List.range k).map m.read := by
  obtain ⟨m, hm, hw, -, ho⟩ := drawEach_zero c e k 0 s (by omega)
  refine ⟨m, ?_, by simpa using hw, by rw [List.range_eq_range', ho]⟩
  have hrd := readFrom_eq c 0 k (s.withRes m) (by omega)
  rw [State.withRes_res, ho] at hrd
  simp only [samplewrBody, hm]
  show (do
    let words ← readFrom c 0 k _
    pure (words, _)) = _
  rw [hrd]
  rfl

end Sys2Proof.Machine
end

