-- ==== Sys2Proof/Laws/Exec.lean ====
section
/-! SUPPORT. What `exec` can do, once for every command: it answers an error and leaves the state alone, it constructs its
engine, or it makes some draws of its engine, writes `RES` below its result count and answers its words. -/

namespace Sys2Proof.Machine

/-- The shapes of `exec i s`. -/
inductive Shape (i : Instr) (s : State) : Host.Outcome State Fault Refusal → Prop
  /-- The engine is not constructed (R301). -/
  | unseeded (e : Engine) : needsEngine i = some e → s.constructed e = false → Shape i s (raise .unseeded s)
  /-- The modulus is 0 (R304). -/
  | param : zeroModulus i → Shape i s (raise .param s)
  /-- An operand is out of bounds (R305). -/
  | range : engineReady i s → ¬ inBounds Config.block i → Shape i s (raise .range s)
  /-- Engine `e` is constructed (R123). -/
  | built (e : Engine) (t : State) : isConstruction i = true → ownEngine i = some e → ¬ zeroModulus i →
      resultCount i = 0 → (∀ d, d ≠ e → sameRegisters d s t) →
      t.valid = (s.construct e).valid → t.res = s.res → t.inbox = s.inbox → t.ent = s.ent →
      (e = .lcg → t.lcg.modulus ≠ 0) → (e = .xo → ∃ seed, t.xo = xoExpand Config.block seed) →
      Shape i s (respond [] t)
  /-- The command is performed with `count` draws of engine `e`. -/
  | performed (e : Engine) (count : Nat) (m : Memory) (words : List Word) : isConstruction i = false →
      engineReady i s → inBounds Config.block i → ¬ zeroModulus i →
      (count ≠ 0 → ownEngine i = some e ∧ s.constructed e = true) →
      Memory.WritesBelow Config.block (writtenEntries i) s.res m → words.length = resultCount i →
      Shape i s (respond words ((drawTimes Config.block e count s).withRes m))

theorem Shape.whenConstructed {i : Instr} {s : State} {e : Engine} {k : Host.Outcome State Fault Refusal}
    (hn : needsEngine i = some e) (h : engineReady i s → s.constructed e = true → Shape i s k) :
    Shape i s (whenConstructed e s k) := by
  unfold Machine.whenConstructed
  split
  · exact h (fun d hd => by rw [hn] at hd; cases hd; assumption) ‹_›
  · exact .unseeded e hn (by simpa using ‹¬ s.constructed e = true›)

theorem Shape.still {i : Instr} {s : State} {words : List Word} (hc : isConstruction i = false)
    (hz : ¬ zeroModulus i) (hb : inBounds Config.block i) (hr : engineReady i s)
    (hl : words.length = resultCount i) : Shape i s (respond words s) :=
  .performed .lcg 0 s.res words hc hr hb hz (by simp) (.refl ..) hl

theorem Shape.drawn {i : Instr} {s : State} {e : Engine} {words : List Word} (hc : isConstruction i = false)
    (hz : ¬ zeroModulus i) (hb : inBounds Config.block i) (ho : ownEngine i = some e) (hr : engineReady i s)
    (hv : s.constructed e = true) (hl : words.length = resultCount i) :
    Shape i s (respond words (draw Config.block e s).2) := by
  have h : (draw Config.block e s).2 = (drawTimes Config.block e 1 s).withRes s.res := by
    rw [← draw_res Config.block e s]; rfl
  rw [h]
  exact .performed e 1 s.res words hc hr hb hz (fun _ => ⟨ho, hv⟩) (.refl ..) hl

theorem Shape.rangedDrawn {i : Instr} {s : State} {e : Engine} {a b : Word} (hc : isConstruction i = false)
    (hz : ¬ zeroModulus i) (hb : inBounds Config.block i) (ho : ownEngine i = some e) (hr : engineReady i s)
    (hv : s.constructed e = true) (hl : resultCount i = 1) :
    Shape i s (let d := ranged Config.block e a b s; respond [d.1] d.2) := by
  unfold ranged
  split
  · exact .still hc hz hb hr (by simp [hl])
  · exact .drawn hc hz hb ho hr hv (by simp [hl])

/-! ## Every command -/

theorem lcgDefaultMod_ne_zero : lcgDefaultMod ≠ 0 := by decide

theorem shape_loadLcg {i : Instr} {s : State} (seed : Word) (hc : isConstruction i = true)
    (ho : ownEngine i = some .lcg) (hz : ¬ zeroModulus i) (hr : resultCount i = 0) :
    Shape i s (respond [] (loadLcg Config.block seed s)) := by
  refine .built .lcg _ hc ho hz hr (fun d hd => ?_) rfl rfl rfl rfl (fun _ => lcgDefaultMod_ne_zero) (by simp)
  cases d <;> first | rfl | exact absurd rfl hd

theorem shape_loadPcg32 {i : Instr} {s : State} (seed : Word) (hc : isConstruction i = true)
    (ho : ownEngine i = some .pcg32) (hz : ¬ zeroModulus i) (hr : resultCount i = 0) :
    Shape i s (respond [] (loadPcg32 Config.block seed s)) := by
  refine .built .pcg32 _ hc ho hz hr (fun d hd => ?_) rfl rfl rfl rfl (by simp) (by simp)
  cases d <;> first | rfl | exact absurd rfl hd

theorem shape_loadPcg64 {i : Instr} {s : State} (seed : Wide) (hc : isConstruction i = true)
    (ho : ownEngine i = some .pcg64) (hz : ¬ zeroModulus i) (hr : resultCount i = 0) :
    Shape i s (respond [] (loadPcg64 Config.block seed s)) := by
  refine .built .pcg64 _ hc ho hz hr (fun d hd => ?_) rfl rfl rfl rfl (by simp) (by simp)
  cases d <;> first | rfl | exact absurd rfl hd

theorem shape_loadSm64 {i : Instr} {s : State} (seed : Word) (hc : isConstruction i = true)
    (ho : ownEngine i = some .sm64) (hz : ¬ zeroModulus i) (hr : resultCount i = 0) :
    Shape i s (respond [] (loadSm64 seed s)) := by
  refine .built .sm64 _ hc ho hz hr (fun d hd => ?_) rfl rfl rfl rfl (by simp) (by simp)
  cases d <;> first | rfl | exact absurd rfl hd

theorem shape_loadXo {i : Instr} {s : State} (seed : Word) (hc : isConstruction i = true)
    (ho : ownEngine i = some .xo) (hz : ¬ zeroModulus i) (hr : resultCount i = 0) :
    Shape i s (respond [] (loadXo Config.block seed s)) := by
  refine .built .xo _ hc ho hz hr (fun d hd => ?_) rfl rfl rfl rfl (by simp) (fun _ => ⟨seed, rfl⟩)
  cases d <;> first | rfl | exact absurd rfl hd

theorem shape_initpLcg (s : State) (seed mul inc modulus : Word) :
    Shape (.initpLcg seed mul inc modulus) s (execInitpLcg seed mul inc modulus s) := by
  unfold execInitpLcg
  split
  · exact .param ‹_›
  · refine .built .lcg _ rfl rfl ‹_› rfl (fun d hd => ?_) rfl rfl rfl rfl (fun _ => ‹_›) (by simp)
    cases d <;> first | rfl | exact absurd rfl hd

theorem shape_initpPcg32 (s : State) (seed mul inc : Word) :
    Shape (.initpPcg32 seed mul inc) s (execInitpPcg32 seed mul inc s) := by
  refine .built .pcg32 _ rfl rfl id rfl (fun d hd => ?_) rfl rfl rfl rfl (by simp) (by simp)
  cases d <;> first | rfl | exact absurd rfl hd

theorem shape_initpPcg64 (s : State) (x0 x1 x2 x3 x4 x5 : Word) :
    Shape (.initpPcg64 x0 x1 x2 x3 x4 x5) s (execInitpPcg64 x0 x1 x2 x3 x4 x5 s) := by
  refine .built .pcg64 _ rfl rfl id rfl (fun d hd => ?_) rfl rfl rfl rfl (by simp) (by simp)
  cases d <;> first | rfl | exact absurd rfl hd

theorem engineReady_of_none {i : Instr} {s : State} (h : needsEngine i = none) : engineReady i s := by
  intro e he; rw [h] at he; cases he

theorem swapEntries_length {α : Type} (l : List α) (i j : Nat) : (swapEntries l i j).length = l.length := by
  unfold swapEntries; split <;> simp

theorem fisherYates_length {α : Type} (js : List Nat) (i : Nat) (l : List α) :
    (fisherYates js i l).length = l.length := by
  induction js generalizing i l with
  | nil => rfl
  | cons j js ih => rw [fisherYates, ih, swapEntries_length]

theorem algorithmL_length (c : Config) (e : Engine) (n k : Nat) (raw : Nat → Word) (turns d i : Nat) (w : Word)
    (slots : List Nat) : (algorithmL c e n k raw turns d i w slots).length = slots.length := by
  induction turns generalizing d i w slots with
  | zero => rfl
  | succ turns ih =>
    unfold algorithmL
    split
    · rfl
    · split
      · rfl
      · rw [ih]; simp

theorem shape_shuffle (s : State) (e : Engine) (len : Word) :
    Shape (.shuffle e len) s (shuffleCommand Config.block e len s) := by
  refine Shape.whenConstructed rfl fun hr hv => ?_
  split
  · exact .range hr (by simp only [inBounds]; omega)
  · have hl : len.toNat ≤ kmax Config.block := by omega
    obtain ⟨m, words, hb, hw, -, hmap⟩ := shuffleBody_eq Config.block e len.toNat s hl
    rw [hb]
    refine .performed e _ m words rfl hr hl id (fun _ => ⟨rfl, hv⟩) hw ?_
    have := congrArg List.length hmap
    rwa [List.length_map, fisherYates_length, List.length_range] at this

theorem shape_sample (s : State) (e : Engine) (n k : Word) :
    Shape (.sample e n k) s (sampleCommand Config.block e n k s) := by
  refine Shape.whenConstructed rfl fun hr hv => ?_
  split
  · exact .range hr (by simp only [inBounds]; omega)
  · have hin : inBounds Config.block (.sample e n k) := by simp only [inBounds]; omega
    have hin' := hin
    obtain ⟨hn, hk, hmin⟩ := hin'
    by_cases h0 : k.toNat = 0
    · simp only [sampleBody, h0, if_true]
      exact .still rfl id hin hr (by simp [resultCount, h0])
    · by_cases hle : n.toNat ≤ k.toNat
      · obtain ⟨m, words, hb, hw, -, hmap⟩ := shuffleBody_eq Config.block e n.toNat s (by omega)
        simp only [sampleBody, h0, if_false, hle, if_true, hb]
        refine .performed e _ m words rfl hr hin id (fun _ => ⟨rfl, hv⟩) (hw.mono (by simp [writtenEntries, hle])) ?_
        have := congrArg List.length hmap
        rw [List.length_map, fisherYates_length, List.length_range] at this
        simp only [resultCount]; omega
      · obtain ⟨r, m, words, hb, -, -, hw, -, hmap⟩ :=
          sampleBody_eq_algorithmL Config.block e n.toNat k.toNat s (by omega) (by omega) hn (by omega)
        rw [hb]
        refine .performed e _ m words rfl hr hin id (fun _ => ⟨rfl, hv⟩)
          (hw.mono (by simp only [writtenEntries]; omega)) ?_
        have := congrArg List.length hmap
        rw [List.length_map, algorithmL_length, List.length_range] at this
        simp only [resultCount]; omega

theorem shape_samplewr (s : State) (e : Engine) (n k : Word) :
    Shape (.samplewr e n k) s (samplewrCommand Config.block e n k s) := by
  refine Shape.whenConstructed rfl fun hr hv => ?_
  split
  · exact .range hr (by simp only [inBounds]; omega)
  · have hin : inBounds Config.block (.samplewr e n k) := by simp only [inBounds]; omega
    have hin' := hin
    obtain ⟨hn, hk⟩ := hin'
    by_cases h0 : n = 0
    · subst h0
      obtain ⟨m, hb, hw, -⟩ := samplewrBody_zero Config.block e k.toNat s hk
      rw [hb]
      exact .performed e 0 m _ rfl hr hin id (by simp) hw (by simp [resultCount])
    · obtain ⟨m, hb, hw, -⟩ := samplewrBody_eq Config.block e n k.toNat s hn h0 hk
      rw [hb]
      exact .performed e _ m _ rfl hr hin id (fun _ => ⟨rfl, hv⟩) hw (by simp [resultCount])

/-- Every command has one of the shapes. -/
theorem exec_shape (i : Instr) (s : State) : Shape i s (exec i s) := by
  cases i with
  | initLcg x0 => exact shape_loadLcg x0 rfl rfl id rfl
  | initeLcg => exact shape_loadLcg _ rfl rfl id rfl
  | initpLcg x0 x1 x2 x3 => exact shape_initpLcg s x0 x1 x2 x3
  | nextLcg => exact .whenConstructed rfl fun hr hv => .drawn rfl id trivial rfl hr hv rfl
  | getstateLcg => exact .whenConstructed rfl fun hr _ => .still rfl id trivial hr rfl
  | minLcg => exact .still rfl id trivial (engineReady_of_none rfl) rfl
  | maxLcg => exact .still rfl id trivial (engineReady_of_none rfl) rfl
  | nextnLcg _ => exact .whenConstructed rfl fun hr hv => .rangedDrawn rfl id trivial rfl hr hv rfl
  | nextrLcg _ _ => exact .whenConstructed rfl fun hr hv => .rangedDrawn rfl id trivial rfl hr hv rfl
  | realLcg => exact .whenConstructed rfl fun hr hv => .drawn rfl id trivial rfl hr hv rfl
  | realrLcg _ _ => exact .whenConstructed rfl fun hr hv => .drawn rfl id trivial rfl hr hv rfl
  | headsLcg => exact .whenConstructed rfl fun hr hv => .drawn rfl id trivial rfl hr hv rfl
  | headswLcg _ => exact .whenConstructed rfl fun hr hv => .drawn rfl id trivial rfl hr hv rfl
  | initPcg32 x0 => exact shape_loadPcg32 x0 rfl rfl id rfl
  | initePcg32 => exact shape_loadPcg32 _ rfl rfl id rfl
  | initpPcg32 x0 x1 x2 => exact shape_initpPcg32 s x0 x1 x2
  | nextPcg32 => exact .whenConstructed rfl fun hr hv => .drawn rfl id trivial rfl hr hv rfl
  | getstatePcg32 => exact .whenConstructed rfl fun hr _ => .still rfl id trivial hr rfl
  | minPcg32 => exact .still rfl id trivial (engineReady_of_none rfl) rfl
  | maxPcg32 => exact .still rfl id trivial (engineReady_of_none rfl) rfl
  | nextnPcg32 _ => exact .whenConstructed rfl fun hr hv => .rangedDrawn rfl id trivial rfl hr hv rfl
  | nextrPcg32 _ _ => exact .whenConstructed rfl fun hr hv => .rangedDrawn rfl id trivial rfl hr hv rfl
  | realPcg32 => exact .whenConstructed rfl fun hr hv => .drawn rfl id trivial rfl hr hv rfl
  | realrPcg32 _ _ => exact .whenConstructed rfl fun hr hv => .drawn rfl id trivial rfl hr hv rfl
  | headsPcg32 => exact .whenConstructed rfl fun hr hv => .drawn rfl id trivial rfl hr hv rfl
  | headswPcg32 _ => exact .whenConstructed rfl fun hr hv => .drawn rfl id trivial rfl hr hv rfl
  | initPcg64 x0 x1 => exact shape_loadPcg64 (wideOf x0 x1) rfl rfl id rfl
  | initePcg64 => exact shape_loadPcg64 _ rfl rfl id rfl
  | initpPcg64 x0 x1 x2 x3 x4 x5 => exact shape_initpPcg64 s x0 x1 x2 x3 x4 x5
  | nextPcg64 => exact .whenConstructed rfl fun hr hv => .drawn rfl id trivial rfl hr hv rfl
  | getstatePcg64 => exact .whenConstructed rfl fun hr _ => .still rfl id trivial hr rfl
  | minPcg64 => exact .still rfl id trivial (engineReady_of_none rfl) rfl
  | maxPcg64 => exact .still rfl id trivial (engineReady_of_none rfl) rfl
  | nextnPcg64 _ => exact .whenConstructed rfl fun hr hv => .rangedDrawn rfl id trivial rfl hr hv rfl
  | nextrPcg64 _ _ => exact .whenConstructed rfl fun hr hv => .rangedDrawn rfl id trivial rfl hr hv rfl
  | realPcg64 => exact .whenConstructed rfl fun hr hv => .drawn rfl id trivial rfl hr hv rfl
  | realrPcg64 _ _ => exact .whenConstructed rfl fun hr hv => .drawn rfl id trivial rfl hr hv rfl
  | headsPcg64 => exact .whenConstructed rfl fun hr hv => .drawn rfl id trivial rfl hr hv rfl
  | headswPcg64 _ => exact .whenConstructed rfl fun hr hv => .drawn rfl id trivial rfl hr hv rfl
  | initSm64 x0 => exact shape_loadSm64 x0 rfl rfl id rfl
  | initeSm64 => exact shape_loadSm64 _ rfl rfl id rfl
  | nextSm64 => exact .whenConstructed rfl fun hr hv => .drawn rfl id trivial rfl hr hv rfl
  | getstateSm64 => exact .whenConstructed rfl fun hr _ => .still rfl id trivial hr rfl
  | minSm64 => exact .still rfl id trivial (engineReady_of_none rfl) rfl
  | maxSm64 => exact .still rfl id trivial (engineReady_of_none rfl) rfl
  | nextnSm64 _ => exact .whenConstructed rfl fun hr hv => .rangedDrawn rfl id trivial rfl hr hv rfl
  | nextrSm64 _ _ => exact .whenConstructed rfl fun hr hv => .rangedDrawn rfl id trivial rfl hr hv rfl
  | realSm64 => exact .whenConstructed rfl fun hr hv => .drawn rfl id trivial rfl hr hv rfl
  | realrSm64 _ _ => exact .whenConstructed rfl fun hr hv => .drawn rfl id trivial rfl hr hv rfl
  | headsSm64 => exact .whenConstructed rfl fun hr hv => .drawn rfl id trivial rfl hr hv rfl
  | headswSm64 _ => exact .whenConstructed rfl fun hr hv => .drawn rfl id trivial rfl hr hv rfl
  | initXo x0 => exact shape_loadXo x0 rfl rfl id rfl
  | initeXo => exact shape_loadXo _ rfl rfl id rfl
  | nextXo => exact .whenConstructed rfl fun hr hv => .drawn rfl id trivial rfl hr hv rfl
  | getstateXo => exact .whenConstructed rfl fun hr _ => .still rfl id trivial hr rfl
  | minXo => exact .still rfl id trivial (engineReady_of_none rfl) rfl
  | maxXo => exact .still rfl id trivial (engineReady_of_none rfl) rfl
  | nextnXo _ => exact .whenConstructed rfl fun hr hv => .rangedDrawn rfl id trivial rfl hr hv rfl
  | nextrXo _ _ => exact .whenConstructed rfl fun hr hv => .rangedDrawn rfl id trivial rfl hr hv rfl
  | realXo => exact .whenConstructed rfl fun hr hv => .drawn rfl id trivial rfl hr hv rfl
  | realrXo _ _ => exact .whenConstructed rfl fun hr hv => .drawn rfl id trivial rfl hr hv rfl
  | headsXo => exact .whenConstructed rfl fun hr hv => .drawn rfl id trivial rfl hr hv rfl
  | headswXo _ => exact .whenConstructed rfl fun hr hv => .drawn rfl id trivial rfl hr hv rfl
  | rotl32 _ _ => exact .still rfl id trivial (engineReady_of_none rfl) rfl
  | rotr32 _ _ => exact .still rfl id trivial (engineReady_of_none rfl) rfl
  | rotl64 _ _ => exact .still rfl id trivial (engineReady_of_none rfl) rfl
  | rotr64 _ _ => exact .still rfl id trivial (engineReady_of_none rfl) rfl
  | shuffle x0 x1 => exact shape_shuffle s x0 x1
  | sample x0 x1 x2 => exact shape_sample s x0 x1 x2
  | samplewr x0 x1 x2 => exact shape_samplewr s x0 x1 x2

/-! ## Inversions -/

/-- An error's next state (R303). -/
theorem raise_next {st : Status} {s t : State} (h : raise st s = .next t) :
    t = s.withResponse ⟨statusCode st, []⟩ := by
  unfold raise at h; cases h; rfl

/-- A performed command's next state (R78). -/
theorem respond_next {words : List Word} {s t : State} (h : respond words s = .next t) :
    t = s.withResponse ⟨statusCode .ok, words⟩ := by
  unfold respond at h; cases h; rfl

theorem whenConstructed_of {e : Engine} {s : State} {k : Host.Outcome State Fault Refusal}
    (h : s.constructed e = true) : whenConstructed e s k = k := by
  simp [whenConstructed, h]

theorem constructed_congr {s t : State} (h : s.valid = t.valid) (e : Engine) : s.constructed e = t.constructed e := by
  cases e <;> simp [State.constructed, h]

/-! ## The engine commands by their engine -/

theorem exec_nextOf (e : Engine) (s : State) : exec (nextOf e) s = nextCommand Config.block e s := by
  cases e <;> rfl
theorem exec_getstateOf (e : Engine) (s : State) : exec (getstateOf e) s = getstateCommand e s := by
  cases e <;> rfl
theorem exec_nextnOf (e : Engine) (n : Word) (s : State) :
    exec (nextnOf e n) s = nextnCommand Config.block e n s := by
  cases e <;> rfl
theorem exec_nextrOf (e : Engine) (a b : Word) (s : State) :
    exec (nextrOf e a b) s = nextrCommand Config.block e a b s := by
  cases e <;> rfl
theorem exec_realOf (e : Engine) (s : State) : exec (realOf e) s = realCommand Config.block e s := by
  cases e <;> rfl
theorem exec_realrOf (e : Engine) (a b : Word) (s : State) :
    exec (realrOf e a b) s = realrCommand Config.block e a b s := by
  cases e <;> rfl
theorem exec_headsOf (e : Engine) (s : State) : exec (headsOf e) s = headsCommand Config.block e s := by
  cases e <;> rfl
theorem exec_headswOf (e : Engine) (weight : Word) (s : State) :
    exec (headswOf e weight) s = headswCommand Config.block e weight s := by
  cases e <;> rfl

end Sys2Proof.Machine
end

