-- ==== Sys2Proof/Laws/PerInstr.lean ====
section
/-! SUPPORT. The family of statements over every command that LAWS.json names. -/

namespace Sys2Proof.Laws

/-- The packet that `encode` writes for a command meets none of the conditions of spec/30_encoding.md R80. -/
def EncodedPacketIsLegal.Statement (i : Instr) : Prop := (encode i).illegal = false

/-- Whether a packet is illegal depends on its header and the number of its operand words. -/
theorem illegal_of_length {h : Header} {ws : List Word} (n : Nat) (hn : ws.length = n)
    (hd : Packet.illegal ⟨h, List.replicate n 0⟩ = false) : Packet.illegal ⟨h, ws⟩ = false := by
  subst hn
  rw [← hd]
  simp only [Packet.illegal, Packet.unitReserved, Packet.opReserved, Packet.initpAbsent, Packet.rsvNotZero,
    Packet.engNotZero, Packet.engReserved, Packet.countWrong, Packet.operandsListed, Packet.unitField,
    Packet.opField, Packet.rsvField, Packet.engField, List.length_replicate]
  rfl

theorem EncodedPacketIsLegal.initLcg (seed : Word) : EncodedPacketIsLegal.Statement (.initLcg seed) :=
  illegal_of_length 1 rfl (by decide)

theorem EncodedPacketIsLegal.initeLcg : EncodedPacketIsLegal.Statement .initeLcg :=
  illegal_of_length 0 rfl (by decide)

theorem EncodedPacketIsLegal.initpLcg (seed mul inc modulus : Word) :
    EncodedPacketIsLegal.Statement (.initpLcg seed mul inc modulus) :=
  illegal_of_length 4 rfl (by decide)

theorem EncodedPacketIsLegal.nextLcg : EncodedPacketIsLegal.Statement .nextLcg :=
  illegal_of_length 0 rfl (by decide)

theorem EncodedPacketIsLegal.getstateLcg : EncodedPacketIsLegal.Statement .getstateLcg :=
  illegal_of_length 0 rfl (by decide)

theorem EncodedPacketIsLegal.minLcg : EncodedPacketIsLegal.Statement .minLcg :=
  illegal_of_length 0 rfl (by decide)

theorem EncodedPacketIsLegal.maxLcg : EncodedPacketIsLegal.Statement .maxLcg :=
  illegal_of_length 0 rfl (by decide)

theorem EncodedPacketIsLegal.nextnLcg (n : Word) : EncodedPacketIsLegal.Statement (.nextnLcg n) :=
  illegal_of_length 1 rfl (by decide)

theorem EncodedPacketIsLegal.nextrLcg (a b : Word) : EncodedPacketIsLegal.Statement (.nextrLcg a b) :=
  illegal_of_length 2 rfl (by decide)

theorem EncodedPacketIsLegal.realLcg : EncodedPacketIsLegal.Statement .realLcg :=
  illegal_of_length 0 rfl (by decide)

theorem EncodedPacketIsLegal.realrLcg (a b : Word) : EncodedPacketIsLegal.Statement (.realrLcg a b) :=
  illegal_of_length 2 rfl (by decide)

theorem EncodedPacketIsLegal.headsLcg : EncodedPacketIsLegal.Statement .headsLcg :=
  illegal_of_length 0 rfl (by decide)

theorem EncodedPacketIsLegal.headswLcg (weight : Word) : EncodedPacketIsLegal.Statement (.headswLcg weight) :=
  illegal_of_length 1 rfl (by decide)

theorem EncodedPacketIsLegal.initPcg32 (seed : Word) : EncodedPacketIsLegal.Statement (.initPcg32 seed) :=
  illegal_of_length 1 rfl (by decide)

theorem EncodedPacketIsLegal.initePcg32 : EncodedPacketIsLegal.Statement .initePcg32 :=
  illegal_of_length 0 rfl (by decide)

theorem EncodedPacketIsLegal.initpPcg32 (seed mul inc : Word) :
    EncodedPacketIsLegal.Statement (.initpPcg32 seed mul inc) :=
  illegal_of_length 3 rfl (by decide)

theorem EncodedPacketIsLegal.nextPcg32 : EncodedPacketIsLegal.Statement .nextPcg32 :=
  illegal_of_length 0 rfl (by decide)

theorem EncodedPacketIsLegal.getstatePcg32 : EncodedPacketIsLegal.Statement .getstatePcg32 :=
  illegal_of_length 0 rfl (by decide)

theorem EncodedPacketIsLegal.minPcg32 : EncodedPacketIsLegal.Statement .minPcg32 :=
  illegal_of_length 0 rfl (by decide)

theorem EncodedPacketIsLegal.maxPcg32 : EncodedPacketIsLegal.Statement .maxPcg32 :=
  illegal_of_length 0 rfl (by decide)

theorem EncodedPacketIsLegal.nextnPcg32 (n : Word) : EncodedPacketIsLegal.Statement (.nextnPcg32 n) :=
  illegal_of_length 1 rfl (by decide)

theorem EncodedPacketIsLegal.nextrPcg32 (a b : Word) : EncodedPacketIsLegal.Statement (.nextrPcg32 a b) :=
  illegal_of_length 2 rfl (by decide)

theorem EncodedPacketIsLegal.realPcg32 : EncodedPacketIsLegal.Statement .realPcg32 :=
  illegal_of_length 0 rfl (by decide)

theorem EncodedPacketIsLegal.realrPcg32 (a b : Word) : EncodedPacketIsLegal.Statement (.realrPcg32 a b) :=
  illegal_of_length 2 rfl (by decide)

theorem EncodedPacketIsLegal.headsPcg32 : EncodedPacketIsLegal.Statement .headsPcg32 :=
  illegal_of_length 0 rfl (by decide)

theorem EncodedPacketIsLegal.headswPcg32 (weight : Word) :
    EncodedPacketIsLegal.Statement (.headswPcg32 weight) :=
  illegal_of_length 1 rfl (by decide)

theorem EncodedPacketIsLegal.initPcg64 (seedLo seedHi : Word) :
    EncodedPacketIsLegal.Statement (.initPcg64 seedLo seedHi) :=
  illegal_of_length 2 rfl (by decide)

theorem EncodedPacketIsLegal.initePcg64 : EncodedPacketIsLegal.Statement .initePcg64 :=
  illegal_of_length 0 rfl (by decide)

theorem EncodedPacketIsLegal.initpPcg64 (seedLo seedHi mulLo mulHi incLo incHi : Word) :
    EncodedPacketIsLegal.Statement (.initpPcg64 seedLo seedHi mulLo mulHi incLo incHi) :=
  illegal_of_length 6 rfl (by decide)

theorem EncodedPacketIsLegal.nextPcg64 : EncodedPacketIsLegal.Statement .nextPcg64 :=
  illegal_of_length 0 rfl (by decide)

theorem EncodedPacketIsLegal.getstatePcg64 : EncodedPacketIsLegal.Statement .getstatePcg64 :=
  illegal_of_length 0 rfl (by decide)

theorem EncodedPacketIsLegal.minPcg64 : EncodedPacketIsLegal.Statement .minPcg64 :=
  illegal_of_length 0 rfl (by decide)

theorem EncodedPacketIsLegal.maxPcg64 : EncodedPacketIsLegal.Statement .maxPcg64 :=
  illegal_of_length 0 rfl (by decide)

theorem EncodedPacketIsLegal.nextnPcg64 (n : Word) : EncodedPacketIsLegal.Statement (.nextnPcg64 n) :=
  illegal_of_length 1 rfl (by decide)

theorem EncodedPacketIsLegal.nextrPcg64 (a b : Word) : EncodedPacketIsLegal.Statement (.nextrPcg64 a b) :=
  illegal_of_length 2 rfl (by decide)

theorem EncodedPacketIsLegal.realPcg64 : EncodedPacketIsLegal.Statement .realPcg64 :=
  illegal_of_length 0 rfl (by decide)

theorem EncodedPacketIsLegal.realrPcg64 (a b : Word) : EncodedPacketIsLegal.Statement (.realrPcg64 a b) :=
  illegal_of_length 2 rfl (by decide)

theorem EncodedPacketIsLegal.headsPcg64 : EncodedPacketIsLegal.Statement .headsPcg64 :=
  illegal_of_length 0 rfl (by decide)

theorem EncodedPacketIsLegal.headswPcg64 (weight : Word) :
    EncodedPacketIsLegal.Statement (.headswPcg64 weight) :=
  illegal_of_length 1 rfl (by decide)

theorem EncodedPacketIsLegal.initSm64 (seed : Word) : EncodedPacketIsLegal.Statement (.initSm64 seed) :=
  illegal_of_length 1 rfl (by decide)

theorem EncodedPacketIsLegal.initeSm64 : EncodedPacketIsLegal.Statement .initeSm64 :=
  illegal_of_length 0 rfl (by decide)

theorem EncodedPacketIsLegal.nextSm64 : EncodedPacketIsLegal.Statement .nextSm64 :=
  illegal_of_length 0 rfl (by decide)

theorem EncodedPacketIsLegal.getstateSm64 : EncodedPacketIsLegal.Statement .getstateSm64 :=
  illegal_of_length 0 rfl (by decide)

theorem EncodedPacketIsLegal.minSm64 : EncodedPacketIsLegal.Statement .minSm64 :=
  illegal_of_length 0 rfl (by decide)

theorem EncodedPacketIsLegal.maxSm64 : EncodedPacketIsLegal.Statement .maxSm64 :=
  illegal_of_length 0 rfl (by decide)

theorem EncodedPacketIsLegal.nextnSm64 (n : Word) : EncodedPacketIsLegal.Statement (.nextnSm64 n) :=
  illegal_of_length 1 rfl (by decide)

theorem EncodedPacketIsLegal.nextrSm64 (a b : Word) : EncodedPacketIsLegal.Statement (.nextrSm64 a b) :=
  illegal_of_length 2 rfl (by decide)

theorem EncodedPacketIsLegal.realSm64 : EncodedPacketIsLegal.Statement .realSm64 :=
  illegal_of_length 0 rfl (by decide)

theorem EncodedPacketIsLegal.realrSm64 (a b : Word) : EncodedPacketIsLegal.Statement (.realrSm64 a b) :=
  illegal_of_length 2 rfl (by decide)

theorem EncodedPacketIsLegal.headsSm64 : EncodedPacketIsLegal.Statement .headsSm64 :=
  illegal_of_length 0 rfl (by decide)

theorem EncodedPacketIsLegal.headswSm64 (weight : Word) :
    EncodedPacketIsLegal.Statement (.headswSm64 weight) :=
  illegal_of_length 1 rfl (by decide)

theorem EncodedPacketIsLegal.initXo (seed : Word) : EncodedPacketIsLegal.Statement (.initXo seed) :=
  illegal_of_length 1 rfl (by decide)

theorem EncodedPacketIsLegal.initeXo : EncodedPacketIsLegal.Statement .initeXo :=
  illegal_of_length 0 rfl (by decide)

theorem EncodedPacketIsLegal.nextXo : EncodedPacketIsLegal.Statement .nextXo :=
  illegal_of_length 0 rfl (by decide)

theorem EncodedPacketIsLegal.getstateXo : EncodedPacketIsLegal.Statement .getstateXo :=
  illegal_of_length 0 rfl (by decide)

theorem EncodedPacketIsLegal.minXo : EncodedPacketIsLegal.Statement .minXo :=
  illegal_of_length 0 rfl (by decide)

theorem EncodedPacketIsLegal.maxXo : EncodedPacketIsLegal.Statement .maxXo :=
  illegal_of_length 0 rfl (by decide)

theorem EncodedPacketIsLegal.nextnXo (n : Word) : EncodedPacketIsLegal.Statement (.nextnXo n) :=
  illegal_of_length 1 rfl (by decide)

theorem EncodedPacketIsLegal.nextrXo (a b : Word) : EncodedPacketIsLegal.Statement (.nextrXo a b) :=
  illegal_of_length 2 rfl (by decide)

theorem EncodedPacketIsLegal.realXo : EncodedPacketIsLegal.Statement .realXo :=
  illegal_of_length 0 rfl (by decide)

theorem EncodedPacketIsLegal.realrXo (a b : Word) : EncodedPacketIsLegal.Statement (.realrXo a b) :=
  illegal_of_length 2 rfl (by decide)

theorem EncodedPacketIsLegal.headsXo : EncodedPacketIsLegal.Statement .headsXo :=
  illegal_of_length 0 rfl (by decide)

theorem EncodedPacketIsLegal.headswXo (weight : Word) : EncodedPacketIsLegal.Statement (.headswXo weight) :=
  illegal_of_length 1 rfl (by decide)

theorem EncodedPacketIsLegal.rotl32 (value count : Word) :
    EncodedPacketIsLegal.Statement (.rotl32 value count) :=
  illegal_of_length 2 rfl (by decide)

theorem EncodedPacketIsLegal.rotr32 (value count : Word) :
    EncodedPacketIsLegal.Statement (.rotr32 value count) :=
  illegal_of_length 2 rfl (by decide)

theorem EncodedPacketIsLegal.rotl64 (value count : Word) :
    EncodedPacketIsLegal.Statement (.rotl64 value count) :=
  illegal_of_length 2 rfl (by decide)

theorem EncodedPacketIsLegal.rotr64 (value count : Word) :
    EncodedPacketIsLegal.Statement (.rotr64 value count) :=
  illegal_of_length 2 rfl (by decide)

theorem EncodedPacketIsLegal.shuffle (e : Engine) (len : Word) :
    EncodedPacketIsLegal.Statement (.shuffle e len) := by
  cases e <;> exact illegal_of_length 1 rfl (by decide)

theorem EncodedPacketIsLegal.sample (e : Engine) (n k : Word) :
    EncodedPacketIsLegal.Statement (.sample e n k) := by
  cases e <;> exact illegal_of_length 2 rfl (by decide)

theorem EncodedPacketIsLegal.samplewr (e : Engine) (n k : Word) :
    EncodedPacketIsLegal.Statement (.samplewr e n k) := by
  cases e <;> exact illegal_of_length 2 rfl (by decide)

end Sys2Proof.Laws
end

