-- ==== Sys2Proof/Laws/Step.lean ====
section
/-! SUPPORT. What a step can do, once (spec/00_scope.md R10, spec/30_encoding.md R80, spec/60_exceptions.md R313). -/

namespace Sys2Proof.Machine

/-- A step holds the state, or it takes the next packet and rejects it or performs it. -/
theorem step_cases {s t : State} (h : step s = .next t) :
    (s.inbox = [] ∧ t = s) ∨
    ∃ p e rest, s.inbox = ⟨p, e⟩ :: rest ∧
      ((∃ r, decode p = .error r ∧ t = (s.withInput rest e).withResponse ⟨statusCode .illegal, []⟩) ∨
        ∃ i, decode p = .ok i ∧ exec i (s.withInput rest e) = .next t) := by
  unfold step present at h
  cases hb : s.inbox with
  | nil => rw [hb] at h; cases h; exact .inl ⟨rfl, rfl⟩
  | cons x rest =>
    refine .inr ⟨x.packet, x.ent, rest, rfl, ?_⟩
    rw [hb] at h
    simp only at h
    cases hd : decode x.packet with
    | error r => rw [hd] at h; exact .inl ⟨r, rfl, raise_next h⟩
    | ok i => rw [hd] at h; exact .inr ⟨i, rfl, h⟩

end Sys2Proof.Machine
end

