-- ==== Sys2Proof/Machine/Assembly.lean ====
section
/-! DEFINITION. The textual form of a command (spec/30_encoding.md R82): `MNEMONIC[.UNIT] [operand {, operand}]`. Every operand is
written as an exact `0x` literal, which R82 allows for each operand type; a 128-bit operand is one literal. The block
never reads text: this is the notation of the spec. -/

namespace Sys2Proof.Machine

/-- The name of an engine unit (R2, R82). -/
def unitName : Engine → String
  | .lcg => "LCG"
  | .pcg32 => "PCG32"
  | .pcg64 => "PCG64"
  | .sm64 => "SM64"
  | .xo => "XO"

/-- The mnemonic with its unit suffix; for `SMP` the suffix names the engine of the `eng` field, and `ROT` commands take
none (R82). -/
def mnemonicOf (i : Instr) : String :=
  match i with
  | .initLcg _ => "INIT.LCG"
  | .initeLcg => "INITE.LCG"
  | .initpLcg _ _ _ _ => "INITP.LCG"
  | .nextLcg => "NEXT.LCG"
  | .getstateLcg => "GETSTATE.LCG"
  | .minLcg => "MIN.LCG"
  | .maxLcg => "MAX.LCG"
  | .nextnLcg _ => "NEXTN.LCG"
  | .nextrLcg _ _ => "NEXTR.LCG"
  | .realLcg => "REAL.LCG"
  | .realrLcg _ _ => "REALR.LCG"
  | .headsLcg => "HEADS.LCG"
  | .headswLcg _ => "HEADSW.LCG"
  | .initPcg32 _ => "INIT.PCG32"
  | .initePcg32 => "INITE.PCG32"
  | .initpPcg32 _ _ _ => "INITP.PCG32"
  | .nextPcg32 => "NEXT.PCG32"
  | .getstatePcg32 => "GETSTATE.PCG32"
  | .minPcg32 => "MIN.PCG32"
  | .maxPcg32 => "MAX.PCG32"
  | .nextnPcg32 _ => "NEXTN.PCG32"
  | .nextrPcg32 _ _ => "NEXTR.PCG32"
  | .realPcg32 => "REAL.PCG32"
  | .realrPcg32 _ _ => "REALR.PCG32"
  | .headsPcg32 => "HEADS.PCG32"
  | .headswPcg32 _ => "HEADSW.PCG32"
  | .initPcg64 _ _ => "INIT.PCG64"
  | .initePcg64 => "INITE.PCG64"
  | .initpPcg64 _ _ _ _ _ _ => "INITP.PCG64"
  | .nextPcg64 => "NEXT.PCG64"
  | .getstatePcg64 => "GETSTATE.PCG64"
  | .minPcg64 => "MIN.PCG64"
  | .maxPcg64 => "MAX.PCG64"
  | .nextnPcg64 _ => "NEXTN.PCG64"
  | .nextrPcg64 _ _ => "NEXTR.PCG64"
  | .realPcg64 => "REAL.PCG64"
  | .realrPcg64 _ _ => "REALR.PCG64"
  | .headsPcg64 => "HEADS.PCG64"
  | .headswPcg64 _ => "HEADSW.PCG64"
  | .initSm64 _ => "INIT.SM64"
  | .initeSm64 => "INITE.SM64"
  | .nextSm64 => "NEXT.SM64"
  | .getstateSm64 => "GETSTATE.SM64"
  | .minSm64 => "MIN.SM64"
  | .maxSm64 => "MAX.SM64"
  | .nextnSm64 _ => "NEXTN.SM64"
  | .nextrSm64 _ _ => "NEXTR.SM64"
  | .realSm64 => "REAL.SM64"
  | .realrSm64 _ _ => "REALR.SM64"
  | .headsSm64 => "HEADS.SM64"
  | .headswSm64 _ => "HEADSW.SM64"
  | .initXo _ => "INIT.XO"
  | .initeXo => "INITE.XO"
  | .nextXo => "NEXT.XO"
  | .getstateXo => "GETSTATE.XO"
  | .minXo => "MIN.XO"
  | .maxXo => "MAX.XO"
  | .nextnXo _ => "NEXTN.XO"
  | .nextrXo _ _ => "NEXTR.XO"
  | .realXo => "REAL.XO"
  | .realrXo _ _ => "REALR.XO"
  | .headsXo => "HEADS.XO"
  | .headswXo _ => "HEADSW.XO"
  | .rotl32 _ _ => "ROTL32"
  | .rotr32 _ _ => "ROTR32"
  | .rotl64 _ _ => "ROTL64"
  | .rotr64 _ _ => "ROTR64"
  | .shuffle e _ => "SHUFFLE." ++ unitName e
  | .sample e _ _ => "SAMPLE." ++ unitName e
  | .samplewr e _ _ => "SAMPLEWR." ++ unitName e

/-- The operands of the textual form: a 128-bit value is one operand (R82), every other one is its word. -/
def operandValues (i : Instr) : List Nat :=
  match i with
  | .initLcg seed => [seed.toNat]
  | .initeLcg => []
  | .initpLcg seed mul inc modulus => [seed.toNat, mul.toNat, inc.toNat, modulus.toNat]
  | .nextLcg => []
  | .getstateLcg => []
  | .minLcg => []
  | .maxLcg => []
  | .nextnLcg n => [n.toNat]
  | .nextrLcg a b => [a.toNat, b.toNat]
  | .realLcg => []
  | .realrLcg a b => [a.toNat, b.toNat]
  | .headsLcg => []
  | .headswLcg weight => [weight.toNat]
  | .initPcg32 seed => [seed.toNat]
  | .initePcg32 => []
  | .initpPcg32 seed mul inc => [seed.toNat, mul.toNat, inc.toNat]
  | .nextPcg32 => []
  | .getstatePcg32 => []
  | .minPcg32 => []
  | .maxPcg32 => []
  | .nextnPcg32 n => [n.toNat]
  | .nextrPcg32 a b => [a.toNat, b.toNat]
  | .realPcg32 => []
  | .realrPcg32 a b => [a.toNat, b.toNat]
  | .headsPcg32 => []
  | .headswPcg32 weight => [weight.toNat]
  | .initPcg64 seedLo seedHi => [(wideOf seedLo seedHi).toNat]
  | .initePcg64 => []
  | .initpPcg64 seedLo seedHi mulLo mulHi incLo incHi => [(wideOf seedLo seedHi).toNat, (wideOf mulLo mulHi).toNat, (wideOf incLo incHi).toNat]
  | .nextPcg64 => []
  | .getstatePcg64 => []
  | .minPcg64 => []
  | .maxPcg64 => []
  | .nextnPcg64 n => [n.toNat]
  | .nextrPcg64 a b => [a.toNat, b.toNat]
  | .realPcg64 => []
  | .realrPcg64 a b => [a.toNat, b.toNat]
  | .headsPcg64 => []
  | .headswPcg64 weight => [weight.toNat]
  | .initSm64 seed => [seed.toNat]
  | .initeSm64 => []
  | .nextSm64 => []
  | .getstateSm64 => []
  | .minSm64 => []
  | .maxSm64 => []
  | .nextnSm64 n => [n.toNat]
  | .nextrSm64 a b => [a.toNat, b.toNat]
  | .realSm64 => []
  | .realrSm64 a b => [a.toNat, b.toNat]
  | .headsSm64 => []
  | .headswSm64 weight => [weight.toNat]
  | .initXo seed => [seed.toNat]
  | .initeXo => []
  | .nextXo => []
  | .getstateXo => []
  | .minXo => []
  | .maxXo => []
  | .nextnXo n => [n.toNat]
  | .nextrXo a b => [a.toNat, b.toNat]
  | .realXo => []
  | .realrXo a b => [a.toNat, b.toNat]
  | .headsXo => []
  | .headswXo weight => [weight.toNat]
  | .rotl32 value count => [value.toNat, count.toNat]
  | .rotr32 value count => [value.toNat, count.toNat]
  | .rotl64 value count => [value.toNat, count.toNat]
  | .rotr64 value count => [value.toNat, count.toNat]
  | .shuffle _ len => [len.toNat]
  | .sample _ n k => [n.toNat, k.toNat]
  | .samplewr _ n k => [n.toNat, k.toNat]

/-- The hexadecimal digits of a number, the most significant first; `fuel` is at least their count. -/
def hexDigits : Nat → Nat → List Char
  | 0, _ => []
  | fuel + 1, v => if v < 16 then [Nat.digitChar v] else hexDigits fuel (v / 16) ++ [Nat.digitChar (v % 16)]

/-- A `0x` literal (R82) of at most 32 digits. -/
def hexLiteral (v : Nat) : String := "0x" ++ String.ofList (hexDigits 32 v)

/-- The operands, separated by a comma and a space. -/
def joinOperands : List String → String
  | [] => ""
  | [a] => a
  | a :: rest => a ++ ", " ++ joinOperands rest

/-- The text of a command (R82). -/
def assemblyText (i : Instr) : String :=
  match operandValues i with
  | [] => mnemonicOf i
  | vs => mnemonicOf i ++ " " ++ joinOperands (vs.map hexLiteral)

end Sys2Proof.Machine
end

