-- ==== Sys2Proof/Tests/Slice0.lean ====
section
/-! SUPPORT. The model's own tests. Expected values come from the spec: the encodings of spec/30_encoding.md R79 and
R76, and the vectors of spec/95_test_vectors.md, whose section each test names. A vector that depends on the spec's
defaults runs the shared operations on `ref`, the reference configuration; `exec` itself runs on `Config.block`. At the
end, witnesses for the statements of Certificates/Slice0/Obligations.lean that have hypotheses. -/

namespace Sys2Proof.Tests

open Sys2Proof.Machine

/-! ## Helpers -/

/-- The defaults of the spec, KMAX = 10, and arbitrary bodies where it gives none. -/
def ref : Config := referenceConfig 3 9 (fun _ _ => 1) (fun x _ => x + 1) (fun _ _ => none)

/-- Status and result words of the response in a next state. -/
def answerOf (o : Host.Outcome State Fault Refusal) : Option (Nat × List Nat) :=
  match o with
  | .next s => s.response.map fun r => (r.status.toNat, r.words.map BitVec.toNat)
  | _ => none

/-- The next state (the reset state where there is none). -/
def after (o : Host.Outcome State Fault Refusal) : State :=
  match o with
  | .next s => s
  | _ => State.reset

/-- The reset state with one packet presented. -/
def presenting (h : Header) (ws : List Word) : State := { State.reset with inbox := [⟨⟨h, ws⟩, 0⟩] }

/-- A state with every engine constructed. -/
def ready : State :=
  { State.reset with
    lcg := ⟨7, 5, 3, 16⟩
    p32 := ⟨5, 1, 0x0800000000000000⟩
    p64 := ⟨0x2A, 1, 0⟩
    sm := 0
    xo := ⟨1, 2, 3, 4⟩
    valid := ⟨true, true, true, true, true⟩ }

/-- The LCG with the largest operands of section 2.2. -/
def largestLcg : State :=
  { State.reset with
    lcg := ⟨0xFFFFFFFFFFFFFFFF, 0xFFFFFFFFFFFFFFFF, 0xFFFFFFFFFFFFFFFF, 0x7FFFFFFFFFFFFFE7⟩ }

/-! ## WellFormed smoke: an ill-formed packet for each condition of R80, named and refused -/

theorem test_illegal_a_unit7 :
    Packet.unitReserved ⟨0x7000, []⟩ = true ∧ Packet.illegal ⟨0x7000, []⟩ = true ∧
      decode ⟨0x7000, []⟩ = .error .reservedUnit := by
  decide

theorem test_illegal_a_unit15 :
    Packet.unitReserved ⟨0xF300, []⟩ = true ∧ Packet.illegal ⟨0xF300, []⟩ = true ∧
      decode ⟨0xF300, []⟩ = .error .reservedUnit := by
  decide

theorem test_illegal_b_op7 :
    Packet.opReserved ⟨0x0700, []⟩ = true ∧ Packet.illegal ⟨0x0700, []⟩ = true ∧
      decode ⟨0x0700, []⟩ = .error .reservedOp := by
  decide

theorem test_illegal_b_op14 :
    Packet.opReserved ⟨0x0E00, []⟩ = true ∧ Packet.illegal ⟨0x0E00, []⟩ = true ∧
      decode ⟨0x0E00, []⟩ = .error .reservedOp := by
  decide

theorem test_illegal_b_rot4 :
    Packet.opReserved ⟨0x5400, [1, 1]⟩ = true ∧ Packet.illegal ⟨0x5400, [1, 1]⟩ = true ∧
      decode ⟨0x5400, [1, 1]⟩ = .error .reservedOp := by
  decide

theorem test_illegal_b_smp3 :
    Packet.opReserved ⟨0x6300, [1]⟩ = true ∧ Packet.illegal ⟨0x6300, [1]⟩ = true ∧
      decode ⟨0x6300, [1]⟩ = .error .reservedOp := by
  decide

theorem test_illegal_c_sm64 :
    Packet.initpAbsent ⟨0x3200, [1, 2, 3]⟩ = true ∧ Packet.illegal ⟨0x3200, [1, 2, 3]⟩ = true ∧
      decode ⟨0x3200, [1, 2, 3]⟩ = .error .absentInitp := by
  decide

theorem test_illegal_c_xo :
    Packet.initpAbsent ⟨0x4200, [1]⟩ = true ∧ Packet.illegal ⟨0x4200, [1]⟩ = true ∧
      decode ⟨0x4200, [1]⟩ = .error .absentInitp := by
  decide

theorem test_illegal_d_rsv :
    Packet.rsvNotZero ⟨0x3308, []⟩ = true ∧ Packet.illegal ⟨0x3308, []⟩ = true ∧
      decode ⟨0x3308, []⟩ = .error .reservedBits := by
  decide

theorem test_illegal_e_eng :
    Packet.engNotZero ⟨0x3301, []⟩ = true ∧ Packet.illegal ⟨0x3301, []⟩ = true ∧
      decode ⟨0x3301, []⟩ = .error .engineNotZero := by
  decide

theorem test_illegal_f_eng5 :
    Packet.engReserved ⟨0x6005, [5]⟩ = true ∧ Packet.illegal ⟨0x6005, [5]⟩ = true ∧
      decode ⟨0x6005, [5]⟩ = .error .reservedEngine := by
  decide

theorem test_illegal_g_more :
    Packet.countWrong ⟨0x3300, [7]⟩ = true ∧ Packet.illegal ⟨0x3300, [7]⟩ = true ∧
      decode ⟨0x3300, [7]⟩ = .error .operandCount := by
  decide

theorem test_illegal_g_fewer :
    Packet.countWrong ⟨0x2000, [42]⟩ = true ∧ Packet.illegal ⟨0x2000, [42]⟩ = true ∧
      decode ⟨0x2000, [42]⟩ = .error .operandCount := by
  decide

theorem test_illegal_g_five :
    Packet.countWrong ⟨0x0200, [1, 2, 3, 0, 0]⟩ = true ∧ Packet.illegal ⟨0x0200, [1, 2, 3, 0, 0]⟩ = true ∧
      decode ⟨0x0200, [1, 2, 3, 0, 0]⟩ = .error .operandCount := by
  decide

theorem test_illegal_step : answerOf (step (presenting 0x3200 [1, 2, 3])) = some (1, []) := by decide

/-! ## Decoding: every command's packet, its header copied from the match column of R79, its words numbered from 1 -/

theorem test_decode_lcg :
    decode ⟨0x0000, [1]⟩ = .ok (.initLcg 1) ∧
    decode ⟨0x0100, []⟩ = .ok .initeLcg ∧
    decode ⟨0x0200, [1, 2, 3, 4]⟩ = .ok (.initpLcg 1 2 3 4) ∧
    decode ⟨0x0300, []⟩ = .ok .nextLcg ∧
    decode ⟨0x0400, []⟩ = .ok .getstateLcg ∧
    decode ⟨0x0500, []⟩ = .ok .minLcg ∧
    decode ⟨0x0600, []⟩ = .ok .maxLcg ∧
    decode ⟨0x0800, [1]⟩ = .ok (.nextnLcg 1) ∧
    decode ⟨0x0900, [1, 2]⟩ = .ok (.nextrLcg 1 2) ∧
    decode ⟨0x0A00, []⟩ = .ok .realLcg ∧
    decode ⟨0x0B00, [1, 2]⟩ = .ok (.realrLcg 1 2) ∧
    decode ⟨0x0C00, []⟩ = .ok .headsLcg ∧
    decode ⟨0x0D00, [1]⟩ = .ok (.headswLcg 1) := by
  decide

theorem test_decode_pcg32 :
    decode ⟨0x1000, [1]⟩ = .ok (.initPcg32 1) ∧
    decode ⟨0x1100, []⟩ = .ok .initePcg32 ∧
    decode ⟨0x1200, [1, 2, 3]⟩ = .ok (.initpPcg32 1 2 3) ∧
    decode ⟨0x1300, []⟩ = .ok .nextPcg32 ∧
    decode ⟨0x1400, []⟩ = .ok .getstatePcg32 ∧
    decode ⟨0x1500, []⟩ = .ok .minPcg32 ∧
    decode ⟨0x1600, []⟩ = .ok .maxPcg32 ∧
    decode ⟨0x1800, [1]⟩ = .ok (.nextnPcg32 1) ∧
    decode ⟨0x1900, [1, 2]⟩ = .ok (.nextrPcg32 1 2) ∧
    decode ⟨0x1A00, []⟩ = .ok .realPcg32 ∧
    decode ⟨0x1B00, [1, 2]⟩ = .ok (.realrPcg32 1 2) ∧
    decode ⟨0x1C00, []⟩ = .ok .headsPcg32 ∧
    decode ⟨0x1D00, [1]⟩ = .ok (.headswPcg32 1) := by
  decide

theorem test_decode_pcg64 :
    decode ⟨0x2000, [1, 2]⟩ = .ok (.initPcg64 1 2) ∧
    decode ⟨0x2100, []⟩ = .ok .initePcg64 ∧
    decode ⟨0x2200, [1, 2, 3, 4, 5, 6]⟩ = .ok (.initpPcg64 1 2 3 4 5 6) ∧
    decode ⟨0x2300, []⟩ = .ok .nextPcg64 ∧
    decode ⟨0x2400, []⟩ = .ok .getstatePcg64 ∧
    decode ⟨0x2500, []⟩ = .ok .minPcg64 ∧
    decode ⟨0x2600, []⟩ = .ok .maxPcg64 ∧
    decode ⟨0x2800, [1]⟩ = .ok (.nextnPcg64 1) ∧
    decode ⟨0x2900, [1, 2]⟩ = .ok (.nextrPcg64 1 2) ∧
    decode ⟨0x2A00, []⟩ = .ok .realPcg64 ∧
    decode ⟨0x2B00, [1, 2]⟩ = .ok (.realrPcg64 1 2) ∧
    decode ⟨0x2C00, []⟩ = .ok .headsPcg64 ∧
    decode ⟨0x2D00, [1]⟩ = .ok (.headswPcg64 1) := by
  decide

theorem test_decode_sm64 :
    decode ⟨0x3000, [1]⟩ = .ok (.initSm64 1) ∧
    decode ⟨0x3100, []⟩ = .ok .initeSm64 ∧
    decode ⟨0x3300, []⟩ = .ok .nextSm64 ∧
    decode ⟨0x3400, []⟩ = .ok .getstateSm64 ∧
    decode ⟨0x3500, []⟩ = .ok .minSm64 ∧
    decode ⟨0x3600, []⟩ = .ok .maxSm64 ∧
    decode ⟨0x3800, [1]⟩ = .ok (.nextnSm64 1) ∧
    decode ⟨0x3900, [1, 2]⟩ = .ok (.nextrSm64 1 2) ∧
    decode ⟨0x3A00, []⟩ = .ok .realSm64 ∧
    decode ⟨0x3B00, [1, 2]⟩ = .ok (.realrSm64 1 2) ∧
    decode ⟨0x3C00, []⟩ = .ok .headsSm64 ∧
    decode ⟨0x3D00, [1]⟩ = .ok (.headswSm64 1) := by
  decide

theorem test_decode_xo :
    decode ⟨0x4000, [1]⟩ = .ok (.initXo 1) ∧
    decode ⟨0x4100, []⟩ = .ok .initeXo ∧
    decode ⟨0x4300, []⟩ = .ok .nextXo ∧
    decode ⟨0x4400, []⟩ = .ok .getstateXo ∧
    decode ⟨0x4500, []⟩ = .ok .minXo ∧
    decode ⟨0x4600, []⟩ = .ok .maxXo ∧
    decode ⟨0x4800, [1]⟩ = .ok (.nextnXo 1) ∧
    decode ⟨0x4900, [1, 2]⟩ = .ok (.nextrXo 1 2) ∧
    decode ⟨0x4A00, []⟩ = .ok .realXo ∧
    decode ⟨0x4B00, [1, 2]⟩ = .ok (.realrXo 1 2) ∧
    decode ⟨0x4C00, []⟩ = .ok .headsXo ∧
    decode ⟨0x4D00, [1]⟩ = .ok (.headswXo 1) := by
  decide

theorem test_decode_rot :
    decode ⟨0x5000, [1, 2]⟩ = .ok (.rotl32 1 2) ∧
    decode ⟨0x5100, [1, 2]⟩ = .ok (.rotr32 1 2) ∧
    decode ⟨0x5200, [1, 2]⟩ = .ok (.rotl64 1 2) ∧
    decode ⟨0x5300, [1, 2]⟩ = .ok (.rotr64 1 2) := by
  decide

theorem test_decode_smp :
    decode ⟨0x6004, [1]⟩ = .ok (.shuffle .xo 1) ∧
    decode ⟨0x6102, [1, 2]⟩ = .ok (.sample .pcg64 1 2) ∧
    decode ⟨0x6203, [1, 2]⟩ = .ok (.samplewr .sm64 1 2) := by
  decide

theorem test_decode_engines :
    decode ⟨0x6000, [1]⟩ = .ok (.shuffle .lcg 1) ∧ decode ⟨0x6001, [1]⟩ = .ok (.shuffle .pcg32 1) ∧
    decode ⟨0x6002, [1]⟩ = .ok (.shuffle .pcg64 1) ∧ decode ⟨0x6003, [1]⟩ = .ok (.shuffle .sm64 1) := by
  decide

theorem test_table_word_operands_zero : decodeTableWord 16 0x6104 = some (.sample .xo 0 0) := by decide

theorem test_table_word_operand_bits :
    decodeTableWord 144 (0x5200 + 9 * 2 ^ 16 + 4 * 2 ^ 80) = some (.rotl64 9 4) := by decide

theorem test_table_word_refused : decodeTableWord 16 0x6105 = none := by decide

theorem test_fetch_word :
    answerOf (step (State.reset.withFetchWord 80 (0x5200 + 9 * 2 ^ 16))) = some (0, [9]) := by decide

theorem test_text_next : assemblyText .nextSm64 = "NEXT.SM64" := by decide

/-! ## Steps from reset (section 2.9) -/

theorem test_step_unseeded : answerOf (step (presenting 0x3300 [])) = some (2, []) := by decide

theorem test_step_unseeded_before_operands : answerOf (step (presenting 0x3900 [9, 2])) = some (2, []) := by decide

theorem test_step_unseeded_before_range :
    answerOf (step (presenting 0x6103 [0x8000000000000000, 1])) = some (2, []) := by decide

theorem test_step_min : answerOf (step (presenting 0x3500 [])) = some (0, [0]) := by decide

theorem test_step_max_pcg32 : answerOf (step (presenting 0x1600 [])) = some (0, [0x00000000FFFFFFFF]) := by decide

theorem test_step_param : answerOf (step (presenting 0x0200 [1, 2, 3, 0])) = some (3, []) := by decide

theorem test_step_rotl64 :
    answerOf (step (presenting 0x5200 [0x123456789ABCDEF0, 4])) = some (0, [0x23456789ABCDEF01]) := by
  decide

theorem test_step_idle : after (step State.reset) = State.reset := by decide

theorem test_step_param_writes_nothing :
    (after (step (presenting 0x0200 [1, 2, 3, 0]))).valid = State.reset.valid := by decide

/-! ## ROT (section 2.1) -/

theorem test_rotl32_low :
    answerOf (exec (.rotl32 0x0000000080000001 33) State.reset) = some (0, [0x00000003]) := by decide

theorem test_rotl32_high :
    answerOf (exec (.rotl32 0x123456789ABCDEF0 0xFFFFFFFFFFFFFFFF) State.reset) = some (0, [0x4D5E6F78]) := by
  decide

theorem test_rotr32_low :
    answerOf (exec (.rotr32 0x0000000080000001 1) State.reset) = some (0, [0xC0000000]) := by decide

theorem test_rotr32_high :
    answerOf (exec (.rotr32 0x123456789ABCDEF0 68) State.reset) = some (0, [0x09ABCDEF]) := by decide

theorem test_rotl64_low :
    answerOf (exec (.rotl64 0x0000000080000001 31) State.reset) = some (0, [0x4000000080000000]) := by
  decide

theorem test_rotl64_high :
    answerOf (exec (.rotl64 0x123456789ABCDEF0 64) State.reset) = some (0, [0x123456789ABCDEF0]) := by
  decide

theorem test_rotr64_low :
    answerOf (exec (.rotr64 0x0000000080000001 33) State.reset) = some (0, [0x4000000080000000]) := by
  decide

theorem test_rotr64_high :
    answerOf (exec (.rotr64 0x123456789ABCDEF0 0xFFFFFFFFFFFFFFFF) State.reset) = some (0, [0x2468ACF13579BDE0]) := by
  decide

/-! ## Construction -/

theorem test_initp_pcg64_low_word_first :
    (after (exec (.initpPcg64 1 2 3 4 5 6) State.reset)).p64 =
      ⟨0x00000000000000020000000000000001, 0x00000000000000040000000000000003, 0x00000000000000060000000000000005⟩ := by
  decide

theorem test_initp_lcg_registers : (after (exec (.initpLcg 7 5 3 16) State.reset)).lcg = ⟨7, 5, 3, 16⟩ := by decide

theorem test_initp_pcg32_flag :
    (after (exec (.initpPcg32 7 5 3) State.reset)).valid = ⟨false, true, false, false, false⟩ := by decide

theorem test_inite_sm64_takes_low_entropy :
    (after (exec .initeSm64 { State.reset with ent := 0x00000000000000010000000000000002 })).sm = 2 := by
  decide

theorem test_init_lcg_defaults :
    ((after (exec (.initLcg 9) State.reset)).lcg.inc, (after (exec (.initLcg 9) State.reset)).lcg.modulus) =
      (0, 0x7FFFFFFFFFFFFFE7) := by
  decide

/-- Sections 1.2 and 2.6. -/
theorem test_init_xo_words :
    (loadXo ref 0 State.reset).xo = ⟨0x7B1DCDAF, 0xE220A839, 0xA1B965F4, 0x6E789E6A⟩ := by decide

/-- Section 1.2. -/
theorem test_init_xo_words_high_first :
    (loadXo { ref with xoSeedLowFirst := false } 0 State.reset).xo =
      ⟨0xE220A839, 0x7B1DCDAF, 0x6E789E6A, 0xA1B965F4⟩ := by
  decide

theorem test_init_xo_leaves_sm64 : (loadXo ref 0 State.reset).valid = ⟨false, false, false, false, true⟩ := by decide

/-! ## The generators (sections 2.2 to 2.6) -/

theorem test_lcg_small :
    outputs ref .lcg 6 { State.reset with lcg := ⟨7, 5, 3, 16⟩ } =
      [6, 1, 8, 11, 10, 5] := by decide

theorem test_lcg_exact : outputs ref .lcg 3 largestLcg =
      [0x992, 0x1D523, 0x59CBE4] := by decide

theorem test_lcg_wrapped :
    outputs { ref with lcgExact := false } .lcg 4 largestLcg =
      [0x0, 0x31, 0x0, 0x31] := by decide

theorem test_lcg_unreduced_seed :
    outputs ref .lcg 1 { State.reset with lcg := ⟨0x7FFFFFFFFFFFFFEC, 3, 1, 0x7FFFFFFFFFFFFFE7⟩ } =
      [0x10] := by
  decide

theorem test_lcg_modulus_one : outputs ref .lcg 2 { State.reset with lcg := ⟨9, 5, 3, 1⟩ } =
      [0, 0] := by decide

theorem test_pcg32_seed42 :
    outputs ref .pcg32 4 (loadPcg32 ref 42 State.reset) =
      [0x00000000, 0x75830BBD, 0x0E6DFDB2, 0xCE19AFDF] := by
  decide

theorem test_pcg32_all_ones :
    outputs ref .pcg32 4 (loadPcg32 ref 0xFFFFFFFFFFFFFFFF State.reset) =
      [0xFFF00001, 0xEA6F52EC, 0xBC82E8D4, 0xD57BFF22] := by
  decide

theorem test_pcg32_state :
    (drawTimes ref .pcg32 1 (loadPcg32 ref 42 State.reset)).p32.state = 0x91778AED87EE5EB1 := by decide

theorem test_pcg64_seed42 :
    outputs ref .pcg64 4 (loadPcg64 ref 42 State.reset) =
      [0x000000000000002A, 0x4080E27A82D6139A, 0xED42E8082E7BBA0D, 0x7CF86E0E9CC70BB2] := by
  decide

theorem test_pcg64_all_ones :
    outputs ref .pcg64 3 (loadPcg64 ref 0xFFFFFFFFFFFFFFFFFFFFFFFFFFFFFFFF State.reset) =
      [0x0000000000000000, 0x54172474D993DAAD, 0x8BD69346B5CAE7A6] := by
  decide

theorem test_pcg64_state :
    (drawTimes ref .pcg64 1 (loadPcg64 ref 42 State.reset)).p64.state = 0x2638D7048320DC2027FC22012F07E8A1 := by
  decide

theorem test_sm64_seed0 :
    outputs ref .sm64 4 (loadSm64 0 State.reset) =
      [0xE220A8397B1DCDAF, 0x6E789E6AA1B965F4, 0x06C45D188009454F, 0xF88BB8A8724C81EC] := by
  decide

theorem test_sm64_zero_output :
    outputs ref .sm64 2 (loadSm64 0x61C8864680B583EB State.reset) =
      [0x0000000000000000, 0xE220A8397B1DCDAF] := by
  decide

/-- The state (1, 2, 3, 4); the rejected parallel reading gives 41943141 second (conflict C1). -/
theorem test_xo_sequential :
    outputs ref .xo 4 { State.reset with xo := ⟨1, 2, 3, 4⟩ } =
      [41943041, 58720359, 3588806011781223, 3591011842654386] := by
  decide

theorem test_xo_state :
    (xoNext ⟨0xFFFFFFFFFFFFFFFF, 0xFFFFFFFFFFFFFFFF, 0xFFFFFFFFFFFFFFFF, 0xFFFFFFFFFFFFFFFF⟩).2 =
      ⟨0xFFFFFFFFFFFFFFFF, 0xFFFFFFFFFFFFFFFF, 0xFFFFFFFFFFFE0000, 0⟩ := by
  decide

theorem test_xo_seeded :
    outputs ref .xo 3 (loadXo ref 0 State.reset) =
      [0x0074CB36879DCDAF, 0x007BA307BAC9612C, 0x73D840F962866DD5] := by
  decide

theorem test_getstate_lcg_exec : answerOf (exec .getstateLcg ready) = some (0, [7]) := by decide

theorem test_getstate_xo_exec : answerOf (exec .getstateXo ready) = some (0, [1, 2, 3, 4]) := by decide

theorem test_getstate_pcg64_exec :
    answerOf (exec .getstatePcg64 { ready with p64 := ⟨0x00000000000000020000000000000001, 1, 0⟩ }) =
      some (0, [1, 2]) := by
  decide

theorem test_next_xo_exec : answerOf (exec .nextXo ready) = some (0, [41943041]) := by decide

theorem test_next_pcg64_exec : answerOf (exec .nextPcg64 ready) = some (0, [0x2A]) := by decide

/-! ## Derived commands (section 2.7), on `ref` after `INIT.SM64 0` unless named -/

theorem test_nextr :
    answerOf (nextrCommand ref .sm64 0xFFFFFFFFFFFFFFFB 5 (loadSm64 0 State.reset)) =
      some (0, [0]) := by
  decide

theorem test_nextr_widest :
    answerOf (nextrCommand ref .sm64 0x8000000000000000 0x7FFFFFFFFFFFFFFF (loadSm64 0 State.reset)) =
      some (0, [0x6220A8397B1DCDAF]) := by
  decide

theorem test_nextr_empty :
    answerOf (nextrCommand ref .sm64 9 2 (loadSm64 0 State.reset)) =
      some (0, [9]) := by decide

theorem test_nextr_empty_makes_no_draw :
    (after (nextrCommand ref .sm64 7 7 (loadSm64 0 State.reset))).sm = 0 := by decide

theorem test_nextr_pcg32 :
    answerOf (nextrCommand ref .pcg32 0 10 (draw ref .pcg32 (loadPcg32 ref 42 State.reset)).2) =
      some (0, [3]) := by
  decide

theorem test_nextn : answerOf (nextnCommand ref .sm64 10 (loadSm64 0 State.reset)) =
      some (0, [5]) := by decide

theorem test_nextn_negative :
    answerOf (nextnCommand ref .sm64 0xFFFFFFFFFFFFFFFF (loadSm64 0 State.reset)) =
      some (0, [0]) := by
  decide

theorem test_nextn_one_makes_a_draw :
    (after (nextnCommand ref .sm64 1 (loadSm64 0 State.reset))).sm = 0x9E3779B97F4A7C15 := by decide

theorem test_real_sm64 :
    answerOf (realCommand ref .sm64 (loadSm64 0 State.reset)) =
      some (0, [0x3FEC4415072F63B9]) := by
  decide +kernel

theorem test_real_pcg32 :
    answerOf (realCommand ref .pcg32 (loadPcg32 ref 42 State.reset)) =
      some (0, [0x3DE0000000000000]) := by
  decide +kernel

theorem test_real_largest :
    numUnit ref 32 0xFFFFFFFF = 0x3FEFFFFFFFF00000 ∧ numUnit ref 64 0xFFFFFFFFFFFFFFFF = 0x3FEFFFFFFFFFFFFF := by
  decide +kernel

theorem test_realr :
    answerOf (realrCommand ref .sm64 0x4000000000000000 0x4024000000000000 (loadSm64 0 State.reset)) =
      some (0, [0x4022220A8397B1DC]) := by
  decide +kernel

theorem test_realr_equal_bounds :
    answerOf (realrCommand ref .sm64 0x4008000000000000 0x4008000000000000 (loadSm64 0 State.reset)) =
      some (0, [0x4008000000000000]) := by
  decide +kernel

theorem test_heads :
    answerOf (headsCommand ref .sm64 (loadSm64 0 State.reset)) =
      some (0, [0]) := by decide +kernel

theorem test_heads_second :
    answerOf (headsCommand ref .sm64 (draw ref .sm64 (loadSm64 0 State.reset)).2) =
      some (0, [1]) := by
  decide +kernel

theorem test_headsw :
    answerOf (headswCommand ref .sm64 0x3FECCCCCCCCCCCCD (loadSm64 0 State.reset)) =
      some (0, [1]) := by
  decide +kernel

theorem test_headsw_negative_zero :
    answerOf (headswCommand ref .sm64 0x8000000000000000 (loadSm64 0 State.reset)) =
      some (0, [0]) := by
  decide +kernel

theorem test_headsw_infinity :
    answerOf (headswCommand ref .sm64 0x7FF0000000000000 (loadSm64 0 State.reset)) =
      some (0, [1]) := by
  decide +kernel

theorem test_headsw_draws_whatever_the_weight :
    (after (headswCommand ref .sm64 0 (loadSm64 0 State.reset))).sm = 0x9E3779B97F4A7C15 := by decide +kernel

/-! ## The sequence controller (section 2.8) -/

theorem test_shuffle :
    answerOf (shuffleCommand ref .sm64 5 (loadSm64 0 State.reset)) =
      some (0, [0, 1, 3, 2, 4]) := by
  decide

theorem test_shuffle_draws :
    (after (shuffleCommand ref .sm64 5 (loadSm64 0 State.reset))).sm = 0x78DDE6E5FD29F054 := by decide

/-- KMAX is 10 in `ref`. -/
theorem test_shuffle_too_long :
    answerOf (shuffleCommand ref .sm64 11 (loadSm64 0 State.reset)) = some (4, []) := by decide

theorem test_sample_all :
    answerOf (sampleCommand ref .sm64 3 5 (loadSm64 0 State.reset)) =
      some (0, [1, 0, 2]) := by
  decide

theorem test_sample_population_bound :
    answerOf (sampleCommand ref .sm64 0x8000000000000000 1 (loadSm64 0 State.reset)) = some (4, []) := by
  decide

/-- Vector L-2: the stipulated answers 2, 0, 5 of `NUM.skip`. -/
theorem test_sample_algorithm_l :
    answerOf (sampleCommand
      { ref with skipRaw := fun _ w => if w = 1 then some 2 else if w = 2 then some 0 else some 5 } .sm64 10 3
      (loadSm64 0 State.reset)) =
      some (0, [6, 5, 2]) := by
  decide

/-- Vector L-3: `NUM.skip` answers INF at once. -/
theorem test_sample_skip_infinity :
    answerOf (sampleCommand ref .sm64 10 3 (loadSm64 0 State.reset)) =
      some (0, [0, 1, 2]) := by
  decide

theorem test_samplewr :
    answerOf (samplewrCommand ref .sm64 10 4 (loadSm64 0 State.reset)) =
      some (0, [5, 0, 9, 4]) := by
  decide

theorem test_samplewr_empty_population :
    answerOf (samplewrCommand ref .sm64 0 3 (loadSm64 0 State.reset)) =
      some (0, [0, 0, 0]) := by
  decide

/-! ## The index RAM -/

theorem test_res_reads_back :
    Memory.read (Memory.write (Memory.write [] 3 7) 1 9) 3 = 7 ∧
      Memory.write (Memory.write [] 3 7) 1 9 = [(1, 9), (3, 7)] ∧
      Memory.write [(1, 9), (3, 7)] 1 0 = [(3, 7)] := by
  decide

/-! ## Witnesses: a state and operands that meet the hypotheses of each statement that has some -/

theorem witness_EncodeOfDecodeGivesThePacketBack : decode ⟨0x6004, [5]⟩ = .ok (.shuffle .xo 5) := by decide

theorem witness_IllegalPackets_illegal :
    (presenting 0x7000 []).inbox = [⟨⟨0x7000, []⟩, 0⟩] ∧ Packet.illegal ⟨0x7000, []⟩ = true := by
  decide

theorem witness_IllegalPackets_legal :
    (presenting 0x5000 [1, 2]).inbox = [⟨⟨0x5000, [1, 2]⟩, 0⟩] ∧
      Packet.illegal ⟨0x5000, [1, 2]⟩ = false ∧ answerOf (step (presenting 0x5000 [1, 2])) = some (0, [4]) := by
  decide

theorem witness_NoParameterisedConstructor :
    (presenting 0x3200 [1]).inbox = [⟨⟨0x3200, [1]⟩, 0⟩] ∧ (presenting 0x4200 []).inbox = [⟨⟨0x4200, []⟩, 0⟩] := by
  decide

theorem witness_StepRunsTheDecodedCommand :
    (presenting 0x3000 [7]).inbox = [⟨⟨0x3000, [7]⟩, 0⟩] ∧ decode ⟨0x3000, [7]⟩ = .ok (.initSm64 7) := by
  decide

theorem witness_StepWithNothingPresentedIsIdle : State.reset.inbox = [] := rfl

/-- Counts at the edges: a multiple of the width, and 1 and 31 or 63. -/
theorem witness_RotationsMoveEachBit :
    ((32 : Nat) = 32 ∨ (32 : Nat) = 64) ∧ 32 % 32 = 0 ∧ 31 % 32 ≠ 0 ∧ 64 % 64 = 0 ∧ 63 % 64 ≠ 0 ∧ 31 < 32 := by
  decide

theorem witness_RotationLaws : (64 : Nat) = 32 ∨ (64 : Nat) = 64 := by decide

theorem witness_InitpWritesItsOperands : (1 : Word) ≠ 0 ∧ (0xFFFFFFFFFFFFFFFF : Word) ≠ 0 := by decide

theorem witness_SeedWordsAreHalvesOfTwoDraws :
    ref.xoSeedLowFirst = true ∧ { ref with xoSeedLowFirst := false }.xoSeedLowFirst = false := by
  decide

theorem witness_Unseeded_answered :
    needsEngine .nextLcg = some .lcg ∧ State.reset.constructed .lcg = false ∧
      needsEngine (.sample .xo 0 0) = some .xo ∧ State.reset.constructed .xo = false := by
  decide

theorem witness_Unseeded_converse : answerOf (exec .nextLcg State.reset) = some (2, []) := by decide

theorem witness_OnlyZeroModulusIsRefused : answerOf (exec (.initpLcg 1 2 3 0) State.reset) = some (3, []) := by decide

theorem ready_ready (i : Instr) : engineReady i ready := by
  intro e _; cases e <;> rfl

/-- The first length out of bounds for every KMAX, and the first just out of bounds. -/
theorem witness_Range_outside :
    ¬ inBounds Config.block (.shuffle .lcg 0xFFFFFFFFFFFFFFFF) ∧
      ¬ inBounds Config.block (.shuffle .lcg (BitVec.ofNat 64 (kmax Config.block + 1))) ∧
      ¬ inBounds Config.block (.sample .lcg 0x8000000000000000 1) ∧
      ¬ inBounds Config.block (.samplewr .lcg 1 (BitVec.ofNat 64 (kmax Config.block + 1))) := by
  have h := kmax_bounds Config.block
  refine ⟨?_, ?_, ?_, ?_⟩ <;> simp [inBounds] <;> omega

/-- The largest operands within bounds. -/
theorem witness_Accepted_inBounds :
    inBounds Config.block (.shuffle .lcg (BitVec.ofNat 64 (kmax Config.block))) ∧
      inBounds Config.block (.sample .lcg 0x7FFFFFFFFFFFFFFF 1) ∧
      inBounds Config.block (.samplewr .lcg 0x7FFFFFFFFFFFFFFF (BitVec.ofNat 64 (kmax Config.block))) ∧
      inBounds Config.block .nextLcg ∧ ¬ zeroModulus (.initpLcg 0 0 0 1) := by
  have h := kmax_bounds Config.block
  refine ⟨?_, ?_, ?_, trivial, by simp [zeroModulus]⟩ <;> simp [inBounds] <;> omega

/-- An out-of-bounds command does answer `E_RANGE`. -/
theorem witness_Range_converse :
    answerOf (exec (.sample .lcg 0x8000000000000000 1) ready) = some (4, []) := by
  simp [exec, execSample, sampleCommand, whenConstructed, State.constructed, ready, raise, answerOf, statusCode]

theorem witness_RefusedCommandsLeaveTheStateAlone :
    answerOf (exec .nextXo State.reset) = some (2, []) ∧ (2 : BitVec 8) ≠ 0 := by
  decide

/-- Steps that do not answer `OK`: on an engine not constructed, and on an illegal packet. -/
theorem witness_RefusedCommands_step :
    (presenting 0x3300 []).inbox = [⟨⟨0x3300, []⟩, 0⟩] ∧ answerOf (step (presenting 0x3300 [])) = some (2, []) ∧
      (presenting 0x7000 []).inbox = [⟨⟨0x7000, []⟩, 0⟩] ∧ answerOf (step (presenting 0x7000 [])) = some (1, []) := by
  decide

theorem witness_constructed (e : Engine) : ready.constructed e = true := by cases e <;> rfl

theorem witness_GetstateAnswersTheRawState : ready.valid = ⟨true, true, true, true, true⟩ := rfl

/-- Both clauses at their common boundary, and the widest range. -/
theorem witness_RangedDraws :
    (7 : Word).toInt ≤ (7 : Word).toInt ∧ (7 : Word).toInt < (8 : Word).toInt ∧
      (0x8000000000000000 : Word).toInt < (0x7FFFFFFFFFFFFFFF : Word).toInt := by
  decide

theorem witness_NextnAnswersBelowItsBound :
    (0 : Word).toInt ≤ 0 ∧ (0xFFFFFFFFFFFFFFFF : Word).toInt ≤ 0 ∧ (0 : Int) < (1 : Word).toInt := by
  decide

theorem witness_RangeMap_any :
    ∀ (width : Nat) (raw span : Word), span ≠ 0 →
      ((fun _ _ _ => 0 : Nat → Word → Word → Word) width raw span).toNat < span.toNat := by
  intro _ _ span h
  exact Nat.pos_of_ne_zero fun h0 => h (by simpa using BitVec.eq_of_toNat_eq (y := 0) h0)

/-- A configuration that keeps the document's promise. -/
theorem witness_LerpPromise_config : LerpHalfOpen { ref with lerpRaw := fun a _ _ => a } := by
  intro a b r ha _ _ hab _ _
  exact ⟨ha, Int.le_refl _, hab⟩

theorem witness_LerpPromise_bounds :
    f64IsFinite 0 = true ∧ f64IsFinite f64One = true ∧ f64Scaled 0 < f64Scaled f64One := by
  decide +kernel

/-- A weight of each clause: 0, 1.0 and the infinities and a NaN. -/
theorem witness_Headsw :
    (f64IsFinite 0 = true ∧ f64Scaled 0 ≤ 0) ∧ (f64IsFinite f64One = true ∧ 2 ^ 1074 ≤ f64Scaled f64One) ∧
      f64IsNaN 0x7FF8000000000000 = true := by
  decide +kernel

/-- Finite patterns up to the largest, and an infinity, which is neither finite nor a NaN. -/
theorem witness_LessThan :
    f64IsFinite 0 = true ∧ f64IsFinite 0x7FEFFFFFFFFFFFFF = true ∧ f64IsFinite 0x7FF0000000000000 = false ∧
      f64IsNaN 0x7FF0000000000000 = false := by
  decide

theorem witness_ReferenceUnit : (0 : Word).toNat < 2 ^ 32 ∧ (0xFFFFFFFF : Word).toNat < 2 ^ 32 := by decide

theorem witness_Reconstruction_initp :
    answerOf (exec .getstateLcg ready) = some (0, [7]) ∧ ready.lcg.modulus ≠ 0 ∧
      answerOf (exec .getstatePcg32 ready) = some (0, [5]) ∧
      answerOf (exec .getstatePcg64 ready) = some (0, [0x2A, 0]) ∧
      answerOf (exec .getstateSm64 ready) = some (0, [0]) := by
  decide

/-- An engine with the default parameters answers its state too. -/
theorem witness_Reconstruction_init :
    (∃ g, exec .getstateLcg (loadLcg Config.block 7 State.reset) = .next g ∧ g.response = some ⟨0, [7]⟩) ∧
      (loadLcg Config.block 7 State.reset).lcg = ⟨7, Config.block.lcgDefaultMul, 0, 0x7FFFFFFFFFFFFFE7⟩ ∧
      (∃ g, exec .getstatePcg32 (loadPcg32 Config.block 7 State.reset) = .next g ∧ g.response = some ⟨0, [7]⟩) ∧
      (loadPcg32 Config.block 7 State.reset).p32 =
        ⟨7, Config.block.pcg32DefaultMul, Config.block.pcg32DefaultInc⟩ ∧
      (∃ g, exec .getstatePcg64 (loadPcg64 Config.block 7 State.reset) = .next g ∧ g.response = some ⟨0, [7, 0]⟩) ∧
      (loadPcg64 Config.block 7 State.reset).p64 =
        ⟨7, Config.block.pcg64DefaultMul, Config.block.pcg64DefaultInc⟩ :=
  ⟨⟨_, rfl, rfl⟩, rfl, ⟨_, rfl, rfl⟩, rfl, ⟨_, rfl, rfl⟩, rfl⟩

theorem witness_LcgDraw : ready.valid.lcg = true ∧ ready.lcg.modulus ≠ 0 := by decide

/-- The clauses of R168: increment 0 with a multiple of the modulus, the state 0, modulus 1, multiplier 0. -/
theorem witness_LcgRangeAndFixedPoints :
    ref.lcgExact = true ∧ (⟨32, 5, 0, 16⟩ : Lcg).inc = 0 ∧
      (⟨32, 5, 0, 16⟩ : Lcg).modulus.toNat ∣ (⟨32, 5, 0, 16⟩ : Lcg).state.toNat ∧
      (⟨0, 5, 0, 16⟩ : Lcg).state = 0 ∧ (⟨0, 5, 0, 16⟩ : Lcg).modulus.toNat ∣ (⟨0, 5, 0, 16⟩ : Lcg).state.toNat ∧
      (⟨9, 5, 3, 1⟩ : Lcg).modulus = 1 ∧ (⟨9, 0, 7, 16⟩ : Lcg).mul = 0 ∧ (⟨9, 0, 7, 16⟩ : Lcg).modulus ≠ 0 := by
  decide

theorem witness_Pcg32OutputFacts :
    ref.pcg32Xs1.val = 18 ∧ ref.pcg32Xs2.val = 27 ∧ (0x7FFFFFF : Word).toNat < 2 ^ 27 ∧
      (0x7FFFFFFFFFFFFFF : Word).toNat < 2 ^ 59 := by
  decide

theorem witness_Pcg64OutputFacts : (0x03FFFFFFFFFFFFFFFFFFFFFFFFFFFFFF : Wide).toNat < 2 ^ 122 := by decide

theorem witness_SplitMixStateIsACounter : 0 < 2 ^ 64 - 1 ∧ 2 ^ 64 - 1 < 2 ^ 64 := by decide

theorem witness_Frames_construction :
    ∃ t, exec (.initSm64 7) State.reset = .next t ∧ ownEngine (.initSm64 7) ≠ some .xo := ⟨_, rfl, by decide⟩

theorem witness_Frames_other :
    ∃ t, exec .nextXo ready = .next t ∧ isConstruction .nextXo = false ∧ ready.constructed .lcg = true :=
  ⟨_, rfl, rfl, rfl⟩

/-- Two states that agree on `XO` and on `ENT` only, and a command of `XO`. -/
theorem witness_CommandsReadOnlyTheirOwnEngine :
    ownEngine .nextXo = some .xo ∧
      sameRegisters .xo ready { ready with sm := 5, lcg := ⟨1, 2, 3, 4⟩, res := [(0, 1)] } ∧
      ready.constructed .xo = { ready with sm := 5, lcg := ⟨1, 2, 3, 4⟩, res := [(0, 1)] }.constructed .xo ∧
      ∃ t, exec .nextXo ready = .next t :=
  ⟨rfl, rfl, rfl, _, rfl⟩

/-- A shuffle of one position completes; entry 1 is the first that it may not write. -/
theorem witness_shuffle_one :
    ∃ t words, exec (.shuffle .lcg 1) ready = .next t ∧ t.response = some ⟨0, words⟩ ∧
      writtenEntries (.shuffle .lcg 1) = 1 := by
  have h := kmax_bounds Config.block
  obtain ⟨m, words, hb, -⟩ := shuffleBody_eq Config.block .lcg (1 : Word).toNat ready (by simpa using h.1)
  refine ⟨((drawTimes Config.block .lcg ((1 : Word).toNat - 1) ready).withRes m).withResponse ⟨0, words⟩, words, ?_,
    rfl, rfl⟩
  show shuffleCommand Config.block .lcg 1 ready = _
  unfold shuffleCommand
  rw [whenConstructed_of rfl, if_neg (show ¬ (1 : Word).toNat > kmax Config.block from Nat.not_lt.2 h.1), hb]
  rfl

theorem witness_ShuffleApplies : [(5 : Nat)].length = (1 : Word).toNat := by decide

theorem witness_Unspecified_states :
    sameButUnspecified (presenting 0x3300 []) { presenting 0x3300 [] with sm := 5, res := [(0, 1)] } ∧
      ∃ t, step (presenting 0x3300 []) = .next t :=
  ⟨⟨rfl, rfl, rfl, rfl, fun e h => by cases e <;> exact absurd h (by decide)⟩, _, rfl⟩

/-- A sound state other than reset, and its step. -/
theorem witness_EveryStepKeepsTheStateSound :
    ready.Sound Config.block ∧ ∃ t, step { ready with inbox := [⟨⟨0x4300, []⟩, 0⟩] } = .next t := by
  refine ⟨⟨?_, ?_, ?_, ?_, ?_⟩, _, rfl⟩
  · exact ⟨List.Pairwise.nil, fun _ h => absurd h List.not_mem_nil⟩
  · exact fun _ h => absurd h List.not_mem_nil
  · decide
  · decide
  · intro r h; cases h

/-- `SHUFFLE`'s lengths at the edges: 0, 1 and KMAX. -/
theorem witness_Shuffle_bounds :
    (0 : Word).toNat ≤ kmax Config.block ∧ (1 : Word).toNat ≤ kmax Config.block ∧
      (BitVec.ofNat 64 (kmax Config.block)).toNat ≤ kmax Config.block := by
  have h := kmax_bounds Config.block
  refine ⟨by simp, by simpa using h.1, ?_⟩
  simp; omega

/-- `SAMPLE` with k = n, with 1 <= k < n at the largest n, and with k = 0. -/
theorem witness_Sample_bounds :
    (1 : Word).toNat < 2 ^ 63 ∧ min (1 : Word).toNat (1 : Word).toNat ≤ kmax Config.block ∧
      0 < (1 : Word).toNat ∧ (1 : Word).toNat < (0x7FFFFFFFFFFFFFFF : Word).toNat ∧
      (0x7FFFFFFFFFFFFFFF : Word).toNat < 2 ^ 63 ∧ (1 : Word).toNat ≤ kmax Config.block ∧
      min (0x7FFFFFFFFFFFFFFF : Word).toNat (0 : Word).toNat ≤ kmax Config.block := by
  have h := kmax_bounds Config.block
  refine ⟨by decide, by simpa using h.1, by decide, by decide, by decide, by simpa using h.1, by simp⟩

theorem witness_Samplewr_bounds :
    (0x7FFFFFFFFFFFFFFF : Word).toNat < 2 ^ 63 ∧ (0x7FFFFFFFFFFFFFFF : Word) ≠ 0 ∧ (0 : Word).toNat < 2 ^ 63 ∧
      (BitVec.ofNat 64 (kmax Config.block)).toNat ≤ kmax Config.block := by
  have h := kmax_bounds Config.block
  refine ⟨by decide, by decide, by decide, ?_⟩
  simp; omega

/-- Each of the three commands completes on `ready`, in bounds and out of them. -/
theorem witness_SequenceDraws :
    (∃ t, exec (.shuffle .xo 2) ready = .next t) ∧ (∃ t, exec (.sample .xo 2 1) ready = .next t) ∧
      (∃ t, exec (.sample .xo 0x8000000000000000 1) ready = .next t) ∧
      (∃ t, exec (.samplewr .xo 2 1) ready = .next t) := by
  refine ⟨?_, ?_, ?_, ?_⟩
  · have h := exec_shape (.shuffle .xo 2) ready
    generalize exec (.shuffle .xo 2) ready = o at h ⊢
    cases h <;> exact ⟨_, rfl⟩
  · have h := exec_shape (.sample .xo 2 1) ready
    generalize exec (.sample .xo 2 1) ready = o at h ⊢
    cases h <;> exact ⟨_, rfl⟩
  · have h := exec_shape (.sample .xo 0x8000000000000000 1) ready
    generalize exec (.sample .xo 0x8000000000000000 1) ready = o at h ⊢
    cases h <;> exact ⟨_, rfl⟩
  · have h := exec_shape (.samplewr .xo 2 1) ready
    generalize exec (.samplewr .xo 2 1) ready = o at h ⊢
    cases h <;> exact ⟨_, rfl⟩

/-- The conditions of R271: not constructed, and in bounds with k = 0, with 1 <= n = k and with 1 <= k < n. -/
theorem witness_SequenceDraws_conditions :
    State.reset.constructed .xo = false ∧ (∃ t, exec (.sample .xo 2 1) State.reset = .next t) ∧
      ready.constructed .xo = true ∧ inBounds Config.block (.sample .xo 2 0) ∧
      inBounds Config.block (.sample .xo 1 1) ∧ inBounds Config.block (.sample .xo 2 1) ∧
      ¬ inBounds Config.block (.sample .xo 0x8000000000000000 1) := by
  have h := kmax_bounds Config.block
  refine ⟨rfl, ⟨_, rfl⟩, rfl, ?_, ?_, ?_, ?_⟩ <;> simp [inBounds] <;> omega

end Sys2Proof.Tests
end

/-! ## Presentation and the step (spec/00_scope.md R10, spec/20_memory.md R57) -/

namespace Sys2Proof.Proofs

open Sys2Proof.Machine

/-- Presenting takes the first input and puts its `ENT` value on the entropy input. -/
theorem present_of_inbox_cons {s : State} {p : Packet} {e : Wide} {rest : List Input}
    (hinbox : s.inbox = ⟨p, e⟩ :: rest) : present s = some (p, s.withInput rest e) := by
  simp only [present, hinbox]

/-- Once a packet is presented and decodes, the step is the execution of its command. -/
theorem step_of_present_decode {s t : State} {p : Packet} {i : Instr}
    (hpresent : present s = some (p, t)) (hdecode : decode p = .ok i) : step s = exec i t := by
  simp only [step, hpresent, hdecode]

/-- Settles O7: `State.withInput` is the statement's state, and the presented packet's command is executed in it. -/
theorem stepRunsTheDecodedCommand : Obligations.StepRunsTheDecodedCommand := by
  unfold Obligations.StepRunsTheDecodedCommand
  intro s p e rest i hinbox hdecode
  calc step s = exec i (s.withInput rest e) := step_of_present_decode (present_of_inbox_cons hinbox) hdecode
    _ = exec i { s with inbox := rest, ent := e } := by rw [State.withInput]

end Sys2Proof.Proofs

/-! ## What a command can do to the state (spec/10_state.md R26, R27, R29, R31) -/

namespace Sys2Proof.Proofs

open Sys2Proof.Machine

/-- `u` comes from `s` by the construction of engine `e` (R123), the response apart: its flag is set, its registers hold
values that R162 and R235 allow, and everything else is as before. -/
structure ConstructedFrom (e : Engine) (s u : State) : Prop where
  others : ∀ d, d ≠ e → sameRegisters d s u
  flags : ∀ d, u.constructed d = if d = e then true else s.constructed d
  res : u.res = s.res
  inbox : u.inbox = s.inbox
  ent : u.ent = s.ent
  modulus : e = .lcg → u.lcg.modulus ≠ 0
  expanded : e = .xo → ∃ seed, u.xo = xoExpand Config.block seed

theorem ConstructedFrom.other_engine {e d : Engine} {s u : State} (hu : ConstructedFrom e s u) (hd : d ≠ e) :
    sameRegisters d s u ∧ u.constructed d = s.constructed d :=
  ⟨hu.others d hd, by rw [hu.flags, if_neg hd]⟩

/-- The inversion of `exec`: it answers an error and writes nothing, it constructs its engine, or it makes draws of its
engine alone (none unless that engine is constructed) and writes `RES` below `writtenEntries`. -/
theorem exec_next_cases {i : Instr} {s t : State} (h : exec i s = .next t) :
    (∃ st, t = s.withResponse ⟨statusCode st, []⟩) ∨
    (∃ e u, isConstruction i = true ∧ ownEngine i = some e ∧ ConstructedFrom e s u ∧
      t = u.withResponse ⟨statusCode .ok, []⟩) ∨
    (∃ e count m words, isConstruction i = false ∧ (count ≠ 0 → ownEngine i = some e ∧ s.constructed e = true) ∧
      Memory.WritesBelow Config.block (writtenEntries i) s.res m ∧
      t = ((drawTimes Config.block e count s).withRes m).withResponse ⟨statusCode .ok, words⟩) := by
  have hshape : Shape i s (.next t) := h ▸ exec_shape i s
  cases hshape with
  | unseeded | param | range => exact .inl ⟨_, rfl⟩
  | built e u hconstr hown _ _ hothers hvalid hres hinbox hent hmod hxo =>
    have hflags (d : Engine) : u.constructed d = if d = e then true else s.constructed d := by
      rw [constructed_congr hvalid, State.construct_constructed]
    exact .inr (.inl ⟨e, u, hconstr, hown, ⟨hothers, hflags, hres, hinbox, hent, hmod, hxo⟩, rfl⟩)
  | performed e count m words hconstr _ _ _ hdraws hwrites =>
    exact .inr (.inr ⟨e, count, m, words, hconstr, hdraws, hwrites, rfl⟩)

@[simp] theorem drawTimes_constructed (c : Config) (e d : Engine) (count : Nat) (s : State) :
    (drawTimes c e count s).constructed d = s.constructed d :=
  constructed_congr (drawTimes_valid c e count s) d

theorem exec_inputs {i : Instr} {s t : State} (h : exec i s = .next t) : t.inbox = s.inbox ∧ t.ent = s.ent := by
  rcases exec_next_cases h with ⟨_, rfl⟩ | ⟨e, u, _, _, hu, rfl⟩ | ⟨e, count, m, words, _, _, _, rfl⟩
  · exact ⟨rfl, rfl⟩
  · exact ⟨hu.inbox, hu.ent⟩
  · simp

/-- An engine that is not the command's own keeps its registers and its flag (R26, R29). -/
theorem exec_other_engine {i : Instr} {s t : State} {d : Engine} (h : exec i s = .next t)
    (hd : ownEngine i ≠ some d) : sameRegisters d s t ∧ t.constructed d = s.constructed d := by
  rcases exec_next_cases h with ⟨_, rfl⟩ | ⟨e, u, _, hown, hu, rfl⟩ | ⟨e, count, m, words, _, hdraws, _, rfl⟩
  · simp
  · simpa using hu.other_engine fun hde : d = e => hd (hde ▸ hown)
  · by_cases hcount : count = 0
    · simp [hcount]
    · have hne : d ≠ e := fun hde => hd (hde ▸ (hdraws hcount).1)
      simpa using drawTimes_sameRegisters _ e d count s hne

/-- Settles O47, from the frame of the engines and the frame of the inputs. -/
theorem commandsTouchOnlyTheirOwnEngine : Obligations.CommandsTouchOnlyTheirOwnEngine := by
  unfold Obligations.CommandsTouchOnlyTheirOwnEngine
  intro i s t h
  exact ⟨fun _ hd => exec_other_engine h hd, exec_inputs h⟩

/-- An engine that a command leaves unconstructed keeps its registers: it was neither constructed nor drawn from. -/
theorem exec_sameRegisters_of_not_constructed {i : Instr} {s t : State} {d : Engine} (h : exec i s = .next t)
    (hd : t.constructed d = false) : sameRegisters d s t := by
  rcases exec_next_cases h with ⟨_, rfl⟩ | ⟨e, u, _, _, hu, rfl⟩ | ⟨e, count, m, words, _, hdraws, _, rfl⟩
  · simp
  · have hne : d ≠ e := fun hde => by simp [hu.flags, hde] at hd
    simpa using hu.others d hne
  · by_cases hcount : count = 0
    · simp [hcount]
    · have hne : d ≠ e := fun hde => by simp [hde, (hdraws hcount).2] at hd
      simpa using drawTimes_sameRegisters _ e d count s hne

theorem exec_keeps_constructed {i : Instr} {s t : State} {d : Engine} (h : exec i s = .next t)
    (hd : s.constructed d = true) : t.constructed d = true := by
  rcases exec_next_cases h with ⟨_, rfl⟩ | ⟨e, u, _, _, hu, rfl⟩ | ⟨e, count, m, words, _, _, _, rfl⟩
  · simpa using hd
  · simp [hu.flags, hd]
  · simpa using hd

/-- A command that constructs nothing leaves the flags and the parameter registers: a draw writes neither (R27). -/
theorem exec_parameters {i : Instr} {s t : State} (h : exec i s = .next t) (hconstr : isConstruction i = false) :
    t.valid = s.valid ∧ t.lcg = { s.lcg with state := t.lcg.state } ∧
      t.p32 = { s.p32 with state := t.p32.state } ∧ t.p64 = { s.p64 with state := t.p64.state } := by
  rcases exec_next_cases h with ⟨_, rfl⟩ | ⟨e, u, hc, _⟩ | ⟨e, count, m, words, _, _, _, rfl⟩
  · exact ⟨rfl, rfl, rfl, rfl⟩
  · simp [hconstr] at hc
  · exact ⟨drawTimes_valid .., drawTimes_parameters ..⟩

/-- Settles O49, from the inversion of `exec` once for what a draw keeps and once for the flags. -/
theorem onlyConstructionWritesParametersAndFlags : Obligations.OnlyConstructionWritesParametersAndFlags := by
  unfold Obligations.OnlyConstructionWritesParametersAndFlags
  intro i s t h
  exact ⟨exec_parameters h, fun _ hd => exec_keeps_constructed h hd⟩

/-- Settles O50: in each case of the inversion, `RES` is the one before or differs below `writtenEntries`. -/
theorem onlySequenceCommandsWriteTheIndexRam : Obligations.OnlySequenceCommandsWriteTheIndexRam := by
  unfold Obligations.OnlySequenceCommandsWriteTheIndexRam
  intro i s t h j hj
  rcases exec_next_cases h with ⟨_, rfl⟩ | ⟨e, u, _, _, hu, rfl⟩ | ⟨e, count, m, words, _, _, hwrites, rfl⟩
  · rfl
  · simp [hu.res]
  · simpa using hwrites.outside j hj

/-- Settles O9, by the model's law of `State.reset`. -/
theorem resetLeavesNothingConstructed : Obligations.ResetLeavesNothingConstructed := by
  unfold Obligations.ResetLeavesNothingConstructed
  exact State.reset_constructed

end Sys2Proof.Proofs

/-! ## Xoshiro256++ is never all zero (spec/45_xoshiro256pp.md R241) -/

namespace Sys2Proof.Proofs

open Sys2Proof.Machine

theorem eq_zero_of_xor_shiftRight {v : Word} {k : Nat} (hk : 0 < k) (h : v ^^^ (v >>> k) = 0) : v = 0 := by
  have hself : v.toNat = v.toNat / 2 ^ k := by
    simpa [Nat.shiftRight_eq_div_pow] using congrArg BitVec.toNat (BitVec.xor_eq_zero_iff.1 h)
  have hzero : v.toNat = 0 := by
    by_contra hpos
    have := Nat.div_lt_self (Nat.pos_of_ne_zero hpos) (Nat.one_lt_two_pow hk.ne')
    omega
  exact BitVec.eq_of_toNat_eq hzero

theorem eq_zero_of_mul_odd {v m : Word} (hm : m.toNat % 2 = 1) (h : v * m = 0) : v = 0 := by
  have hdvd : 2 ^ 64 ∣ v.toNat * m.toNat := by
    have := congrArg BitVec.toNat h
    rw [BitVec.toNat_mul] at this
    exact Nat.dvd_of_mod_eq_zero this
  have hcop : Nat.Coprime (2 ^ 64) m.toNat := (Nat.coprime_two_left.2 (Nat.odd_iff.2 hm)).pow_left 64
  exact BitVec.eq_of_toNat_eq (Nat.eq_zero_of_dvd_of_lt (hcop.dvd_of_dvd_mul_right hdvd) v.isLt)

/-- The multipliers `SM_M1` and `SM_M2` have this form (R215). -/
theorem append_one_odd (v : BitVec 63) : (v ++ 1#1).toNat % 2 = 1 := by
  rw [BitVec.toNat_append, ← Nat.shiftLeft_add_eq_or_of_lt (by decide)]
  simp [Nat.shiftLeft_eq]

/-- `SmMix` maps only 0 to 0: each of its rounds is an XOR-shift and a multiplication by an odd number (R216). -/
theorem eq_zero_of_smMix_eq_zero {c : Config} {z : Word} (h : smMix c z = 0) : z = 0 := by
  have h2 := eq_zero_of_mul_odd (append_one_odd _) (eq_zero_of_xor_shiftRight (Nat.succ_pos _) h)
  have h1 := eq_zero_of_mul_odd (append_one_odd _) (eq_zero_of_xor_shiftRight (Nat.succ_pos _) h2)
  exact eq_zero_of_xor_shiftRight (Nat.succ_pos _) h1

theorem eq_zero_of_halves {v : Word} (hlow : zext64 (halfLow v) = 0) (hhigh : zext64 (halfHigh v) = 0) : v = 0 := by
  have hl := congrArg BitVec.toNat hlow
  have hh := congrArg BitVec.toNat hhigh
  simp [zext64, halfLow, halfHigh, Nat.shiftRight_eq_div_pow] at hl hh
  bv_omega

/-- Two successive SplitMix64 draws are not both 0, and every half of them is a word of the expanded state. -/
theorem xoExpand_ne_zero (c : Config) (seed : Word) : xoExpand c seed ≠ ⟨0, 0, 0, 0⟩ := by
  intro h
  have hdraws : (smNext c seed).1 = 0 ∧ (smNext c (smNext c seed).2).1 = 0 := by
    unfold xoExpand at h
    split at h <;> obtain ⟨h0, h1, h2, h3⟩ := Xo.mk.inj h
    · exact ⟨eq_zero_of_halves h0 h1, eq_zero_of_halves h2 h3⟩
    · exact ⟨eq_zero_of_halves h1 h0, eq_zero_of_halves h3 h2⟩
  have hfirst : smAdd seed = 0 := eq_zero_of_smMix_eq_zero hdraws.1
  have hsecond : smAdd (smAdd seed) = 0 := eq_zero_of_smMix_eq_zero hdraws.2
  rw [hfirst] at hsecond
  exact absurd hsecond (by decide)

theorem eq_zero_of_rotl_45 {v : Word} (h : rotl v 45 = 0) : v = 0 := by
  have hparts : v <<< 45 = 0 ∧ v >>> 19 = 0 := BitVec.or_eq_zero_iff.1 h
  obtain ⟨hl, hr⟩ := hparts
  bv_omega

theorem eq_zero_of_xor_shiftLeft_17 {v : Word} (h : v ^^^ (v <<< 17) = 0) : v = 0 := by
  have := BitVec.xor_eq_zero_iff.1 h
  bv_omega

/-- A draw leaves only the all-zero state at zero: the last word gives `s3 = s1`, then the first gives `s0 = 0`, the
second `s1 = s2`, and the third that `s1` is its own shift. -/
theorem eq_zero_of_xoNext_eq_zero {r : Xo} (h : (xoNext r).2 = ⟨0, 0, 0, 0⟩) : r = ⟨0, 0, 0, 0⟩ := by
  obtain ⟨s0, s1, s2, s3⟩ := r
  obtain ⟨h0, h1, h2, h3⟩ := Xo.mk.inj h
  have h31 : s3 = s1 := BitVec.xor_eq_zero_iff.1 (eq_zero_of_rotl_45 h3)
  have hs0 : s0 = 0 := by simpa [h31] using h0
  have h12 : s1 = s2 := by simpa [hs0] using BitVec.xor_eq_zero_iff.1 h1
  have hs2 : s2 = 0 := eq_zero_of_xor_shiftLeft_17 (by simpa [hs0, h12] using h2)
  simp [h31, h12, hs0, hs2]

theorem draw_xo_ne_zero (c : Config) (e : Engine) {s : State} (h : s.xo ≠ ⟨0, 0, 0, 0⟩) :
    (draw c e s).2.xo ≠ ⟨0, 0, 0, 0⟩ := by
  cases e with
  | xo => exact fun hzero => h (eq_zero_of_xoNext_eq_zero hzero)
  | lcg | pcg32 | pcg64 | sm64 => exact h

theorem drawTimes_xo_ne_zero (c : Config) (e : Engine) (count : Nat) {s : State} (h : s.xo ≠ ⟨0, 0, 0, 0⟩) :
    (drawTimes c e count s).xo ≠ ⟨0, 0, 0, 0⟩ := by
  induction count generalizing s with
  | zero => exact h
  | succ count ih => exact ih (draw_xo_ne_zero c e h)
end Sys2Proof.Proofs

/-! ## Sound states -/

namespace Sys2Proof.Proofs

open Sys2Proof.Machine

theorem drawTimes_lcg_modulus (c : Config) (e : Engine) (count : Nat) (s : State) :
    (drawTimes c e count s).lcg.modulus = s.lcg.modulus := by
  rw [(drawTimes_parameters c e count s).1]

/-- Every response of the block is legal: an error carries no words (R78, R300, R303). -/
theorem legal_response (st : Status) {words : List Word} (h : st ≠ .ok → words = []) :
    Response.legal ⟨statusCode st, words⟩ := by
  cases st with
  | ok => exact ⟨by simp [statusCode], fun hne => absurd rfl hne⟩
  | illegal | unseeded | param | range => exact ⟨by simp [statusCode], fun _ => h (by decide)⟩

theorem sound_withResponse {c : Config} {s : State} {r : Response} (hs : s.Sound c) (hr : r.legal) :
    (s.withResponse r).Sound c where
  canonical := hs.canonical
  bounded := hs.bounded
  modulus := hs.modulus
  notZero := hs.notZero
  legal := fun _ hq => Option.some.inj hq ▸ hr

theorem sound_withInput {c : Config} {s : State} (rest : List Input) (e : Wide) (hs : s.Sound c) :
    (s.withInput rest e).Sound c :=
  ⟨hs.canonical, hs.bounded, hs.modulus, hs.notZero, hs.legal⟩

/-- Construction gives its own engine registers that R162 and R241 allow, and leaves those of the others alone. -/
theorem sound_of_constructedFrom {e : Engine} {s u : State} {r : Response} (hs : s.Sound Config.block)
    (hu : ConstructedFrom e s u) (hr : r.legal) : (u.withResponse r).Sound Config.block where
  canonical := by simpa [hu.res] using hs.canonical
  bounded := by simpa [hu.res] using hs.bounded
  modulus := fun hv => by
    by_cases he : e = .lcg
    · exact hu.modulus he
    · obtain ⟨hregs, hflag⟩ := hu.other_engine (Ne.symm he)
      have hkept : u.lcg = s.lcg := sameRegisters_symm hregs
      simpa [hkept] using hs.modulus (hflag.symm.trans hv)
  notZero := fun hv => by
    by_cases he : e = .xo
    · obtain ⟨seed, hseed⟩ := hu.expanded he
      exact hseed ▸ xoExpand_ne_zero Config.block seed
    · obtain ⟨hregs, hflag⟩ := hu.other_engine (Ne.symm he)
      have hkept : u.xo = s.xo := sameRegisters_symm hregs
      simpa [hkept] using hs.notZero (hflag.symm.trans hv)
  legal := fun _ hq => Option.some.inj hq ▸ hr

theorem sound_drawTimes_withRes {c : Config} {e : Engine} {count bound : Nat} {s : State} {m : Memory}
    (hs : s.Sound c) (hm : Memory.WritesBelow c bound s.res m) : ((drawTimes c e count s).withRes m).Sound c where
  canonical := hm.wf hs.canonical
  bounded := hm.below hs.bounded
  modulus := fun hv => by simpa [drawTimes_lcg_modulus] using hs.modulus (by simpa using hv)
  notZero := fun hv => drawTimes_xo_ne_zero c e count (hs.notZero (by simpa using hv))
  legal := by simpa using hs.legal

theorem exec_sound {i : Instr} {s t : State} (hs : s.Sound Config.block) (h : exec i s = .next t) :
    t.Sound Config.block := by
  rcases exec_next_cases h with ⟨st, rfl⟩ | ⟨e, u, _, _, hu, rfl⟩ | ⟨e, count, m, words, _, _, hwrites, rfl⟩
  · exact sound_withResponse hs (legal_response st fun _ => rfl)
  · exact sound_of_constructedFrom hs hu (legal_response .ok fun _ => rfl)
  · exact sound_withResponse (sound_drawTimes_withRes hs hwrites) (legal_response .ok fun hne => absurd rfl hne)

/-- Settles O52: an idle step keeps the state, and the other steps keep soundness of the state with the input taken. -/
theorem everyStepKeepsTheStateSound : Obligations.EveryStepKeepsTheStateSound := by
  unfold Obligations.EveryStepKeepsTheStateSound
  intro s t hs h
  rcases step_cases h with ⟨_, rfl⟩ | ⟨p, e, rest, _, ⟨_, _, rfl⟩ | ⟨i, _, hexec⟩⟩
  · exact hs
  · exact sound_withResponse (sound_withInput rest e hs) (legal_response .illegal fun _ => rfl)
  · exact exec_sound (sound_withInput rest e hs) hexec

/-- Settles O53: nothing is constructed, listed in `RES` or answered. -/
theorem resetIsSound : Obligations.ResetIsSound := by
  unfold Obligations.ResetIsSound
  exact
    { canonical := Memory.reset_wf
      bounded := by simp [Memory.below, State.reset]
      modulus := by simp [State.reset]
      notZero := by simp [State.reset]
      legal := by simp [State.reset] }

end Sys2Proof.Proofs

/-! ## What a command reads (spec/10_state.md R26, R35, spec/20_memory.md R57)

Two runs of one command are compared. Registers need only agree where the engine is constructed, so that one comparison
serves both the independence of other engines and what reset leaves unspecified. -/

namespace Sys2Proof.Proofs

open Sys2Proof.Machine

/-- `s` and `t` agree on what a command of engine `e` may read. -/
structure SeenAlike (e : Engine) (s t : State) : Prop where
  flag : s.constructed e = t.constructed e
  ent : s.ent = t.ent
  registers : s.constructed e = true → sameRegisters e s t

/-- Two outcomes give one response, and leave states that agree on what a command of `e` may read next. -/
def AnswersAlike (e : Engine) (o p : Host.Outcome State Fault Refusal) : Prop :=
  ∃ u v r, o = .next (u.withResponse r) ∧ p = .next (v.withResponse r) ∧ SeenAlike e u v

theorem respond_alike {e : Engine} {s t : State} (words : List Word) (h : SeenAlike e s t) :
    AnswersAlike e (respond words s) (respond words t) :=
  ⟨s, t, _, rfl, rfl, h⟩

theorem raise_alike {e : Engine} {s t : State} (st : Status) (h : SeenAlike e s t) :
    AnswersAlike e (raise st s) (raise st t) :=
  ⟨s, t, _, rfl, rfl, h⟩

/-- Past the check of the flag both states hold the same registers of the engine. -/
theorem whenConstructed_alike {e : Engine} {s t : State} {o p : Host.Outcome State Fault Refusal}
    (h : SeenAlike e s t) (hbody : sameRegisters e s t → AnswersAlike e o p) :
    AnswersAlike e (whenConstructed e s o) (whenConstructed e t p) := by
  unfold whenConstructed
  rw [← h.flag]
  split
  · exact hbody (h.registers ‹_›)
  · exact raise_alike .unseeded h

/-! ### Draws -/

@[simp] theorem sameRegisters_withRes_left (e : Engine) (s t : State) (m : Memory) :
    sameRegisters e (s.withRes m) t ↔ sameRegisters e s t := by cases e <;> rfl

@[simp] theorem sameRegisters_withResponse_left (e : Engine) (s t : State) (r : Response) :
    sameRegisters e (s.withResponse r) t ↔ sameRegisters e s t := by cases e <;> rfl

theorem drawTimes_alike {e : Engine} {s t : State} (c : Config) (count : Nat) (m m' : Memory)
    (h : SeenAlike e s t) (hregs : sameRegisters e s t) :
    SeenAlike e ((drawTimes c e count s).withRes m) ((drawTimes c e count t).withRes m') where
  flag := by simpa using h.flag
  ent := by simpa using h.ent
  registers := fun _ => by simpa using drawTimes_congr c e count s t hregs

/-- Two draws give one word and leave states that agree. -/
def DrawnAlike (e : Engine) (d d' : Word × State) : Prop := d.1 = d'.1 ∧ SeenAlike e d.2 d'.2

theorem draw_alike {e : Engine} {s t : State} (c : Config) (h : SeenAlike e s t) (hregs : sameRegisters e s t) :
    DrawnAlike e (draw c e s) (draw c e t) := by
  obtain ⟨hword, hnext⟩ := draw_congr c e s t hregs
  refine ⟨hword, ?_, by simpa using h.ent, fun _ => hnext⟩
  rw [constructed_congr (draw_valid c e s), constructed_congr (draw_valid c e t), h.flag]

theorem realDraw_alike {e : Engine} {s t : State} (c : Config) (h : SeenAlike e s t)
    (hregs : sameRegisters e s t) : DrawnAlike e (realDraw c e s) (realDraw c e t) := by
  obtain ⟨hword, hnext⟩ := draw_alike c h hregs
  exact ⟨congrArg (numUnit c (outputWidth e)) hword, hnext⟩

theorem ranged_alike {e : Engine} {s t : State} (c : Config) (a b : Word) (h : SeenAlike e s t)
    (hregs : sameRegisters e s t) : DrawnAlike e (ranged c e a b s) (ranged c e a b t) := by
  obtain ⟨hword, hnext⟩ := draw_alike c h hregs
  unfold ranged
  split
  · exact ⟨rfl, h⟩
  · exact ⟨by simp [hword], hnext⟩

theorem respond_drawn_alike {e : Engine} {d d' : Word × State} (answers : Word → Word) (h : DrawnAlike e d d') :
    AnswersAlike e (respond [answers d.1] d.2) (respond [answers d'.1] d'.2) := by
  obtain ⟨hword, hnext⟩ := h
  rw [hword]
  exact respond_alike _ hnext

/-! ### Construction -/

/-- Construction reads nothing of its engine: it sets the flag over registers that the operands and `ENT` give. -/
theorem construct_alike {e : Engine} {u v : State} (hregs : sameRegisters e u v) (hent : u.ent = v.ent) :
    SeenAlike e (u.construct e) (v.construct e) where
  flag := by simp
  ent := by simpa using hent
  registers := fun _ => by cases e <;> exact hregs

theorem construction_alike {i : Instr} {e : Engine} {s t : State} (hconstr : isConstruction i = true)
    (hown : ownEngine i = some e) (h : SeenAlike e s t) : AnswersAlike e (exec i s) (exec i t) := by
  have hent : wideLow s.ent = wideLow t.ent := congrArg wideLow h.ent
  cases i with
  | initLcg _ | initPcg32 _ | initpPcg32 _ _ _ | initPcg64 _ _ | initpPcg64 _ _ _ _ _ _ | initSm64 _ | initXo _ =>
    cases hown; exact respond_alike [] (construct_alike rfl h.ent)
  | initeLcg =>
    cases hown; exact respond_alike [] (construct_alike (congrArg (Lcg.mk · _ _ _) hent) h.ent)
  | initePcg32 =>
    cases hown; exact respond_alike [] (construct_alike (congrArg (Pcg32.mk · _ _) hent) h.ent)
  | initePcg64 =>
    cases hown; exact respond_alike [] (construct_alike (congrArg (Pcg64.mk · _ _) h.ent) h.ent)
  | initeSm64 =>
    cases hown; exact respond_alike [] (construct_alike hent h.ent)
  | initeXo =>
    cases hown; exact respond_alike [] (construct_alike (congrArg (xoExpand _) hent) h.ent)
  | initpLcg _ _ _ _ =>
    cases hown
    simp only [exec, execInitpLcg]
    split
    · exact raise_alike .param h
    · exact respond_alike [] (construct_alike rfl h.ent)
  | _ => cases hconstr

/-! ### The sequence controller -/

theorem rawDraw_congr {c : Config} {e : Engine} {s t : State} (h : sameRegisters e s t) :
    rawDraw c e s = rawDraw c e t :=
  funext fun before => (draw_congr c e _ _ (drawTimes_congr c e before s t h)).1

theorem shuffleChoices_congr {c : Config} {e : Engine} {s t : State} (len : Nat) (h : sameRegisters e s t) :
    shuffleChoices c e len s = shuffleChoices c e len t := by
  rw [shuffleChoices, shuffleChoices, outputs_congr c e (len - 1) s t h]

theorem words_eq_of_map_toNat {words words' : List Word} (h : words.map BitVec.toNat = words'.map BitVec.toNat) :
    words = words' :=
  List.map_injective_iff.2 (fun _ _ => BitVec.eq_of_toNat_eq) h

theorem shuffleBody_alike {c : Config} {e : Engine} {len : Nat} {s t : State} (hl : len ≤ kmax c)
    (h : SeenAlike e s t) (hregs : sameRegisters e s t) :
    AnswersAlike e (answer (shuffleBody c e len s)) (answer (shuffleBody c e len t)) := by
  obtain ⟨m, words, hs, -, -, hwords⟩ := shuffleBody_eq c e len s hl
  obtain ⟨m', words', ht, -, -, hwords'⟩ := shuffleBody_eq c e len t hl
  have heq : words = words' :=
    words_eq_of_map_toNat (by rw [hwords, hwords', shuffleChoices_congr len hregs])
  rw [hs, ht, heq]
  exact respond_alike words' (drawTimes_alike c _ m m' h hregs)

theorem sampleBody_alike {c : Config} {e : Engine} {n k : Nat} {s t : State} (hn : n < 2 ^ 63)
    (hmin : min n k ≤ kmax c) (h : SeenAlike e s t) (hregs : sameRegisters e s t) :
    AnswersAlike e (answer (sampleBody c e n k s)) (answer (sampleBody c e n k t)) := by
  by_cases hk : k = 0
  · simp only [sampleBody, hk, if_true]
    exact respond_alike [] h
  by_cases hle : n ≤ k
  · simp only [sampleBody, hk, hle, if_false, if_true]
    exact shuffleBody_alike (by omega) h hregs
  obtain ⟨r, m, words, hs, -, hr, -, -, hwords⟩ :=
    sampleBody_eq_algorithmL c e n k s (by omega) (by omega) hn (by omega)
  obtain ⟨r', m', words', ht, -, hr', -, -, hwords'⟩ :=
    sampleBody_eq_algorithmL c e n k t (by omega) (by omega) hn (by omega)
  rw [← rawDraw_congr hregs] at hr' hwords'
  have heq : words = words' := words_eq_of_map_toNat (hwords.trans hwords'.symm)
  rw [hs, ht, heq, hr, hr']
  exact respond_alike words' (drawTimes_alike c _ m m' h hregs)

theorem samplewrBody_alike {c : Config} {e : Engine} {n : Word} {k : Nat} {s t : State} (hn : n.toNat < 2 ^ 63)
    (hk : k ≤ kmax c) (h : SeenAlike e s t) (hregs : sameRegisters e s t) :
    AnswersAlike e (answer (samplewrBody c e n k s)) (answer (samplewrBody c e n k t)) := by
  by_cases hzero : n = 0
  · subst hzero
    obtain ⟨m, hs, -⟩ := samplewrBody_zero c e k s hk
    obtain ⟨m', ht, -⟩ := samplewrBody_zero c e k t hk
    rw [hs, ht]
    exact respond_alike _ (drawTimes_alike c 0 m m' h hregs)
  · obtain ⟨m, hs, -⟩ := samplewrBody_eq c e n k s hn hzero hk
    obtain ⟨m', ht, -⟩ := samplewrBody_eq c e n k t hn hzero hk
    rw [hs, ht, outputs_congr c e k s t hregs]
    exact respond_alike _ (drawTimes_alike c k m m' h hregs)

/-! ### Every command -/

theorem exec_minOf (e : Engine) (s : State) : exec (minOf e) s = minCommand s := by cases e <;> rfl

theorem exec_maxOf (e : Engine) (s : State) : exec (maxOf e) s = maxCommand e s := by cases e <;> rfl

/-- The commands of engine `e`, by what they do. -/
inductive EngineCommand (e : Engine) : Instr → Prop
  | construction {i : Instr} : isConstruction i = true → ownEngine i = some e → EngineCommand e i
  | next : EngineCommand e (nextOf e)
  | getstate : EngineCommand e (getstateOf e)
  | min : EngineCommand e (minOf e)
  | max : EngineCommand e (maxOf e)
  | nextn (n : Word) : EngineCommand e (nextnOf e n)
  | nextr (a b : Word) : EngineCommand e (nextrOf e a b)
  | real : EngineCommand e (realOf e)
  | realr (a b : Word) : EngineCommand e (realrOf e a b)
  | heads : EngineCommand e (headsOf e)
  | headsw (weight : Word) : EngineCommand e (headswOf e weight)
  | shuffle (len : Word) : EngineCommand e (.shuffle e len)
  | sample (n k : Word) : EngineCommand e (.sample e n k)
  | samplewr (n k : Word) : EngineCommand e (.samplewr e n k)

theorem engineCommand_of_ownEngine {i : Instr} {e : Engine} (h : ownEngine i = some e) : EngineCommand e i := by
  cases i with
  | initLcg _ | initeLcg | initpLcg _ _ _ _ | initPcg32 _ | initePcg32 | initpPcg32 _ _ _ | initPcg64 _ _ | initePcg64
  | initpPcg64 _ _ _ _ _ _ | initSm64 _ | initeSm64 | initXo _ | initeXo => exact .construction rfl h
  | nextLcg | nextPcg32 | nextPcg64 | nextSm64 | nextXo => cases h; exact .next
  | getstateLcg | getstatePcg32 | getstatePcg64 | getstateSm64 | getstateXo => cases h; exact .getstate
  | minLcg | minPcg32 | minPcg64 | minSm64 | minXo => cases h; exact .min
  | maxLcg | maxPcg32 | maxPcg64 | maxSm64 | maxXo => cases h; exact .max
  | nextnLcg n | nextnPcg32 n | nextnPcg64 n | nextnSm64 n | nextnXo n => cases h; exact .nextn n
  | nextrLcg a b | nextrPcg32 a b | nextrPcg64 a b | nextrSm64 a b | nextrXo a b => cases h; exact .nextr a b
  | realLcg | realPcg32 | realPcg64 | realSm64 | realXo => cases h; exact .real
  | realrLcg a b | realrPcg32 a b | realrPcg64 a b | realrSm64 a b | realrXo a b => cases h; exact .realr a b
  | headsLcg | headsPcg32 | headsPcg64 | headsSm64 | headsXo => cases h; exact .heads
  | headswLcg w | headswPcg32 w | headswPcg64 w | headswSm64 w | headswXo w => cases h; exact .headsw w
  | rotl32 _ _ | rotr32 _ _ | rotl64 _ _ | rotr64 _ _ => cases h
  | shuffle _ len => cases h; exact .shuffle len
  | sample _ n k => cases h; exact .sample n k
  | samplewr _ n k => cases h; exact .samplewr n k

theorem stateWords_congr {e : Engine} {s t : State} (h : sameRegisters e s t) : stateWords e s = stateWords e t := by
  cases e <;> simp_all [sameRegisters, stateWords]

/-- A command of engine `e` answers one response in two states that agree on `e` where it is constructed. -/
theorem exec_alike {i : Instr} {e : Engine} {s t : State} (hown : ownEngine i = some e) (h : SeenAlike e s t) :
    AnswersAlike e (exec i s) (exec i t) := by
  cases engineCommand_of_ownEngine hown with
  | construction hconstr hown => exact construction_alike hconstr hown h
  | next =>
    rw [exec_nextOf, exec_nextOf]
    exact whenConstructed_alike h fun hregs => respond_drawn_alike id (draw_alike _ h hregs)
  | getstate =>
    rw [exec_getstateOf, exec_getstateOf]
    exact whenConstructed_alike h fun hregs => stateWords_congr hregs ▸ respond_alike _ h
  | min => rw [exec_minOf, exec_minOf]; exact respond_alike _ h
  | max => rw [exec_maxOf, exec_maxOf]; exact respond_alike _ h
  | nextn n =>
    rw [exec_nextnOf, exec_nextnOf]
    exact whenConstructed_alike h fun hregs => respond_drawn_alike id (ranged_alike _ 0 n h hregs)
  | nextr a b =>
    rw [exec_nextrOf, exec_nextrOf]
    exact whenConstructed_alike h fun hregs => respond_drawn_alike id (ranged_alike _ a b h hregs)
  | real =>
    rw [exec_realOf, exec_realOf]
    exact whenConstructed_alike h fun hregs => respond_drawn_alike id (realDraw_alike _ h hregs)
  | realr a b =>
    rw [exec_realrOf, exec_realrOf]
    exact whenConstructed_alike h fun hregs =>
      respond_drawn_alike (numLerp Config.block a b) (realDraw_alike _ h hregs)
  | heads =>
    rw [exec_headsOf, exec_headsOf]
    exact whenConstructed_alike h fun hregs =>
      respond_drawn_alike (fun r => boolWord (numLt Config.block r f64Half)) (realDraw_alike _ h hregs)
  | headsw weight =>
    rw [exec_headswOf, exec_headswOf]
    exact whenConstructed_alike h fun hregs =>
      respond_drawn_alike (fun r => boolWord (numLt Config.block r weight)) (realDraw_alike _ h hregs)
  | shuffle len =>
    refine whenConstructed_alike h fun hregs => ?_
    split
    · exact raise_alike .range h
    · exact shuffleBody_alike (by omega) h hregs
  | sample n k =>
    refine whenConstructed_alike h fun hregs => ?_
    split
    · exact raise_alike .range h
    · exact sampleBody_alike (by omega) (by omega) h hregs
  | samplewr n k =>
    refine whenConstructed_alike h fun hregs => ?_
    split
    · exact raise_alike .range h
    · exact samplewrBody_alike (by omega) (by omega) h hregs

/-- A command with no engine is a rotation: its words are a function of its operands, and it reads no state (R104). -/
theorem exec_of_ownEngine_none {i : Instr} (h : ownEngine i = none) : ∃ words, ∀ s, exec i s = respond words s := by
  cases i with
  | rotl32 _ _ | rotr32 _ _ | rotl64 _ _ | rotr64 _ _ => exact ⟨_, fun _ => rfl⟩
  | _ => cases h

/-- Settles O48: `exec_alike` gives the response and the registers of an engine constructed by then; an engine that is
not constructed keeps the registers on which the two states agreed. -/
theorem commandsReadOnlyTheirOwnEngine : Obligations.CommandsReadOnlyTheirOwnEngine := by
  unfold Obligations.CommandsReadOnlyTheirOwnEngine
  intro i e s t s' hown hregs hflag hent hs
  obtain ⟨u, v, r, hu, hv, halike⟩ := exec_alike (s := s) (t := t) hown ⟨hflag, hent, fun _ => hregs⟩
  obtain rfl : u.withResponse r = s' := by simpa [hu] using hs
  have hflag' : u.constructed e = v.constructed e := halike.flag
  refine ⟨v.withResponse r, hv, rfl, ?_, by simpa using hflag'⟩
  cases hc : u.constructed e with
  | true => simpa using halike.registers hc
  | false =>
    have hkept : sameRegisters e s u := by simpa using exec_sameRegisters_of_not_constructed hu (by simpa using hc)
    have hkept' : sameRegisters e t v := by
      simpa using exec_sameRegisters_of_not_constructed hv (by simpa using hflag' ▸ hc)
    simpa using sameRegisters_trans (sameRegisters_symm hkept) (sameRegisters_trans hregs hkept')

end Sys2Proof.Proofs

/-! ## What reset leaves unspecified (spec/10_state.md R35) -/

namespace Sys2Proof.Proofs

open Sys2Proof.Machine

theorem seenAlike_of_sameButUnspecified {s t : State} (h : sameButUnspecified s t) (e : Engine) : SeenAlike e s t := by
  obtain ⟨hvalid, -, hent, -, hregs⟩ := h
  exact ⟨constructed_congr hvalid e, hent, hregs e⟩

theorem valid_eq_of_constructed {s t : State} (h : ∀ e, s.constructed e = t.constructed e) : s.valid = t.valid := by
  have hflags (u : State) : u.valid = ⟨u.constructed .lcg, u.constructed .pcg32, u.constructed .pcg64,
      u.constructed .sm64, u.constructed .xo⟩ := rfl
  rw [hflags s, hflags t]
  simp only [h]

theorem sameButUnspecified_withInput {s t : State} (rest : List Input) (e : Wide) (h : sameButUnspecified s t) :
    sameButUnspecified (s.withInput rest e) (t.withInput rest e) := by
  obtain ⟨hvalid, -, -, hresp, hregs⟩ := h
  exact ⟨hvalid, rfl, rfl, hresp, fun d => by have hd := hregs d; cases d <;> exact hd⟩

theorem sameButUnspecified_withResponse {s t : State} (r : Response) (h : sameButUnspecified s t) :
    sameButUnspecified (s.withResponse r) (t.withResponse r) := by
  obtain ⟨hvalid, hinbox, hent, -, hregs⟩ := h
  exact ⟨hvalid, hinbox, hent, rfl, fun d hd => by simpa using hregs d (by simpa using hd)⟩

/-- A command gives one response over both states: its own engine by `exec_alike`, the others by their frame. -/
theorem exec_sameButUnspecified {i : Instr} {s t s' : State} (h : sameButUnspecified s t)
    (hs : exec i s = .next s') : ∃ t', exec i t = .next t' ∧ sameButUnspecified s' t' := by
  cases hown : ownEngine i with
  | none =>
    obtain ⟨words, hexec⟩ := exec_of_ownEngine_none hown
    rw [respond_next ((hexec s).symm.trans hs)]
    exact ⟨_, hexec t, sameButUnspecified_withResponse _ h⟩
  | some e =>
    obtain ⟨u, v, r, hu, hv, halike⟩ := exec_alike hown (seenAlike_of_sameButUnspecified h e)
    obtain rfl : u.withResponse r = s' := by simpa [hu] using hs
    obtain ⟨hvalid, hinbox, hent, -, hregs⟩ := h
    have hother (d : Engine) (hd : d ≠ e) : ownEngine i ≠ some d := by simpa [hown] using Ne.symm hd
    have hflags (d : Engine) : (u.withResponse r).constructed d = (v.withResponse r).constructed d := by
      by_cases hd : d = e
      · subst hd; simpa using halike.flag
      · rw [(exec_other_engine hu (hother d hd)).2, (exec_other_engine hv (hother d hd)).2, constructed_congr hvalid]
    refine ⟨v.withResponse r, hv, valid_eq_of_constructed hflags, ?_, ?_, rfl, fun d hd => ?_⟩
    · rw [(exec_inputs hu).1, (exec_inputs hv).1, hinbox]
    · rw [(exec_inputs hu).2, (exec_inputs hv).2, hent]
    · by_cases hde : d = e
      · subst hde; simpa using halike.registers (by simpa using hd)
      · obtain ⟨hsu, hflag⟩ := exec_other_engine hu (hother d hde)
        obtain ⟨htv, -⟩ := exec_other_engine hv (hother d hde)
        exact sameRegisters_trans (sameRegisters_symm hsu) (sameRegisters_trans (hregs d (hflag ▸ hd)) htv)

theorem step_of_inbox_nil {s : State} (hinbox : s.inbox = []) : step s = .next s := by
  simp only [step, present, hinbox, idle]

theorem step_of_present_error {s t : State} {p : Packet} {reason : Illegal} (hpresent : present s = some (p, t))
    (hdecode : decode p = .error reason) : step s = rejectPacket t := by
  simp only [step, hpresent, hdecode]

/-- Settles O51: both states are presented the same packet, and each case of the step is the same case in the other. -/
theorem unspecifiedContentsAreNotObservable : Obligations.UnspecifiedContentsAreNotObservable := by
  unfold Obligations.UnspecifiedContentsAreNotObservable
  intro s t s' h hs
  have hinbox : s.inbox = t.inbox := h.2.1
  rcases step_cases hs with ⟨hnil, rfl⟩ | ⟨p, e, rest, hcons, ⟨_, hdecode, rfl⟩ | ⟨i, hdecode, hexec⟩⟩
  · exact ⟨t, step_of_inbox_nil (hinbox ▸ hnil), h⟩
  · exact ⟨_, step_of_present_error (present_of_inbox_cons (hinbox ▸ hcons)) hdecode,
      sameButUnspecified_withResponse _ (sameButUnspecified_withInput rest e h)⟩
  · obtain ⟨t', ht, halike⟩ := exec_sameButUnspecified (sameButUnspecified_withInput rest e h) hexec
    have hstep := step_of_present_decode (present_of_inbox_cons (hinbox ▸ hcons)) hdecode
    exact ⟨t', hstep.trans ht, halike⟩

end Sys2Proof.Proofs

/-! ## The packet of every command is legal, and decodes to it (spec/30_encoding.md R79, R80)

The five engines share one table of operations (R73), so the decoders of their units are one decoder over the
engine. Every row of a table is settled by the header its command is encoded with. -/

namespace Sys2Proof.Proofs

open Sys2Proof.Machine

theorem encode_legal (i : Instr) : (encode i).illegal = false := by
  cases i with
  | initeLcg | nextLcg | getstateLcg | minLcg | maxLcg | realLcg | headsLcg
  | initePcg32 | nextPcg32 | getstatePcg32 | minPcg32 | maxPcg32 | realPcg32 | headsPcg32
  | initePcg64 | nextPcg64 | getstatePcg64 | minPcg64 | maxPcg64 | realPcg64 | headsPcg64
  | initeSm64 | nextSm64 | getstateSm64 | minSm64 | maxSm64 | realSm64 | headsSm64
  | initeXo | nextXo | getstateXo | minXo | maxXo | realXo | headsXo =>
    exact Laws.illegal_of_length 0 rfl (by decide)
  | initLcg _ | nextnLcg _ | headswLcg _ | initPcg32 _ | nextnPcg32 _ | headswPcg32 _ | nextnPcg64 _ | headswPcg64 _
  | initSm64 _ | nextnSm64 _ | headswSm64 _ | initXo _ | nextnXo _ | headswXo _ =>
    exact Laws.illegal_of_length 1 rfl (by decide)
  | nextrLcg _ _ | realrLcg _ _ | nextrPcg32 _ _ | realrPcg32 _ _ | initPcg64 _ _ | nextrPcg64 _ _ | realrPcg64 _ _
  | nextrSm64 _ _ | realrSm64 _ _ | nextrXo _ _ | realrXo _ _
  | rotl32 _ _ | rotr32 _ _ | rotl64 _ _ | rotr64 _ _ =>
    exact Laws.illegal_of_length 2 rfl (by decide)
  | initpPcg32 _ _ _ => exact Laws.illegal_of_length 3 rfl (by decide)
  | initpLcg _ _ _ _ => exact Laws.illegal_of_length 4 rfl (by decide)
  | initpPcg64 _ _ _ _ _ _ => exact Laws.illegal_of_length 6 rfl (by decide)
  | shuffle e len => exact Laws.EncodedPacketIsLegal.shuffle e len
  | sample e n k => exact Laws.EncodedPacketIsLegal.sample e n k
  | samplewr e n k => exact Laws.EncodedPacketIsLegal.samplewr e n k

/-! ### Headers by their fields (R71) -/

/-- The header with the given `unit`, `op` and `eng` fields and `rsv` = 0. -/
def headerOf (unit op eng : Nat) : Header := BitVec.ofNat 16 (unit * 4096 + op * 256 + eng)

/-- The engine index of R2: the number of the engine's unit, and its `eng` field under `SMP` (R72). -/
def engineIndex (e : Engine) : Nat := e.encode.toNat

theorem headerOf_fields {unit op eng : Nat} (hunit : unit < 16) (hop : op < 16) (heng : eng < 8) :
    (headerOf unit op eng).unit = unit ∧ (headerOf unit op eng).op = op ∧ (headerOf unit op eng).rsv = 0 ∧
      (headerOf unit op eng).eng = eng := by
  simp only [Header.unit_eq, Header.op_eq, Header.rsv_eq, Header.eng_eq, headerOf, BitVec.toNat_ofNat]
  omega

/-- A header whose `rsv` field is 0 is given by the other three. -/
theorem exists_eq_headerOf {h : Header} (hrsv : h.rsv = 0) :
    ∃ unit op eng, unit < 16 ∧ op < 16 ∧ eng < 8 ∧ h = headerOf unit op eng := by
  have hunit : h.unit < 16 := (h.extractLsb' 12 4).isLt
  have hop : h.op < 16 := (h.extractLsb' 8 4).isLt
  have heng : h.eng < 8 := (h.extractLsb' 0 3).isLt
  obtain ⟨hu, ho, hr, hg⟩ := headerOf_fields hunit hop heng
  exact ⟨h.unit, h.op, h.eng, hunit, hop, heng, Header.ext_fields hu.symm ho.symm (hrsv.trans hr.symm) hg.symm⟩

theorem engineIndex_lt (e : Engine) : engineIndex e < 5 := by cases e <;> decide

theorem exists_engineIndex {n : Nat} (hn : n < 5) : ∃ e, engineIndex e = n := by
  match n with
  | 0 => exact ⟨.lcg, rfl⟩
  | 1 => exact ⟨.pcg32, rfl⟩
  | 2 => exact ⟨.pcg64, rfl⟩
  | 3 => exact ⟨.sm64, rfl⟩
  | 4 => exact ⟨.xo, rfl⟩

/-! ### The decoder by the fields of the header -/

/-- `INITE.e`. -/
def initeOf (e : Engine) : Instr :=
  match e with
  | .lcg => .initeLcg
  | .pcg32 => .initePcg32
  | .pcg64 => .initePcg64
  | .sm64 => .initeSm64
  | .xo => .initeXo

/-- The reading of the operands of `INIT.e`, a 128-bit seed being two words (R76). -/
def readInit (e : Engine) (ws : List Word) : Except Illegal Instr :=
  match e with
  | .lcg => operands1 .initLcg ws
  | .pcg32 => operands1 .initPcg32 ws
  | .pcg64 => operands2 .initPcg64 ws
  | .sm64 => operands1 .initSm64 ws
  | .xo => operands1 .initXo ws

/-- The reading of the operands of `INITP.e`, which two engines do not have (R80 c). -/
def readInitp (e : Engine) (ws : List Word) : Except Illegal Instr :=
  match e with
  | .lcg => operands4 .initpLcg ws
  | .pcg32 => operands3 .initpPcg32 ws
  | .pcg64 => operands6 .initpPcg64 ws
  | .sm64 | .xo => .error .absentInitp

/-- The five engine units' decoders as one, over the table of R73. -/
def decodeEngine (e : Engine) (op : Nat) (ws : List Word) : Except Illegal Instr :=
  match op with
  | 0x0 => readInit e ws
  | 0x1 => operands0 (initeOf e) ws
  | 0x2 => readInitp e ws
  | 0x3 => operands0 (nextOf e) ws
  | 0x4 => operands0 (getstateOf e) ws
  | 0x5 => operands0 (minOf e) ws
  | 0x6 => operands0 (maxOf e) ws
  | 0x8 => operands1 (nextnOf e) ws
  | 0x9 => operands2 (nextrOf e) ws
  | 0xA => operands0 (realOf e) ws
  | 0xB => operands2 (realrOf e) ws
  | 0xC => operands0 (headsOf e) ws
  | 0xD => operands1 (headswOf e) ws
  | _ => .error .reservedOp

theorem decode_of_engineIndex {e : Engine} {op eng : Nat} (hop : op < 16) (heng : eng < 8) (ws : List Word) :
    decode ⟨headerOf (engineIndex e) op eng, ws⟩ = decodeOther eng (decodeEngine e op ws) := by
  have hunit : engineIndex e < 16 := (engineIndex_lt e).trans (by decide)
  obtain ⟨hu, ho, hr, hg⟩ := headerOf_fields hunit hop heng
  simp only [decode, hu, ho, hr, hg]
  cases e <;> rfl

theorem decode_of_unit_rot {op eng : Nat} (hop : op < 16) (heng : eng < 8) (ws : List Word) :
    decode ⟨headerOf 5 op eng, ws⟩ = decodeOther eng (decodeRot op ws) := by
  obtain ⟨hu, ho, hr, hg⟩ := headerOf_fields (unit := 5) (by decide) hop heng
  simp only [decode, hu, ho, hr, hg]
  rfl

theorem decode_of_unit_smp {e : Engine} {op : Nat} (hop : op < 16) (ws : List Word) :
    decode ⟨headerOf 6 op (engineIndex e), ws⟩ = decodeSmp e op ws := by
  have heng : engineIndex e < 8 := (engineIndex_lt e).trans (by decide)
  obtain ⟨hu, ho, hr, hg⟩ := headerOf_fields (unit := 6) (by decide) hop heng
  simp only [decode, hu, ho, hr, hg]
  cases e <;> rfl

theorem decode_of_unit_smp_reserved {op eng : Nat} (hop : op < 16) (heng : eng < 8) (hreserved : 5 ≤ eng)
    (ws : List Word) : decode ⟨headerOf 6 op eng, ws⟩ = .error .reservedEngine := by
  obtain ⟨hu, -, hr, hg⟩ := headerOf_fields (unit := 6) (by decide) hop heng
  obtain ⟨n, rfl⟩ := Nat.exists_eq_add_of_le' hreserved
  simp only [decode, hu, hr, hg]
  rfl

theorem decode_of_unit_reserved {unit op eng : Nat} (hunit : unit < 16) (hop : op < 16) (heng : eng < 8)
    (hreserved : 7 ≤ unit) (ws : List Word) : decode ⟨headerOf unit op eng, ws⟩ = .error .reservedUnit := by
  obtain ⟨hu, -, hr, -⟩ := headerOf_fields hunit hop heng
  obtain ⟨n, rfl⟩ := Nat.exists_eq_add_of_le' hreserved
  simp only [decode, hu, hr]
  rfl

/-! ### The header of every command -/

theorem encode_initeOf (e : Engine) : encode (initeOf e) = ⟨headerOf (engineIndex e) 0x1 0, []⟩ := by cases e <;> rfl
theorem encode_nextOf (e : Engine) : encode (nextOf e) = ⟨headerOf (engineIndex e) 0x3 0, []⟩ := by cases e <;> rfl
theorem encode_getstateOf (e : Engine) : encode (getstateOf e) = ⟨headerOf (engineIndex e) 0x4 0, []⟩ := by
  cases e <;> rfl
theorem encode_minOf (e : Engine) : encode (minOf e) = ⟨headerOf (engineIndex e) 0x5 0, []⟩ := by cases e <;> rfl
theorem encode_maxOf (e : Engine) : encode (maxOf e) = ⟨headerOf (engineIndex e) 0x6 0, []⟩ := by cases e <;> rfl
theorem encode_nextnOf (e : Engine) (n : Word) : encode (nextnOf e n) = ⟨headerOf (engineIndex e) 0x8 0, [n]⟩ := by
  cases e <;> rfl
theorem encode_nextrOf (e : Engine) (a b : Word) :
    encode (nextrOf e a b) = ⟨headerOf (engineIndex e) 0x9 0, [a, b]⟩ := by
  cases e <;> rfl
theorem encode_realOf (e : Engine) : encode (realOf e) = ⟨headerOf (engineIndex e) 0xA 0, []⟩ := by cases e <;> rfl
theorem encode_realrOf (e : Engine) (a b : Word) :
    encode (realrOf e a b) = ⟨headerOf (engineIndex e) 0xB 0, [a, b]⟩ := by
  cases e <;> rfl
theorem encode_headsOf (e : Engine) : encode (headsOf e) = ⟨headerOf (engineIndex e) 0xC 0, []⟩ := by cases e <;> rfl
theorem encode_headswOf (e : Engine) (weight : Word) :
    encode (headswOf e weight) = ⟨headerOf (engineIndex e) 0xD 0, [weight]⟩ := by
  cases e <;> rfl
theorem encode_shuffle (e : Engine) (len : Word) :
    encode (.shuffle e len) = ⟨headerOf 6 0x0 (engineIndex e), [len]⟩ := by
  cases e <;> rfl
theorem encode_sample (e : Engine) (n k : Word) :
    encode (.sample e n k) = ⟨headerOf 6 0x1 (engineIndex e), [n, k]⟩ := by
  cases e <;> rfl
theorem encode_samplewr (e : Engine) (n k : Word) :
    encode (.samplewr e n k) = ⟨headerOf 6 0x2 (engineIndex e), [n, k]⟩ := by
  cases e <;> rfl

/-! ### Decoding what was encoded -/

theorem decode_engine_packet {e : Engine} {op : Nat} {ws : List Word} {i : Instr} (hop : op < 16)
    (hread : decodeEngine e op ws = .ok i) : decode ⟨headerOf (engineIndex e) op 0, ws⟩ = .ok i := by
  rw [decode_of_engineIndex hop (by decide), decodeOther, if_pos rfl, hread]

theorem decode_encode_construction {i : Instr} (h : isConstruction i = true) : decode (encode i) = .ok i := by
  cases i with
  | initLcg _ => exact decode_engine_packet (e := .lcg) (op := 0x0) (by decide) rfl
  | initeLcg => exact decode_engine_packet (e := .lcg) (op := 0x1) (by decide) rfl
  | initpLcg _ _ _ _ => exact decode_engine_packet (e := .lcg) (op := 0x2) (by decide) rfl
  | initPcg32 _ => exact decode_engine_packet (e := .pcg32) (op := 0x0) (by decide) rfl
  | initePcg32 => exact decode_engine_packet (e := .pcg32) (op := 0x1) (by decide) rfl
  | initpPcg32 _ _ _ => exact decode_engine_packet (e := .pcg32) (op := 0x2) (by decide) rfl
  | initPcg64 _ _ => exact decode_engine_packet (e := .pcg64) (op := 0x0) (by decide) rfl
  | initePcg64 => exact decode_engine_packet (e := .pcg64) (op := 0x1) (by decide) rfl
  | initpPcg64 _ _ _ _ _ _ => exact decode_engine_packet (e := .pcg64) (op := 0x2) (by decide) rfl
  | initSm64 _ => exact decode_engine_packet (e := .sm64) (op := 0x0) (by decide) rfl
  | initeSm64 => exact decode_engine_packet (e := .sm64) (op := 0x1) (by decide) rfl
  | initXo _ => exact decode_engine_packet (e := .xo) (op := 0x0) (by decide) rfl
  | initeXo => exact decode_engine_packet (e := .xo) (op := 0x1) (by decide) rfl
  | _ => cases h

theorem decode_encode_of_engineCommand {i : Instr} {e : Engine} (h : EngineCommand e i) :
    decode (encode i) = .ok i := by
  cases h with
  | construction hconstr _ => exact decode_encode_construction hconstr
  | next => rw [encode_nextOf]; exact decode_engine_packet (by decide) rfl
  | getstate => rw [encode_getstateOf]; exact decode_engine_packet (by decide) rfl
  | min => rw [encode_minOf]; exact decode_engine_packet (by decide) rfl
  | max => rw [encode_maxOf]; exact decode_engine_packet (by decide) rfl
  | nextn n => rw [encode_nextnOf]; exact decode_engine_packet (by decide) rfl
  | nextr a b => rw [encode_nextrOf]; exact decode_engine_packet (by decide) rfl
  | real => rw [encode_realOf]; exact decode_engine_packet (by decide) rfl
  | realr a b => rw [encode_realrOf]; exact decode_engine_packet (by decide) rfl
  | heads => rw [encode_headsOf]; exact decode_engine_packet (by decide) rfl
  | headsw weight => rw [encode_headswOf]; exact decode_engine_packet (by decide) rfl
  | shuffle len => rw [encode_shuffle, decode_of_unit_smp (by decide)]; rfl
  | sample n k => rw [encode_sample, decode_of_unit_smp (by decide)]; rfl
  | samplewr n k => rw [encode_samplewr, decode_of_unit_smp (by decide)]; rfl

theorem decode_encode_rotation {i : Instr} (h : ownEngine i = none) : decode (encode i) = .ok i := by
  cases i with
  | rotl32 _ _ => exact decode_of_unit_rot (op := 0x0) (eng := 0) (by decide) (by decide) _
  | rotr32 _ _ => exact decode_of_unit_rot (op := 0x1) (eng := 0) (by decide) (by decide) _
  | rotl64 _ _ => exact decode_of_unit_rot (op := 0x2) (eng := 0) (by decide) (by decide) _
  | rotr64 _ _ => exact decode_of_unit_rot (op := 0x3) (eng := 0) (by decide) (by decide) _
  | _ => cases h

/-- Settles O1: a command belongs to an engine, whose table of operations then gives it back, or it is a rotation. -/
theorem decodeOfEncodeGivesEveryCommandBack : Obligations.DecodeOfEncodeGivesEveryCommandBack := by
  unfold Obligations.DecodeOfEncodeGivesEveryCommandBack
  intro i
  cases hown : ownEngine i with
  | none => exact decode_encode_rotation hown
  | some e => exact decode_encode_of_engineCommand (engineCommand_of_ownEngine hown)

/-- Settles O6: each of the eight packets is the one that `encode` writes for its command. -/
theorem packetsWrittenFromTheTableDecode : Obligations.PacketsWrittenFromTheTableDecode := by
  unfold Obligations.PacketsWrittenFromTheTableDecode
  intro a b c d
  have hback := decodeOfEncodeGivesEveryCommandBack
  exact ⟨hback (.initpLcg a b c d), hback (.headswPcg32 a), hback (.initPcg64 a b), hback .nextSm64,
    hback (.nextrXo a b), hback (.rotr32 a b), hback (.shuffle .xo a), hback (.sample .pcg64 a b)⟩

end Sys2Proof.Proofs

/-! ## What the decoder accepts (spec/30_encoding.md R80, R82)

A header either meets one of the conditions (a) to (f) of R80, and then every packet with it is rejected, or it selects
one command, and then only the number of operand words is left to check. `HeaderRead` says which of the two holds of a
header and of the decoder's reading of the words that follow it. -/

namespace Sys2Proof.Proofs

open Sys2Proof.Machine

/-- The conditions (a) to (f) of R80: those of the header alone. -/
def headerIllegal (h : Header) : Bool :=
  let p : Packet := ⟨h, []⟩
  p.unitReserved || p.opReserved || p.initpAbsent || p.rsvNotZero || p.engNotZero || p.engReserved

theorem illegal_eq_headerIllegal_or (h : Header) (ws : List Word) :
    Packet.illegal ⟨h, ws⟩ = (headerIllegal h || decide (ws.length ≠ Packet.operandsListed ⟨h, []⟩)) := rfl

theorem headerIllegal_of_unit {h : Header} (hunit : 7 ≤ h.unit) : headerIllegal h = true := by
  simp [headerIllegal, Packet.unitReserved, Packet.unitField, ← Header.unit_eq, hunit]

theorem headerIllegal_of_rsv {h : Header} (hrsv : h.rsv ≠ 0) : headerIllegal h = true := by
  simp [headerIllegal, Packet.rsvNotZero, Packet.rsvField, ← Header.rsv_eq, hrsv]

theorem headerIllegal_of_eng {h : Header} (heng : h.eng ≠ 0) (hunit : h.unit ≠ 6) : headerIllegal h = true := by
  simp [headerIllegal, Packet.engNotZero, Packet.engField, Packet.unitField, ← Header.eng_eq, ← Header.unit_eq,
    heng, hunit]

theorem headerIllegal_of_smp_eng {h : Header} (hunit : h.unit = 6) (heng : 5 ≤ h.eng) : headerIllegal h = true := by
  simp [headerIllegal, Packet.engReserved, Packet.engField, Packet.unitField, ← Header.eng_eq, ← Header.unit_eq,
    heng, hunit]

theorem headerIllegal_of_rot_op {h : Header} (hunit : h.unit = 5) (hop : 4 ≤ h.op) : headerIllegal h = true := by
  simp [headerIllegal, Packet.opReserved, Packet.opField, Packet.unitField, ← Header.op_eq, ← Header.unit_eq,
    hop, hunit]

theorem headerIllegal_of_smp_op {h : Header} (hunit : h.unit = 6) (hop : 3 ≤ h.op) : headerIllegal h = true := by
  simp [headerIllegal, Packet.opReserved, Packet.opField, Packet.unitField, ← Header.op_eq, ← Header.unit_eq,
    hop, hunit]

/-- What `read`, the reading of the operand words after the header `h`, can be. -/
inductive HeaderRead (h : Header) (read : List Word → Except Illegal Instr) : Prop
  /-- The header is illegal whatever follows it. -/
  | refused : headerIllegal h = true → (∀ ws, ∃ r, read ws = .error r) → HeaderRead h read
  /-- The header selects a command: its packets are read back, and just the number of words is checked (R80 g). -/
  | selected : headerIllegal h = false → (∀ ws i, read ws = .ok i → encode i = ⟨h, ws⟩) →
      (∀ ws, (∃ r, read ws = .error r) ↔ ws.length ≠ Packet.operandsListed ⟨h, []⟩) → HeaderRead h read

section

variable {h : Header} {ws : List Word} {i : Instr}

theorem headerIllegal_of_encode (hi : encode i = ⟨h, ws⟩) :
    headerIllegal h = false ∧ ws.length = Packet.operandsListed ⟨h, []⟩ := by
  have hlegal := encode_legal i
  rw [hi, illegal_eq_headerIllegal_or] at hlegal
  simpa using hlegal

theorem HeaderRead.operands0 (hi : encode i = ⟨h, []⟩) : HeaderRead h (operands0 i) := by
  obtain ⟨hlegal, hcount⟩ := headerIllegal_of_encode hi
  refine .selected hlegal (fun ws j hok => ?_) (fun ws => hcount ▸ operands0_error i ws)
  obtain ⟨rfl, rfl⟩ := operands0_ok hok
  exact hi

theorem HeaderRead.operands1 {f : Word → Instr} (hf : ∀ a, encode (f a) = ⟨h, [a]⟩) : HeaderRead h (operands1 f) := by
  obtain ⟨hlegal, hcount⟩ := headerIllegal_of_encode (hf 0)
  refine .selected hlegal (fun ws j hok => ?_) (fun ws => hcount ▸ operands1_error f ws)
  obtain ⟨a, rfl, rfl⟩ := operands1_ok hok
  exact hf a

theorem HeaderRead.operands2 {f : Word → Word → Instr} (hf : ∀ a b, encode (f a b) = ⟨h, [a, b]⟩) :
    HeaderRead h (operands2 f) := by
  obtain ⟨hlegal, hcount⟩ := headerIllegal_of_encode (hf 0 0)
  refine .selected hlegal (fun ws j hok => ?_) (fun ws => hcount ▸ operands2_error f ws)
  obtain ⟨a, b, rfl, rfl⟩ := operands2_ok hok
  exact hf a b

theorem HeaderRead.operands3 {f : Word → Word → Word → Instr} (hf : ∀ a b c, encode (f a b c) = ⟨h, [a, b, c]⟩) :
    HeaderRead h (operands3 f) := by
  obtain ⟨hlegal, hcount⟩ := headerIllegal_of_encode (hf 0 0 0)
  refine .selected hlegal (fun ws j hok => ?_) (fun ws => hcount ▸ operands3_error f ws)
  obtain ⟨a, b, c, rfl, rfl⟩ := operands3_ok hok
  exact hf a b c

theorem HeaderRead.operands4 {f : Word → Word → Word → Word → Instr}
    (hf : ∀ a b c d, encode (f a b c d) = ⟨h, [a, b, c, d]⟩) : HeaderRead h (operands4 f) := by
  obtain ⟨hlegal, hcount⟩ := headerIllegal_of_encode (hf 0 0 0 0)
  refine .selected hlegal (fun ws j hok => ?_) (fun ws => hcount ▸ operands4_error f ws)
  obtain ⟨a, b, c, d, rfl, rfl⟩ := operands4_ok hok
  exact hf a b c d

theorem HeaderRead.operands6 {f : Word → Word → Word → Word → Word → Word → Instr}
    (hf : ∀ a b c d e g, encode (f a b c d e g) = ⟨h, [a, b, c, d, e, g]⟩) : HeaderRead h (operands6 f) := by
  obtain ⟨hlegal, hcount⟩ := headerIllegal_of_encode (hf 0 0 0 0 0 0)
  refine .selected hlegal (fun ws j hok => ?_) (fun ws => hcount ▸ operands6_error f ws)
  obtain ⟨a, b, c, d, e, g, rfl, rfl⟩ := operands6_ok hok
  exact hf a b c d e g

end

/-! ### The tables of operations (R73, R74, R75) -/

theorem readInit_headerRead (e : Engine) : HeaderRead (headerOf (engineIndex e) 0x0 0) (readInit e) := by
  cases e with
  | lcg | pcg32 | sm64 | xo => exact .operands1 fun _ => rfl
  | pcg64 => exact .operands2 fun _ _ => rfl

theorem readInitp_headerRead (e : Engine) : HeaderRead (headerOf (engineIndex e) 0x2 0) (readInitp e) := by
  cases e with
  | lcg => exact .operands4 fun _ _ _ _ => rfl
  | pcg32 => exact .operands3 fun _ _ _ => rfl
  | pcg64 => exact .operands6 fun _ _ _ _ _ _ => rfl
  | sm64 | xo => exact .refused (by decide) fun _ => ⟨.absentInitp, rfl⟩

theorem decodeEngine_headerRead (e : Engine) {op : Nat} (hop : op < 16) :
    HeaderRead (headerOf (engineIndex e) op 0) (decodeEngine e op) := by
  match op with
  | 0x0 => exact readInit_headerRead e
  | 0x1 => exact .operands0 (encode_initeOf e)
  | 0x2 => exact readInitp_headerRead e
  | 0x3 => exact .operands0 (encode_nextOf e)
  | 0x4 => exact .operands0 (encode_getstateOf e)
  | 0x5 => exact .operands0 (encode_minOf e)
  | 0x6 => exact .operands0 (encode_maxOf e)
  | 0x8 => exact .operands1 (encode_nextnOf e)
  | 0x9 => exact .operands2 (encode_nextrOf e)
  | 0xA => exact .operands0 (encode_realOf e)
  | 0xB => exact .operands2 (encode_realrOf e)
  | 0xC => exact .operands0 (encode_headsOf e)
  | 0xD => exact .operands1 (encode_headswOf e)
  | 0x7 | 0xE | 0xF => exact .refused (by cases e <;> decide) fun _ => ⟨.reservedOp, rfl⟩
  | _ + 16 => omega

theorem decodeRot_headerRead {op : Nat} (hop : op < 16) : HeaderRead (headerOf 5 op 0) (decodeRot op) := by
  match op with
  | 0x0 | 0x1 | 0x2 | 0x3 => exact .operands2 fun _ _ => rfl
  | op + 4 =>
    obtain ⟨hu, ho, -, -⟩ := headerOf_fields (unit := 5) (eng := 0) (by decide) hop (by decide)
    exact .refused (headerIllegal_of_rot_op hu (by omega)) fun _ => ⟨.reservedOp, rfl⟩

theorem decodeSmp_headerRead (e : Engine) {op : Nat} (hop : op < 16) :
    HeaderRead (headerOf 6 op (engineIndex e)) (decodeSmp e op) := by
  match op with
  | 0x0 => exact .operands1 (encode_shuffle e)
  | 0x1 => exact .operands2 (encode_sample e)
  | 0x2 => exact .operands2 (encode_samplewr e)
  | op + 3 =>
    obtain ⟨hu, ho, -, -⟩ := headerOf_fields (unit := 6) (by decide) hop ((engineIndex_lt e).trans (by decide))
    exact .refused (headerIllegal_of_smp_op hu (by omega)) fun _ => ⟨.reservedOp, rfl⟩

/-! ### Every header -/

/-- A unit other than `SMP` reads its operand words under `eng` = 0 and refuses every other header (R80 e). -/
theorem HeaderRead.decodeOther {unit op eng : Nat} {read : List Word → Except Illegal Instr} (hunit : unit < 16)
    (hop : op < 16) (heng : eng < 8) (hsmp : unit ≠ 6) (hread : HeaderRead (headerOf unit op 0) read) :
    HeaderRead (headerOf unit op eng) (fun ws => decodeOther eng (read ws)) := by
  by_cases h0 : eng = 0
  · subst h0; exact hread
  · obtain ⟨hu, -, -, hg⟩ := headerOf_fields hunit hop heng
    refine .refused (headerIllegal_of_eng (hg.trans_ne h0) (hu.trans_ne hsmp)) fun ws => ⟨.engineNotZero, ?_⟩
    rw [Sys2Proof.decodeOther, if_neg h0]

/-- Unit `SMP` reads its operand words where `eng` names an engine (R80 f). -/
theorem decode_smp_headerRead {op eng : Nat} (hop : op < 16) (heng : eng < 8) :
    HeaderRead (headerOf 6 op eng) (fun ws => decode ⟨headerOf 6 op eng, ws⟩) := by
  by_cases h5 : eng < 5
  · obtain ⟨e, rfl⟩ := exists_engineIndex h5
    simp only [decode_of_unit_smp hop]
    exact decodeSmp_headerRead e hop
  · obtain ⟨hu, -, -, hg⟩ := headerOf_fields (unit := 6) (by decide) hop heng
    exact .refused (headerIllegal_of_smp_eng hu (by omega)) fun ws =>
      ⟨.reservedEngine, decode_of_unit_smp_reserved hop heng (by omega) ws⟩

/-- Every header is one that R80 (a) to (f) makes illegal or one that selects a command. -/
theorem decode_headerRead (h : Header) : HeaderRead h (fun ws => decode ⟨h, ws⟩) := by
  by_cases hrsv : h.rsv ≠ 0
  · exact .refused (headerIllegal_of_rsv hrsv) fun ws => ⟨.reservedBits, if_pos hrsv⟩
  obtain ⟨unit, op, eng, hunit, hop, heng, rfl⟩ := exists_eq_headerOf (not_not.1 hrsv)
  rcases (by omega : unit < 5 ∨ unit = 5 ∨ unit = 6 ∨ 7 ≤ unit) with hlt | rfl | rfl | hge
  · obtain ⟨e, rfl⟩ := exists_engineIndex hlt
    simp only [decode_of_engineIndex hop heng]
    exact .decodeOther hunit hop heng (by omega) (decodeEngine_headerRead e hop)
  · simp only [decode_of_unit_rot hop heng]
    exact .decodeOther hunit hop heng (by decide) (decodeRot_headerRead hop)
  · exact decode_smp_headerRead hop heng
  · obtain ⟨hu, -, -, -⟩ := headerOf_fields hunit hop heng
    exact .refused (headerIllegal_of_unit (hu.symm ▸ hge)) fun ws =>
      ⟨.reservedUnit, decode_of_unit_reserved hunit hop heng hge ws⟩

/-- Settles O2: only a header that selects a command decodes, and its packets are read back. -/
theorem encodeOfDecodeGivesThePacketBack : Obligations.EncodeOfDecodeGivesThePacketBack := by
  unfold Obligations.EncodeOfDecodeGivesThePacketBack
  intro p i hdecode
  cases decode_headerRead p.hdr with
  | refused _ herror =>
    obtain ⟨r, hr⟩ := herror p.words
    cases hr.symm.trans hdecode
  | selected _ hencode _ => exact hencode p.words i hdecode

/-- Settles O3: under an illegal header both sides hold, and under another both say that (g) does. -/
theorem decoderRejectsExactlyTheIllegalPackets : Obligations.DecoderRejectsExactlyTheIllegalPackets := by
  unfold Obligations.DecoderRejectsExactlyTheIllegalPackets
  intro ⟨h, ws⟩
  rw [illegal_eq_headerIllegal_or]
  cases decode_headerRead h with
  | refused hillegal herror => simp [hillegal, herror ws]
  | selected hlegal _ hcount => rw [hlegal, hcount ws]; simp

end Sys2Proof.Proofs

/-! ## What an accepted command answers (spec/30_encoding.md R76, R78) -/

namespace Sys2Proof.Proofs

open Sys2Proof.Machine

/-- Settles O22: of the shapes of `exec`, the three errors contradict a hypothesis each, and the other two answer `OK`
with the words that the command lists. -/
theorem acceptedCommandsAnswerTheListedWords : Obligations.AcceptedCommandsAnswerTheListedWords := by
  unfold Obligations.AcceptedCommandsAnswerTheListedWords
  intro i s hready hbounds hmodulus
  have hshape := exec_shape i s
  generalize exec i s = o at hshape ⊢
  cases hshape with
  | unseeded e hneeds hflag => exact absurd (hready e hneeds) (by simp [hflag])
  | param hzero => exact absurd hzero hmodulus
  | range _ hout => exact absurd hbounds hout
  | built e t _ _ _ hcount => exact ⟨_, [], rfl, rfl, hcount.symm⟩
  | performed e count m words _ _ _ _ _ _ hcount => exact ⟨_, words, rfl, rfl, hcount⟩

end Sys2Proof.Proofs

/-! ## Rotations (spec/40_rotation.md)

`rotr` reads bit `i` of its result at `(i + c) mod N` (R101), which composes directly, and it undoes `rotl`. It is
injective, so a law of `rotl` is proved by rotating both sides back to the right. -/

namespace Sys2Proof.Proofs

open Sys2Proof.Machine

/-! ### The bits and the shifts (R100 to R102) -/

section

variable {N : Nat} (v : BitVec N) {c : Nat}

theorem rotl_of_mod_eq_zero (h : c % N = 0) : rotl v c = v := if_pos h

theorem rotr_of_mod_eq_zero (h : c % N = 0) : rotr v c = v := if_pos h

theorem rotl_of_mod_ne_zero (h : c % N ≠ 0) : rotl v c = v <<< (c % N) ||| v >>> (N - c % N) := if_neg h

theorem rotr_of_mod_ne_zero (h : c % N ≠ 0) : rotr v c = v >>> (c % N) ||| v <<< (N - c % N) := if_neg h

/-- The library's rotation needs no case for the count 0: its shift by the whole width gives 0. -/
theorem rotl_eq_rotateLeft (c : Nat) : rotl v c = v.rotateLeft c := by
  rw [BitVec.rotateLeft_def]
  by_cases h : c % N = 0
  · simp [rotl_of_mod_eq_zero v h, h, BitVec.ushiftRight_eq_zero]
  · exact rotl_of_mod_ne_zero v h

theorem rotr_eq_rotateRight (c : Nat) : rotr v c = v.rotateRight c := by
  rw [BitVec.rotateRight_def]
  by_cases h : c % N = 0
  · simp [rotr_of_mod_eq_zero v h, h]
  · exact rotr_of_mod_ne_zero v h

/-- The count is reduced modulo the width (R102). -/
theorem rotl_mod (c : Nat) : rotl v (c % N) = rotl v c := by
  rw [rotl_eq_rotateLeft, rotl_eq_rotateLeft, BitVec.rotateLeft_mod_eq_rotateLeft]

theorem rotr_mod (c : Nat) : rotr v (c % N) = rotr v c := by
  rw [rotr_eq_rotateRight, rotr_eq_rotateRight, BitVec.rotateRight_mod_eq_rotateRight]

/-- A position moved by a count wraps around the width once or not at all. -/
theorem rotated_position {i : Nat} (hi : i < N) (c : Nat) :
    (i + c) % N = if N ≤ i + c % N then i + c % N - N else i + c % N := by
  rw [Nat.add_mod_eq_ite, Nat.mod_eq_of_lt hi]

theorem getLsbD_rotl {i : Nat} (hi : i < N) (c : Nat) : (rotl v c).getLsbD ((i + c) % N) = v.getLsbD i := by
  have hr : c % N < N := Nat.mod_lt c (by omega)
  rw [rotl_eq_rotateLeft, BitVec.getLsbD_rotateLeft, rotated_position hi]
  split
  next hwrap =>
    have hlow : i + c % N - N < c % N := by omega
    have hback : N - c % N + (i + c % N - N) = i := by omega
    simp [hlow, hback]
  next hstay =>
    have hin : i + c % N < N := by omega
    simp [hin]

theorem getLsbD_rotr {i : Nat} (hi : i < N) (c : Nat) : (rotr v c).getLsbD i = v.getLsbD ((i + c) % N) := by
  have hr : c % N < N := Nat.mod_lt c (by omega)
  rw [rotr_eq_rotateRight, BitVec.getLsbD_rotateRight, rotated_position hi]
  split
  next hwrap =>
    have hhigh : ¬ i < N - c % N := by omega
    have hback : i - (N - c % N) = i + c % N - N := by omega
    simp [hhigh, hi, hback]
  next hstay =>
    have hlow : i < N - c % N := by omega
    simp [hlow, Nat.add_comm]

end

/-- Settles O10: the lemmas above, which hold for every width. -/
theorem rotationsMoveEachBit : Obligations.RotationsMoveEachBit := by
  unfold Obligations.RotationsMoveEachBit
  intro N v c _
  exact ⟨fun i hi => getLsbD_rotl v hi c, fun i hi => getLsbD_rotr v hi c,
    fun h => ⟨rotl_of_mod_eq_zero v h, rotr_of_mod_eq_zero v h⟩,
    fun h => ⟨rotl_of_mod_ne_zero v h, rotr_of_mod_ne_zero v h⟩⟩

/-! ### The laws (R103) -/

section

variable {N : Nat} (v u : BitVec N) (c d : Nat)

/-- Law (b), the half that the bits give at once: both sides have bit `i` of `v` at `i`. -/
@[simp] theorem rotr_rotl : rotr (rotl v c) c = v :=
  BitVec.eq_of_getLsbD_eq fun i hi => by rw [getLsbD_rotr _ hi, getLsbD_rotl _ hi]

/-- Law (c) for `rotr`. -/
theorem rotr_rotr : rotr (rotr v c) d = rotr v (c + d) :=
  BitVec.eq_of_getLsbD_eq fun i hi => by
    have hpos : (i + d) % N < N := Nat.mod_lt _ (by omega)
    rw [getLsbD_rotr _ hi, getLsbD_rotr _ hpos, getLsbD_rotr _ hi, Nat.mod_add_mod, Nat.add_assoc, Nat.add_comm d]

/-- `rotr` gives back every value, that of its `rotl`; on finitely many values it is then injective. -/
theorem rotr_injective : Function.Injective fun x : BitVec N => rotr x c :=
  Finite.injective_iff_surjective.2 (Function.LeftInverse.surjective fun x => rotr_rotl x c)

/-- Law (b), the other half. -/
@[simp] theorem rotl_rotr : rotl (rotr v c) c = v := rotr_injective c (rotr_rotl (rotr v c) c)

/-- Law (c) for `rotl`: both sides go back to `v` under `c + d`, the left side under `d` and then `c`. -/
theorem rotl_rotl : rotl (rotl v c) d = rotl v (c + d) := by
  apply rotr_injective (c + d)
  calc rotr (rotl (rotl v c) d) (c + d)
    _ = rotr (rotr (rotl (rotl v c) d) d) c := by rw [rotr_rotr, Nat.add_comm]
    _ = v := by rw [rotr_rotl, rotr_rotl]
    _ = rotr (rotl v (c + d)) (c + d) := (rotr_rotl v (c + d)).symm

/-- Law (a): the two counts together are a multiple of the width. -/
theorem rotr_eq_rotl (hN : 0 < N) : rotr v c = rotl v ((N - c % N) % N) := by
  apply rotr_injective ((N - c % N) % N)
  have hr : c % N < N := Nat.mod_lt c hN
  have hmul : (c + (N - c % N) % N) % N = 0 := by
    rw [Nat.add_mod_mod, ← Nat.mod_add_mod, Nat.add_sub_cancel' hr.le, Nat.mod_self]
  simp only [rotr_rotl, rotr_rotr, rotr_of_mod_eq_zero v hmul]

/-- Law (d). -/
theorem rotr_xor : rotr (v ^^^ u) c = rotr v c ^^^ rotr u c :=
  BitVec.eq_of_getLsbD_eq fun i hi => by
    rw [BitVec.getLsbD_xor, getLsbD_rotr _ hi, getLsbD_rotr _ hi, getLsbD_rotr _ hi, BitVec.getLsbD_xor]

theorem rotl_xor : rotl (v ^^^ u) c = rotl v c ^^^ rotl u c :=
  rotr_injective c (by simp only [rotr_xor, rotr_rotl])

/-- The positions that `rotr` reads, in order, are the list of all positions rotated. -/
theorem map_rotated_position : (List.range N).map (fun i => (i + c) % N) = (List.range N).rotate c :=
  List.ext_getElem (by simp) (by simp)

/-- Law (e): the same bits are counted, from another position on. -/
theorem onesCount_rotr : onesCount (rotr v c) = onesCount v := by
  calc onesCount (rotr v c)
    _ = (List.range N).countP fun i => v.getLsbD ((i + c) % N) :=
      List.countP_congr fun i hi => by rw [getLsbD_rotr v (List.mem_range.1 hi)]
    _ = ((List.range N).rotate c).countP fun i => v.getLsbD i := by
      rw [← map_rotated_position, List.countP_map]; rfl
    _ = onesCount v := (List.rotate_perm _ c).countP_eq _

theorem onesCount_rotl : onesCount (rotl v c) = onesCount v := by
  rw [← onesCount_rotr (rotl v c) c, rotr_rotl]

theorem rotr_zero : rotr (0 : BitVec N) c = 0 :=
  BitVec.eq_of_getLsbD_eq fun i hi => by simp [getLsbD_rotr _ hi]

theorem rotl_zero : rotl (0 : BitVec N) c = 0 :=
  rotr_injective c (by simp only [rotr_rotl, rotr_zero])

theorem rotr_allOnes : rotr (BitVec.allOnes N) c = BitVec.allOnes N :=
  BitVec.eq_of_getLsbD_eq fun i hi => by
    have hpos : (i + c) % N < N := Nat.mod_lt _ (by omega)
    rw [getLsbD_rotr _ hi, BitVec.getLsbD_allOnes, BitVec.getLsbD_allOnes, decide_eq_true hpos, decide_eq_true hi]

theorem rotl_allOnes : rotl (BitVec.allOnes N) c = BitVec.allOnes N :=
  rotr_injective c (by simp only [rotr_rotl, rotr_allOnes])

end

/-- Settles O11: the laws above, which hold for every width (law (a) for every width but 0). -/
theorem rotationLaws : Obligations.RotationLaws := by
  unfold Obligations.RotationLaws
  intro N v u c d hwidth
  have hpos : 0 < N := by omega
  exact ⟨rotr_eq_rotl v c hpos, rotl_rotr v c, rotr_rotl v c, rotl_rotl v c d, rotr_rotr v c d, rotl_xor v u c,
    rotr_xor v u c, onesCount_rotl v c, rotl_zero c, rotl_allOnes c⟩

/-! ### The commands (R104 to R107) -/

theorem halfLow_eq_setWidth (v : Word) : halfLow v = v.setWidth 32 :=
  (BitVec.setWidth_eq_extractLsb' (by decide)).symm

section

variable (value count : Word) (s : State)

theorem exec_rotl32 : exec (.rotl32 value count) s = respond [zext64 (rotl (halfLow value) count.toNat)] s := rfl

theorem exec_rotr32 : exec (.rotr32 value count) s = respond [zext64 (rotr (halfLow value) count.toNat)] s := rfl

theorem exec_rotl64 : exec (.rotl64 value count) s = respond [rotl value count.toNat] s := rfl

theorem exec_rotr64 : exec (.rotr64 value count) s = respond [rotr value count.toNat] s := rfl

end

/-- Settles O12: each command answers with `rotl` or `rotr`, which reduces its count itself. -/
theorem rotCommandsAnswerTheRotatedValue : Obligations.RotCommandsAnswerTheRotatedValue := by
  unfold Obligations.RotCommandsAnswerTheRotatedValue
  intro s value count
  rw [rotl_mod, rotr_mod, rotl_mod, rotr_mod, ← halfLow_eq_setWidth]
  exact ⟨exec_rotl32 value count s, exec_rotr32 value count s, exec_rotl64 value count s, exec_rotr64 value count s⟩

end Sys2Proof.Proofs

/-! ## The contract: construction, read-back and boundaries (spec/41_contract.md R121 to R124, R127) -/

namespace Sys2Proof.Proofs

open Sys2Proof.Machine

/-! ### The words of a 128-bit value (spec/20_memory.md R52, R53) -/

theorem wideLow_eq_setWidth (v : Wide) : wideLow v = v.setWidth 64 :=
  (BitVec.setWidth_eq_extractLsb' (by decide)).symm

theorem wideHigh_eq_setWidth (v : Wide) : wideHigh v = (v >>> 64).setWidth 64 :=
  BitVec.eq_of_toNat_eq (by simp [wideHigh])

@[simp] theorem wideOf_wideLow_wideHigh (v : Wide) : wideOf (wideLow v) (wideHigh v) = v := by
  apply BitVec.eq_of_toNat_eq
  have hlow : (wideLow v).toNat = v.toNat % 2 ^ 64 := by simp [wideLow]
  have hhigh : (wideHigh v).toNat = v.toNat / 2 ^ 64 % 2 ^ 64 := by
    simp [wideHigh, Nat.shiftRight_eq_div_pow]
  rw [wideOf, BitVec.toNat_append, ← Nat.shiftLeft_add_eq_or_of_lt (wideLow v).isLt, Nat.shiftLeft_eq, hlow, hhigh]
  omega

/-! ### Construction from the entropy input (R124) -/

theorem exec_initeLcg (s : State) : exec .initeLcg s = exec (.initLcg (wideLow s.ent)) s := rfl

theorem exec_initePcg32 (s : State) : exec .initePcg32 s = exec (.initPcg32 (wideLow s.ent)) s := rfl

theorem exec_initePcg64 (s : State) :
    exec .initePcg64 s = exec (.initPcg64 (wideLow s.ent) (wideHigh s.ent)) s := by
  calc exec .initePcg64 s
    _ = respond [] (loadPcg64 Config.block s.ent s) := rfl
    _ = respond [] (loadPcg64 Config.block (wideOf (wideLow s.ent) (wideHigh s.ent)) s) := by
      rw [wideOf_wideLow_wideHigh]

theorem exec_initeSm64 (s : State) : exec .initeSm64 s = exec (.initSm64 (wideLow s.ent)) s := rfl

theorem exec_initeXo (s : State) : exec .initeXo s = exec (.initXo (wideLow s.ent)) s := rfl

/-- Settles O14: each `INITE` is the `INIT` of the entropy's words, of which those of `PCG64` make up all of it. -/
theorem initeTakesItsSeedFromEntropy : Obligations.IniteTakesItsSeedFromEntropy := by
  unfold Obligations.IniteTakesItsSeedFromEntropy
  intro s
  rw [← wideHigh_eq_setWidth, ← wideLow_eq_setWidth]
  exact ⟨⟨exec_initeLcg s, rfl⟩, ⟨exec_initePcg32 s, rfl⟩, ⟨exec_initePcg64 s, rfl⟩,
    ⟨exec_initeSm64 s, rfl⟩, ⟨exec_initeXo s, rfl⟩⟩

/-! ### The range boundaries (R121, R122) -/

theorem maxWord_eq (e : Engine) :
    BitVec.ofNat 64 (2 ^ outputWidth e - 1) = if e = .pcg32 then 0x00000000FFFFFFFF else 0xFFFFFFFFFFFFFFFF := by
  cases e <;> rfl

/-- Settles O23: neither command looks at the engine's flag, and the largest output is that of its width. -/
theorem minAndMaxAnswerWithoutConstruction : Obligations.MinAndMaxAnswerWithoutConstruction := by
  unfold Obligations.MinAndMaxAnswerWithoutConstruction
  intro s e
  rw [exec_minOf, exec_maxOf, maxCommand, maxWord_eq]
  exact ⟨rfl, rfl⟩

/-! ### The state read-back (R127) -/

theorem exec_getstateOf_of_constructed {e : Engine} {s : State} (h : s.constructed e = true) :
    exec (getstateOf e) s = respond (stateWords e s) s := by
  rw [exec_getstateOf, getstateCommand, whenConstructed_of h]

/-- Settles O24: with the engine constructed, `GETSTATE` answers its words and writes nothing. -/
theorem getstateAnswersTheRawState : Obligations.GetstateAnswersTheRawState := by
  unfold Obligations.GetstateAnswersTheRawState
  intro s
  rw [← wideHigh_eq_setWidth, ← wideLow_eq_setWidth]
  exact ⟨exec_getstateOf_of_constructed (e := .lcg), exec_getstateOf_of_constructed (e := .pcg32),
    exec_getstateOf_of_constructed (e := .pcg64), exec_getstateOf_of_constructed (e := .sm64),
    exec_getstateOf_of_constructed (e := .xo)⟩

/-- An answer `OK` of `GETSTATE` is the state's words: the refusal of an engine not constructed has another status. -/
theorem words_of_getstate {e : Engine} {s g : State} {words : List Word} (h : exec (getstateOf e) s = .next g)
    (hg : g.response = some ⟨0, words⟩) : words = stateWords e s := by
  rw [exec_getstateOf, getstateCommand, whenConstructed] at h
  split at h
  · have hresponse := respond_next h ▸ hg
    exact (Response.mk.inj (Option.some.inj hresponse)).2.symm
  · have hresponse := raise_next h ▸ hg
    have hstatus := (Response.mk.inj (Option.some.inj hresponse)).1
    exact absurd hstatus (by decide)

/-! ### Reconstruction (R127) -/

/-- Construction that brings the registers back brings the future draws back: they are a function of them (R126). -/
theorem reconstruct {i : Instr} {e : Engine} {s t u : State} (count : Nat) (hexec : exec i t = respond [] u)
    (hregs : sameRegisters e s u) :
    ∃ u, exec i t = .next u ∧ outputs Config.block e count u = outputs Config.block e count s :=
  ⟨_, hexec, (outputs_congr Config.block e count s _ ((sameRegisters_withResponse e s u _).2 hregs)).symm⟩

theorem exec_initLcg (seed : Word) (t : State) :
    exec (.initLcg seed) t = respond [] (loadLcg Config.block seed t) := rfl

theorem exec_initPcg32 (seed : Word) (t : State) :
    exec (.initPcg32 seed) t = respond [] (loadPcg32 Config.block seed t) := rfl

theorem exec_initPcg64 (seedLo seedHi : Word) (t : State) :
    exec (.initPcg64 seedLo seedHi) t = respond [] (loadPcg64 Config.block (wideOf seedLo seedHi) t) := rfl

theorem exec_initSm64 (seed : Word) (t : State) : exec (.initSm64 seed) t = respond [] (loadSm64 seed t) := rfl

theorem exec_initpLcg {modulus : Word} (seed mul inc : Word) (t : State) (h : modulus ≠ 0) :
    exec (.initpLcg seed mul inc modulus) t = respond [] ((t.withLcg ⟨seed, mul, inc, modulus⟩).construct .lcg) :=
  if_neg h

theorem exec_initpPcg32 (seed mul inc : Word) (t : State) :
    exec (.initpPcg32 seed mul inc) t = respond [] ((t.withPcg32 ⟨seed, mul, inc⟩).construct .pcg32) := rfl

/-- The operands as the words of 128-bit values. -/
theorem exec_initpPcg64 (seed mul inc : Wide) (t : State) :
    exec (.initpPcg64 (wideLow seed) (wideHigh seed) (wideLow mul) (wideHigh mul) (wideLow inc) (wideHigh inc)) t =
      respond [] ((t.withPcg64 ⟨seed, mul, inc⟩).construct .pcg64) := by
  simp only [exec, execInitpPcg64, wideOf_wideLow_wideHigh]

/-- Settles O35: the words read back are the state, so that construction with the same parameters gives the same
registers. -/
theorem reconstructionReproducesTheFuture : Obligations.ReconstructionReproducesTheFuture := by
  unfold Obligations.ReconstructionReproducesTheFuture
  intro s g t lo hi count
  simp only [← wideHigh_eq_setWidth]
  simp only [← wideLow_eq_setWidth]
  refine ⟨?initpLcg, ?initLcg, ?initpPcg32, ?initPcg32, ?initpPcg64, ?initPcg64, ?initSm64⟩
  case initpLcg =>
    intro h hg hmodulus
    obtain ⟨rfl⟩ : [lo] = [s.lcg.state] := words_of_getstate (e := .lcg) h hg
    exact reconstruct (e := .lcg) count (exec_initpLcg _ _ _ t hmodulus) rfl
  case initLcg =>
    intro h hg hdefault
    obtain ⟨rfl⟩ : [lo] = [s.lcg.state] := words_of_getstate (e := .lcg) h hg
    exact reconstruct (e := .lcg) count (exec_initLcg _ t) hdefault
  case initpPcg32 =>
    intro h hg
    obtain ⟨rfl⟩ : [lo] = [s.p32.state] := words_of_getstate (e := .pcg32) h hg
    exact reconstruct (e := .pcg32) count (exec_initpPcg32 _ _ _ t) rfl
  case initPcg32 =>
    intro h hg hdefault
    obtain ⟨rfl⟩ : [lo] = [s.p32.state] := words_of_getstate (e := .pcg32) h hg
    exact reconstruct (e := .pcg32) count (exec_initPcg32 _ t) hdefault
  case initpPcg64 =>
    intro h hg
    obtain ⟨rfl, rfl⟩ : [lo, hi] = [wideLow s.p64.state, wideHigh s.p64.state] :=
      words_of_getstate (e := .pcg64) h hg
    exact reconstruct (e := .pcg64) count (exec_initpPcg64 _ _ _ t) rfl
  case initPcg64 =>
    intro h hg hdefault
    obtain ⟨rfl, rfl⟩ : [lo, hi] = [wideLow s.p64.state, wideHigh s.p64.state] :=
      words_of_getstate (e := .pcg64) h hg
    rw [← wideOf_wideLow_wideHigh s.p64.state] at hdefault
    exact reconstruct (e := .pcg64) count (exec_initPcg64 _ _ t) hdefault
  case initSm64 =>
    intro h hg
    obtain ⟨rfl⟩ : [lo] = [s.sm] := words_of_getstate (e := .sm64) h hg
    exact reconstruct (e := .sm64) count (exec_initSm64 _ t) rfl

end Sys2Proof.Proofs

/-! ## Ranged draws (spec/41_contract.md R128 to R131) -/

namespace Sys2Proof.Proofs

open Sys2Proof.Machine

/-! ### RANGE_MAP (R131) -/

/-- A map that keeps below its span is the `RANGE_MAP` of the configuration that holds it: the reduction by which the
model applies the contract leaves its values alone. -/
theorem rangeMap_surjective {f : Nat → Word → Word → Word}
    (hf : ∀ width raw span, span ≠ 0 → (f width raw span).toNat < span.toNat) :
    ∃ c : Config, ∀ width raw span, span ≠ 0 → rangeMap c width raw span = f width raw span := by
  refine ⟨{ Config.block with rangeMapRaw := fun width raw span => (f width raw span).toNat }, ?_⟩
  intro width raw span hspan
  rw [rangeMap, Nat.mod_eq_of_lt (hf width raw span hspan), BitVec.ofNat_toNat, BitVec.setWidth_eq]

/-- Settles O27, by the model's bound of `rangeMap` and the converse above. -/
theorem rangeMapIsAnyMapBelowItsSpan : Obligations.RangeMapIsAnyMapBelowItsSpan := by
  unfold Obligations.RangeMapIsAnyMapBelowItsSpan
  exact ⟨rangeMap_lt, fun _ hf => rangeMap_surjective hf⟩

/-! ### Signed ranges (R130) -/

/-- The span of a signed range does not wrap, not even for the widest one. -/
theorem toNat_span {a b : Word} (h : a.toInt < b.toInt) : ((b - a).toNat : Int) = b.toInt - a.toInt := by
  rw [BitVec.toInt_eq_toNat_cond, BitVec.toInt_eq_toNat_cond] at *
  bv_omega

/-- An offset below the span is added without leaving the signed range. -/
theorem toInt_add_offset {a b off : Word} (h : a.toInt < b.toInt) (hoff : off.toNat < (b - a).toNat) :
    (a + off).toInt = a.toInt + off.toNat := by
  have hspan := toNat_span h
  have hlow := BitVec.le_toInt a
  have hhigh := BitVec.toInt_lt (x := b)
  rw [BitVec.toInt_add, BitVec.toInt_eq_toNat_bmod off, Int.add_bmod_bmod]
  exact Int.bmod_eq_of_le (by omega) (by omega)

/-- The offset of a ranged draw. -/
theorem rangeMap_span_lt (c : Config) (width : Nat) (raw : Word) {a b : Word} (h : a.toInt < b.toInt) :
    (rangeMap c width raw (b - a)).toNat < (b - a).toNat := by
  have hspan := toNat_span h
  refine rangeMap_lt c width raw (b - a) fun hzero => ?_
  have hnone : (b - a).toNat = 0 := congrArg BitVec.toNat hzero
  omega

/-! ### The commands (R128, R129) -/

theorem exec_nextrOf_of_ge {e : Engine} {s : State} {a b : Word} (hs : s.constructed e = true)
    (h : b.toInt ≤ a.toInt) : exec (nextrOf e a b) s = respond [a] s := by
  rw [exec_nextrOf, nextrCommand, whenConstructed_of hs, ranged_of_ge _ _ _ _ _ h]

theorem exec_nextrOf_of_lt {e : Engine} {s : State} {a b : Word} (hs : s.constructed e = true)
    (h : a.toInt < b.toInt) :
    exec (nextrOf e a b) s =
      respond [a + rangeMap Config.block (outputWidth e) (draw Config.block e s).1 (b - a)]
        (draw Config.block e s).2 := by
  rw [exec_nextrOf, nextrCommand, whenConstructed_of hs, ranged_of_lt _ _ _ _ _ h]

theorem exec_nextnOf_eq_nextrOf (e : Engine) (n : Word) (s : State) :
    exec (nextnOf e n) s = exec (nextrOf e 0 n) s := by
  rw [exec_nextnOf, exec_nextrOf]; rfl

/-- Settles O25: the two cases of `Ranged`, and the offset below a span that does not wrap. -/
theorem rangedDrawsStayInTheHalfOpenRange : Obligations.RangedDrawsStayInTheHalfOpenRange := by
  unfold Obligations.RangedDrawsStayInTheHalfOpenRange
  intro s e a b hs
  refine ⟨exec_nextrOf_of_ge hs, fun h => ?_⟩
  intro d off
  have hspan : ((b - a).toNat : Int) = b.toInt - a.toInt := toNat_span h
  have hoff : off.toNat < (b - a).toNat := rangeMap_span_lt Config.block (outputWidth e) d.1 h
  have hadd : (a + off).toInt = a.toInt + off.toNat := toInt_add_offset h hoff
  exact ⟨exec_nextrOf_of_lt hs h, hspan, hoff, by omega, by omega⟩

/-- Settles O26: `NEXTN` is `NEXTR` from 0, where the span is the bound itself. -/
theorem nextnAnswersBelowItsBound : Obligations.NextnAnswersBelowItsBound := by
  unfold Obligations.NextnAnswersBelowItsBound
  intro s e n hs
  rw [exec_nextnOf_eq_nextrOf]
  refine ⟨rfl, exec_nextrOf_of_ge (a := 0) hs, fun h => ⟨_, ?_, exec_nextrOf_of_lt (a := 0) hs h⟩⟩
  have hoff := rangeMap_span_lt Config.block (outputWidth e) (draw Config.block e s).1 (a := 0) h
  simpa using hoff

end Sys2Proof.Proofs

/-! ## Binary64 (spec/00_scope.md R14, spec/41_contract.md R137)

A pattern without its sign is a number, and its exact value in units of 2^-1074 rises with that number. So the order of
the places of two patterns is the order of their values, and the ranges of the contract can be read off the patterns. -/

namespace Sys2Proof.Proofs

open Sys2Proof.Machine

/-! ### The value of a magnitude -/

/-- The value of a pattern without its sign, in units of 2^-1074. -/
def magnitudeScaled (m : Nat) : Nat :=
  if m / 2 ^ 52 = 0 then m % 2 ^ 52 else (2 ^ 52 + m % 2 ^ 52) * 2 ^ (m / 2 ^ 52 - 1)

/-- The magnitude of the infinities: the finite patterns lie below it and the NaNs above. -/
def infinityMagnitude : Nat := 2047 * 2 ^ 52

theorem f64Magnitude_eq (v : Word) : f64Magnitude v = v.toNat % 2 ^ 63 := by simp [f64Magnitude]

theorem f64Magnitude_lt (v : Word) : f64Magnitude v < 2 ^ 63 := (v.extractLsb' 0 63).isLt

theorem f64Exp_eq (v : Word) : f64Exp v = f64Magnitude v / 2 ^ 52 := by
  have hbits : f64Exp v = v.toNat / 2 ^ 52 % 2 ^ 11 := by simp [f64Exp, Nat.shiftRight_eq_div_pow]
  rw [hbits, f64Magnitude_eq]
  omega

theorem f64Frac_eq (v : Word) : f64Frac v = f64Magnitude v % 2 ^ 52 := by
  simp [f64Frac, f64Magnitude]

theorem f64Scaled_eq (v : Word) :
    f64Scaled v = if v.msb then -(magnitudeScaled (f64Magnitude v) : Int) else magnitudeScaled (f64Magnitude v) := by
  simp only [f64Scaled, magnitudeScaled, f64Exp_eq, f64Frac_eq]

theorem magnitudeScaled_zero : magnitudeScaled 0 = 0 := by simp [magnitudeScaled]

/-- With exponent field `e + 1` the hidden bit counts, and the unit is `2^e`. -/
theorem magnitudeScaled_normal {frac : Nat} (e : Nat) (h : frac < 2 ^ 52) :
    magnitudeScaled ((e + 1) * 2 ^ 52 + frac) = (2 ^ 52 + frac) * 2 ^ e := by
  have hexp : ((e + 1) * 2 ^ 52 + frac) / 2 ^ 52 = e + 1 := by omega
  have hfrac : ((e + 1) * 2 ^ 52 + frac) % 2 ^ 52 = frac := by omega
  rw [magnitudeScaled, hexp, hfrac, if_neg (by omega), Nat.add_sub_cancel]

theorem magnitudeScaled_subnormal {frac : Nat} (h : frac < 2 ^ 52) : magnitudeScaled frac = frac := by
  rw [magnitudeScaled, if_pos (by omega), Nat.mod_eq_of_lt h]

/-- Every magnitude is one of a subnormal or of a normal value. -/
theorem magnitude_cases (m : Nat) : m < 2 ^ 52 ∨ ∃ e frac, frac < 2 ^ 52 ∧ m = (e + 1) * 2 ^ 52 + frac := by
  by_cases h : m < 2 ^ 52
  · exact .inl h
  · exact .inr ⟨m / 2 ^ 52 - 1, m % 2 ^ 52, by omega, by omega⟩

/-- The next magnitude has a larger value; after the largest fraction comes fraction 0 with the next exponent. -/
theorem magnitudeScaled_lt_succ (m : Nat) : magnitudeScaled m < magnitudeScaled (m + 1) := by
  rcases magnitude_cases m with hsub | ⟨e, frac, hfrac, rfl⟩
  · rw [magnitudeScaled_subnormal hsub]
    by_cases hnext : m + 1 < 2 ^ 52
    · rw [magnitudeScaled_subnormal hnext]
      omega
    · rw [show m + 1 = (0 + 1) * 2 ^ 52 + 0 by omega, magnitudeScaled_normal 0 (by omega)]
      omega
  · have hpos : 0 < 2 ^ e := Nat.two_pow_pos e
    rw [magnitudeScaled_normal e hfrac]
    by_cases hnext : frac + 1 < 2 ^ 52
    · rw [Nat.add_assoc, magnitudeScaled_normal e hnext]
      exact Nat.mul_lt_mul_of_pos_right (by omega) hpos
    · rw [show (e + 1) * 2 ^ 52 + frac + 1 = (e + 1 + 1) * 2 ^ 52 + 0 by omega,
        magnitudeScaled_normal (e + 1) (by omega), Nat.pow_succ]
      calc (2 ^ 52 + frac) * 2 ^ e
        _ < (2 ^ 52 + 2 ^ 52) * 2 ^ e := Nat.mul_lt_mul_of_pos_right (by omega) hpos
        _ = (2 ^ 52 + 0) * (2 ^ e * 2) := by ring

theorem magnitudeScaled_strictMono : StrictMono magnitudeScaled :=
  strictMono_nat_of_lt_succ magnitudeScaled_lt_succ

theorem magnitudeScaled_eq_zero_iff (m : Nat) : magnitudeScaled m = 0 ↔ m = 0 :=
  magnitudeScaled_strictMono.injective.eq_iff' magnitudeScaled_zero

/-! ### Finite patterns, infinities and NaNs -/

theorem f64IsFinite_iff (v : Word) : f64IsFinite v = true ↔ f64Magnitude v < infinityMagnitude := by
  have hm := f64Magnitude_lt v
  rw [f64IsFinite, decide_eq_true_iff, f64Exp_eq, infinityMagnitude]
  omega

theorem f64IsNaN_iff (v : Word) : f64IsNaN v = true ↔ infinityMagnitude < f64Magnitude v := by
  have hm := f64Magnitude_lt v
  rw [f64IsNaN, decide_eq_true_iff, f64Exp_eq, f64Frac_eq, infinityMagnitude]
  omega

theorem f64IsNaN_of_finite {v : Word} (h : f64IsFinite v = true) : f64IsNaN v = false := by
  rw [f64IsFinite_iff] at h
  rw [← Bool.not_eq_true, f64IsNaN_iff]
  omega

theorem f64IsNaN_infinity : f64IsNaN 0x7FF0000000000000 = false := by decide

theorem f64IsNaN_negInfinity : f64IsNaN 0xFFF0000000000000 = false := by decide

theorem f64Order_infinity : f64Order 0x7FF0000000000000 = infinityMagnitude := by decide

theorem f64Order_negInfinity : f64Order 0xFFF0000000000000 = -infinityMagnitude := by decide

/-- The magnitude of an infinity is that of two patterns, one for each sign. -/
theorem f64Magnitude_eq_infinity_iff (v : Word) :
    f64Magnitude v = infinityMagnitude ↔ v = 0x7FF0000000000000 ∨ v = 0xFFF0000000000000 := by
  rw [f64Magnitude_eq, infinityMagnitude]
  bv_omega

/-- The patterns that are no NaN. -/
theorem f64IsNaN_eq_false_iff (v : Word) :
    f64IsNaN v = false ↔ f64IsFinite v = true ∨ v = 0x7FF0000000000000 ∨ v = 0xFFF0000000000000 := by
  rw [← f64Magnitude_eq_infinity_iff, f64IsFinite_iff, ← Bool.not_eq_true, f64IsNaN_iff]
  omega

/-! ### The order -/

/-- The order of the places is the order of the exact values: for each pair of signs, that of the magnitudes. -/
theorem f64Order_lt_iff (x y : Word) : f64Order x < f64Order y ↔ f64Scaled x < f64Scaled y := by
  have hlt (m n : Nat) : magnitudeScaled m < magnitudeScaled n ↔ m < n := magnitudeScaled_strictMono.lt_iff_lt
  have hxy := hlt (f64Magnitude x) (f64Magnitude y)
  have hyx := hlt (f64Magnitude y) (f64Magnitude x)
  have hx := magnitudeScaled_eq_zero_iff (f64Magnitude x)
  have hy := magnitudeScaled_eq_zero_iff (f64Magnitude y)
  rw [f64Scaled_eq, f64Scaled_eq, f64Order, f64Order]
  split <;> split <;> omega

theorem f64Order_bounds_of_finite {v : Word} (h : f64IsFinite v = true) :
    -infinityMagnitude < f64Order v ∧ f64Order v < infinityMagnitude := by
  rw [f64IsFinite_iff] at h
  rw [f64Order]
  split <;> omega

/-- `NUM.lt` of patterns that are no NaN (R137). -/
theorem numLt_iff (c : Config) {x y : Word} (hx : f64IsNaN x = false) (hy : f64IsNaN y = false) :
    numLt c x y = true ↔ f64Order x < f64Order y := by
  simp [numLt, f64Less, hx, hy]

theorem numLt_iff_of_finite (c : Config) {x y : Word} (hx : f64IsFinite x = true) (hy : f64IsFinite y = true) :
    numLt c x y = true ↔ f64Scaled x < f64Scaled y :=
  (numLt_iff c (f64IsNaN_of_finite hx) (f64IsNaN_of_finite hy)).trans (f64Order_lt_iff x y)

theorem numLt_infinity (c : Config) {x : Word} (hx : f64IsFinite x = true) :
    numLt c x 0x7FF0000000000000 = true ∧ numLt c 0x7FF0000000000000 x = false := by
  obtain ⟨hlow, hhigh⟩ := f64Order_bounds_of_finite hx
  have hnan := f64IsNaN_of_finite hx
  rw [← Bool.not_eq_true, numLt_iff c hnan f64IsNaN_infinity, numLt_iff c f64IsNaN_infinity hnan, f64Order_infinity]
  omega

theorem numLt_negInfinity (c : Config) {x : Word} (hx : f64IsFinite x = true) :
    numLt c 0xFFF0000000000000 x = true ∧ numLt c x 0xFFF0000000000000 = false := by
  obtain ⟨hlow, hhigh⟩ := f64Order_bounds_of_finite hx
  have hnan := f64IsNaN_of_finite hx
  rw [← Bool.not_eq_true, numLt_iff c hnan f64IsNaN_negInfinity, numLt_iff c f64IsNaN_negInfinity hnan,
    f64Order_negInfinity]
  omega

theorem numLt_infinities (c : Config) :
    numLt c 0xFFF0000000000000 0x7FF0000000000000 = true ∧ numLt c 0x7FF0000000000000 0xFFF0000000000000 = false ∧
      numLt c 0x7FF0000000000000 0x7FF0000000000000 = false ∧
      numLt c 0xFFF0000000000000 0xFFF0000000000000 = false := by
  have hpos := f64IsNaN_infinity
  have hneg := f64IsNaN_negInfinity
  simp only [← Bool.not_eq_true, numLt_iff c hneg hpos, numLt_iff c hpos hneg, numLt_iff c hpos hpos,
    numLt_iff c hneg hneg, f64Order_infinity, f64Order_negInfinity, infinityMagnitude]
  omega

/-- Settles O33: `NUM.lt` compares places, whose order is that of the values, with the infinities at both ends. -/
theorem lessThanIsTheOrderOfTheExactValues : Obligations.LessThanIsTheOrderOfTheExactValues := by
  unfold Obligations.LessThanIsTheOrderOfTheExactValues
  intro c x y
  exact ⟨numLt_iff_of_finite c, numLt_infinity c, numLt_negInfinity c, numLt_infinities c, f64IsNaN_eq_false_iff x⟩

end Sys2Proof.Proofs

/-! ## Unit values (spec/41_contract.md R132 to R136, R140, R141) -/

namespace Sys2Proof.Proofs

open Sys2Proof.Machine

/-! ### The open unit interval -/

/-- A pattern below that of 1.0 has no sign, so that it is its own magnitude. -/
theorem f64Magnitude_of_lt_one {v : Word} (h : v.toNat < f64One.toNat) : f64Magnitude v = v.toNat := by
  have hone : f64One.toNat = 1023 * 2 ^ 52 := rfl
  rw [f64Magnitude_eq]
  omega

theorem f64Order_of_lt_one {v : Word} (h : v.toNat < f64One.toNat) : f64Order v = v.toNat := by
  have hone : f64One.toNat = 1023 * 2 ^ 52 := rfl
  have hmsb : v.msb = false := BitVec.msb_eq_false_iff_two_mul_lt.2 (by omega)
  rw [f64Order, hmsb, f64Magnitude_of_lt_one h, if_neg Bool.false_ne_true]

theorem f64Scaled_of_lt_one {v : Word} (h : v.toNat < f64One.toNat) : f64Scaled v = magnitudeScaled v.toNat := by
  have hone : f64One.toNat = 1023 * 2 ^ 52 := rfl
  have hmsb : v.msb = false := BitVec.msb_eq_false_iff_two_mul_lt.2 (by omega)
  rw [f64Scaled_eq, hmsb, f64Magnitude_of_lt_one h, if_neg Bool.false_ne_true]

/-- The powers of two are the values with fraction 0. -/
theorem magnitudeScaled_power {e k : Nat} (hk : k = 52 + e) : magnitudeScaled ((e + 1) * 2 ^ 52) = 2 ^ k := by
  rw [hk, Nat.pow_add, ← Nat.add_zero ((e + 1) * 2 ^ 52), magnitudeScaled_normal e (by decide), Nat.add_zero]

theorem magnitudeScaled_one : magnitudeScaled f64One.toNat = 2 ^ 1074 := magnitudeScaled_power (e := 1022) rfl

theorem magnitudeScaled_half : magnitudeScaled f64Half.toNat = 2 ^ 1073 := magnitudeScaled_power (e := 1021) rfl

theorem f64IsFinite_half : f64IsFinite f64Half = true := by decide

theorem f64Scaled_half : f64Scaled f64Half = 2 ^ 1073 := by
  rw [f64Scaled_of_lt_one (by decide), magnitudeScaled_half, Nat.cast_pow, Nat.cast_ofNat]

/-- A finite value strictly between 0 and 1, as R135 asks of `NUM.unit`. -/
structure InOpenUnit (v : Word) : Prop where
  finite : f64IsFinite v = true
  pos : 0 < f64Scaled v
  lt_one : f64Scaled v < 2 ^ 1074

theorem inOpenUnit_of_bounds {v : Word} (hpos : 0 < v.toNat) (hlt : v.toNat < f64One.toNat) : InOpenUnit v where
  finite := by
    have hone : f64One.toNat < infinityMagnitude := by decide
    rw [f64IsFinite_iff, f64Magnitude_of_lt_one hlt]
    omega
  pos := by
    have hvalue := magnitudeScaled_strictMono hpos
    rw [magnitudeScaled_zero] at hvalue
    rw [f64Scaled_of_lt_one hlt]
    exact_mod_cast hvalue
  lt_one := by
    have hvalue := magnitudeScaled_strictMono hlt
    rw [magnitudeScaled_one] at hvalue
    rw [f64Scaled_of_lt_one hlt]
    exact_mod_cast hvalue

theorem numUnit_inOpenUnit (c : Config) (width : Nat) (raw : Word) : InOpenUnit (numUnit c width raw) :=
  inOpenUnit_of_bounds (numUnit_bounds c width raw).1 (numUnit_bounds c width raw).2

/-! ### The commands that draw one unit value -/

/-- The unit value that `Real_e` makes of the next draw (R141). -/
def unitValue (c : Config) (e : Engine) (s : State) : Word := numUnit c (outputWidth e) (draw c e s).1

section

variable {e : Engine} {s : State} (hs : s.constructed e = true)

include hs

theorem exec_realOf_of_constructed :
    exec (realOf e) s = respond [unitValue Config.block e s] (draw Config.block e s).2 := by
  rw [exec_realOf, realCommand, whenConstructed_of hs, realDraw_eq, unitValue]

theorem realrCommand_of_constructed (c : Config) (a b : Word) :
    realrCommand c e a b s = respond [numLerp c a b (unitValue c e s)] (draw c e s).2 := by
  rw [realrCommand, whenConstructed_of hs, realDraw_eq, unitValue]

theorem exec_headsOf_of_constructed :
    exec (headsOf e) s =
      respond [boolWord (numLt Config.block (unitValue Config.block e s) f64Half)] (draw Config.block e s).2 := by
  rw [exec_headsOf, headsCommand, whenConstructed_of hs, realDraw_eq, unitValue]

theorem exec_headswOf_of_constructed (weight : Word) :
    exec (headswOf e weight) s =
      respond [boolWord (numLt Config.block (unitValue Config.block e s) weight)] (draw Config.block e s).2 := by
  rw [exec_headswOf, headswCommand, whenConstructed_of hs, realDraw_eq, unitValue]

end

/-- Settles O28: `REAL` answers the unit value, which the contract of `NUM.unit` keeps in the interval. -/
theorem realDrawsLieInTheOpenUnitInterval : Obligations.RealDrawsLieInTheOpenUnitInterval := by
  unfold Obligations.RealDrawsLieInTheOpenUnitInterval
  intro s e hs d r
  have hr : InOpenUnit r := numUnit_inOpenUnit _ _ _
  exact ⟨exec_realOf_of_constructed hs, hr.finite, hr.pos, hr.lt_one⟩

/-- Settles O29, by what `REALR` does on every configuration. -/
theorem realrAnswersTheMapOfOneDraw : Obligations.RealrAnswersTheMapOfOneDraw := by
  unfold Obligations.RealrAnswersTheMapOfOneDraw
  intro s e a b hs
  exact (exec_realrOf e a b s).trans (realrCommand_of_constructed hs Config.block a b)

/-- Settles O30: the unit value meets what the promise asks of the third operand of `NUM.lerp`. -/
theorem lerpPromiseBoundsRealr : Obligations.LerpPromiseBoundsRealr := by
  unfold Obligations.LerpPromiseBoundsRealr
  intro c s e a b hlerp hs ha hb hab
  have hr : InOpenUnit (unitValue c e s) := numUnit_inOpenUnit _ _ _
  obtain ⟨-, hlow, hhigh⟩ := hlerp a b (unitValue c e s) ha hb hr.finite hab hr.pos hr.lt_one
  exact ⟨_, _, realrCommand_of_constructed hs c a b, rfl, hlow, hhigh⟩

/-! ### The Boolean draws -/

theorem boolWord_eq_one_iff (b : Bool) : boolWord b = 1 ↔ b = true := by cases b <;> decide

theorem boolWord_of_true {b : Bool} (h : b = true) : boolWord b = 1 := if_pos h

theorem boolWord_of_false {b : Bool} (h : b = false) : boolWord b = 0 := by rw [h]; rfl

theorem boolWord_eq_zero_or_one (b : Bool) : boolWord b = 0 ∨ boolWord b = 1 := by cases b <;> decide

theorem boolWord_numLt_of_finite (c : Config) {x y : Word} (hx : f64IsFinite x = true) (hy : f64IsFinite y = true) :
    boolWord (numLt c x y) = if f64Scaled x < f64Scaled y then 1 else 0 := by
  simp only [boolWord, numLt_iff_of_finite c hx hy]

/-- Settles O31: one half is 2^1073 in the units of the values. -/
theorem headsComparesOneDrawWithOneHalf : Obligations.HeadsComparesOneDrawWithOneHalf := by
  unfold Obligations.HeadsComparesOneDrawWithOneHalf
  intro s e hs d r
  have hr : InOpenUnit r := numUnit_inOpenUnit _ _ _
  rw [exec_headsOf_of_constructed hs, ← f64Scaled_half,
    ← boolWord_numLt_of_finite Config.block hr.finite f64IsFinite_half]
  rfl

/-- Settles O32: the cases of `NUM.lt` at the weight, with the unit value between 0 and 1. -/
theorem headswComparesOneDrawWithTheWeight : Obligations.HeadswComparesOneDrawWithTheWeight := by
  unfold Obligations.HeadswComparesOneDrawWithTheWeight
  intro s e weight hs d r
  have hr : InOpenUnit r := numUnit_inOpenUnit _ _ _
  have hfinite := numLt_iff_of_finite Config.block (y := weight) hr.finite
  refine ⟨boolWord (numLt Config.block r weight), boolWord_eq_zero_or_one _, exec_headswOf_of_constructed hs weight,
    ?finite, ?low, ?high, ?infinity, ?negInfinity, ?nan⟩
  case finite => exact fun hw => (boolWord_eq_one_iff _).trans (hfinite hw)
  case low =>
    intro hw hlow
    refine boolWord_of_false (Bool.eq_false_iff.2 fun hlt => ?_)
    exact absurd (hr.pos.trans ((hfinite hw).1 hlt)) hlow.not_gt
  case high => exact fun hw hhigh => boolWord_of_true ((hfinite hw).2 (hr.lt_one.trans_le hhigh))
  case infinity =>
    rintro rfl
    exact boolWord_of_true (numLt_infinity Config.block hr.finite).1
  case negInfinity =>
    rintro rfl
    exact boolWord_of_false (numLt_negInfinity Config.block hr.finite).2
  case nan =>
    intro hw
    rw [boolWord_eq_one_iff, numLt, hw, Bool.or_true, if_pos rfl]

end Sys2Proof.Proofs

/-! ## The reference body of NUM.unit (spec/41_contract.md R135)

The exact values it rounds have at most 53 significant bits, so that rounding drops only zeros. -/

namespace Sys2Proof.Proofs

open Sys2Proof.Machine

/-- The bits that rounding drops from a value of at least 53 bits. -/
def droppedBits (m : Nat) : Nat := m.log2 - 52

/-- With 53 bits left of `m`, the one on top is the hidden bit. -/
theorem kept_bounds {m : Nat} (hm : 2 ^ 52 ≤ m) :
    2 ^ 52 ≤ m / 2 ^ droppedBits m ∧ m / 2 ^ droppedBits m < 2 ^ 53 := by
  have hne : m ≠ 0 := by omega
  have hlog : 52 ≤ m.log2 := (Nat.le_log2 hne).2 hm
  have hpos : 0 < 2 ^ droppedBits m := Nat.two_pow_pos _
  rw [Nat.le_div_iff_mul_le hpos, Nat.div_lt_iff_lt_mul hpos, ← Nat.pow_add, ← Nat.pow_add,
    droppedBits, Nat.add_sub_cancel' hlog, show 53 + (m.log2 - 52) = m.log2 + 1 by omega]
  exact ⟨Nat.log2_self_le hne, Nat.lt_log2_self⟩

/-- Where only zeros are dropped, `f64Round` keeps the quotient and puts the exponent above it. -/
theorem f64Round_of_dvd {m : Nat} (hdvd : 2 ^ droppedBits m ∣ m) :
    f64Round m 0 = min (m / 2 ^ droppedBits m + droppedBits m * 2 ^ 52) infinityMagnitude := by
  have hrest : m % 2 ^ (m.log2 - 52) = 0 := Nat.mod_eq_zero_of_dvd hdvd
  have hpos : 0 < 2 ^ (m.log2 - 52 - 1) := Nat.two_pow_pos _
  simp only [f64Round, Nat.zero_add, Nat.sub_zero, hrest, hpos, or_true, if_true]
  rfl

/-- Rounding is exact where it drops only zeros and the value is far below the infinities. -/
theorem magnitudeScaled_f64Round {m : Nat} (hm : 2 ^ 52 ≤ m) (hdvd : 2 ^ droppedBits m ∣ m)
    (hfew : droppedBits m ≤ 2045) : magnitudeScaled (f64Round m 0) = m := by
  obtain ⟨hlow, hhigh⟩ := kept_bounds hm
  have hround : f64Round m 0 = (droppedBits m + 1) * 2 ^ 52 + (m / 2 ^ droppedBits m - 2 ^ 52) := by
    rw [f64Round_of_dvd hdvd, infinityMagnitude]
    omega
  rw [hround, magnitudeScaled_normal _ (by omega), Nat.add_sub_cancel' hlow, Nat.div_mul_cancel hdvd]

/-- The numbers of the reference body: `n * 2^k` with `n` of at most 53 bits, below 1.0. -/
theorem magnitudeScaled_f64Round_mul {n k j : Nat} (hn : 0 < n) (hlt : n < 2 ^ j) (hj : j ≤ 53) (hjk : j + k = 1074) :
    magnitudeScaled (f64Round (n * 2 ^ k) 0) = n * 2 ^ k := by
  have hpos : 0 < 2 ^ k := Nat.two_pow_pos k
  have hbits : (n * 2 ^ k).log2 < 1074 := by
    rw [Nat.log2_lt (Nat.mul_pos hn hpos).ne', ← hjk, Nat.pow_add]
    exact Nat.mul_lt_mul_of_pos_right hlt hpos
  have hdrop : droppedBits (n * 2 ^ k) ≤ k := by
    rw [droppedBits]
    omega
  refine magnitudeScaled_f64Round ?_ ((Nat.pow_dvd_pow 2 hdrop).mul_left n) (by omega)
  calc 2 ^ 52
    _ ≤ 2 ^ k := Nat.pow_le_pow_right (by decide) (by omega)
    _ ≤ n * 2 ^ k := Nat.le_mul_of_pos_left _ hn

/-- The number that `NUM.unit` makes of a pattern strictly between those of 0 and 1.0 is that pattern. -/
theorem numUnit_of_unitRaw {c : Config} {width m : Nat} {raw : Word} (hraw : c.unitRaw width raw = m - 1)
    (hpos : 0 < m) (hlt : m < f64One.toNat) : (numUnit c width raw).toNat = m := by
  have hone : f64One.toNat < 2 ^ 64 := f64One.isLt
  rw [numUnit, hraw, Nat.mod_eq_of_lt (by omega), Nat.add_sub_cancel' hpos, BitVec.toNat_ofNat,
    Nat.mod_eq_of_lt (by omega)]

/-- A configuration whose `NUM.unit` is the rounding of `n * 2^k` has exactly that value. -/
theorem f64Scaled_numUnit_of_exact {c : Config} {width n k j : Nat} {raw : Word}
    (hraw : c.unitRaw width raw = (BitVec.ofNat 64 (f64Round (n * 2 ^ k) 0)).toNat - 1)
    (hn : 0 < n) (hlt : n < 2 ^ j) (hj : j ≤ 53) (hjk : j + k = 1074) :
    f64IsFinite (numUnit c width raw) = true ∧ f64Scaled (numUnit c width raw) = n * 2 ^ k := by
  have hvalue := magnitudeScaled_f64Round_mul hn hlt hj hjk
  have hround : 0 < f64Round (n * 2 ^ k) 0 ∧ f64Round (n * 2 ^ k) 0 < f64One.toNat := by
    rw [← magnitudeScaled_strictMono.lt_iff_lt, ← magnitudeScaled_strictMono.lt_iff_lt (b := f64One.toNat), hvalue,
      magnitudeScaled_zero, magnitudeScaled_one, ← hjk, Nat.pow_add]
    exact ⟨Nat.mul_pos hn (Nat.two_pow_pos k), Nat.mul_lt_mul_of_pos_right hlt (Nat.two_pow_pos k)⟩
  obtain ⟨hpos, hone⟩ := hround
  rw [BitVec.toNat_ofNat, Nat.mod_eq_of_lt (hone.trans f64One.isLt)] at hraw
  have hunit := numUnit_of_unitRaw hraw hpos hone
  refine ⟨(numUnit_inOpenUnit c width raw).finite, ?_⟩
  rw [f64Scaled_of_lt_one (hunit ▸ hone), hunit, hvalue]
  push_cast
  rfl

/-- Settles O34: the odd numbers `2 * raw + 1` and `2 * (raw >> 12) + 1` have at most 33 and 53 bits. -/
theorem referenceUnitIsExact : Obligations.ReferenceUnitIsExact := by
  unfold Obligations.ReferenceUnitIsExact
  intro mul k ws m sk raw c
  have hraw := raw.isLt
  refine ⟨fun hhalf => ?_, ?_⟩
  · exact_mod_cast f64Scaled_numUnit_of_exact (c := c) (width := 32) (n := 2 * raw.toNat + 1) (k := 1041) (j := 33)
      (raw := raw) rfl (by omega) (by omega) (by decide) rfl
  · exact_mod_cast f64Scaled_numUnit_of_exact (c := c) (width := 64) (n := 2 * (raw.toNat / 2 ^ 12) + 1) (k := 1021)
      (j := 53) (raw := raw) rfl (by omega) (by omega) (by decide) rfl

end Sys2Proof.Proofs

/-! ## The LCG (spec/42_lcg.md R163, R164, R168)

Both readings of `LCG_EXACT` reduce one sum modulo the modulus, so what R168 says of a draw is said of that residue. -/

namespace Sys2Proof.Proofs

open Sys2Proof.Machine

/-! ### The recurrence (R163) -/

/-- The sum of R163 over the integers, or wrapped to 64 bits. -/
theorem lcgSum_eq (c : Config) (r : Lcg) :
    lcgSum c r = if c.lcgExact then r.mul.toNat * r.state.toNat + r.inc.toNat
      else (r.mul.toNat * r.state.toNat + r.inc.toNat) % 2 ^ 64 := by
  simp [lcgSum, BitVec.toNat_add, BitVec.toNat_mul]

theorem lcgNext_snd (c : Config) (r : Lcg) : (lcgNext c r).2 = { r with state := (lcgNext c r).1 } := rfl

theorem toNat_lcgNext {r : Lcg} (c : Config) (h : r.modulus ≠ 0) :
    (lcgNext c r).1.toNat = lcgSum c r % r.modulus.toNat := by
  have hlt : lcgSum c r % r.modulus.toNat < r.modulus.toNat :=
    Nat.mod_lt _ (BitVec.toNat_pos_of_ne_zero h)
  simp only [lcgNext, if_neg h, BitVec.toNat_ofNat]
  exact Nat.mod_eq_of_lt (hlt.trans r.modulus.isLt)

theorem lcgNext_lt_modulus {r : Lcg} (c : Config) (h : r.modulus ≠ 0) :
    (lcgNext c r).1.toNat < r.modulus.toNat := by
  rw [toNat_lcgNext c h]
  exact Nat.mod_lt _ (BitVec.toNat_pos_of_ne_zero h)

theorem lcgNext_eq_zero_of_dvd {r : Lcg} {c : Config} (h : r.modulus ≠ 0) (hdvd : r.modulus.toNat ∣ lcgSum c r) :
    (lcgNext c r).1 = 0 :=
  BitVec.eq_of_toNat_eq ((toNat_lcgNext c h).trans (Nat.mod_eq_zero_of_dvd hdvd))

/-- An increment is a word, so that wrapping does not change it. -/
theorem lcgSum_of_mul_zero {r : Lcg} (c : Config) (h : r.mul = 0) : lcgSum c r = r.inc.toNat := by
  simp [lcgSum, h]

/-! ### States that only 0 follows (R168 b) -/

/-- The registers from which every draw gives 0: no increment, and a multiple of the modulus that no wrapping of the
product takes away. -/
structure DrawsOnlyZero (c : Config) (r : Lcg) : Prop where
  modulus : r.modulus ≠ 0
  inc : r.inc = 0
  dvd : r.modulus.toNat ∣ r.state.toNat
  unwrapped : c.lcgExact = true ∨ r.state = 0

theorem DrawsOnlyZero.lcgSum_eq_mul {c : Config} {r : Lcg} (h : DrawsOnlyZero c r) :
    lcgSum c r = r.mul.toNat * r.state.toNat := by
  rcases h.unwrapped with hexact | hstate
  · simp [lcgSum, hexact, h.inc]
  · simp [lcgSum, hstate, h.inc]

theorem DrawsOnlyZero.output {c : Config} {r : Lcg} (h : DrawsOnlyZero c r) : (lcgNext c r).1 = 0 :=
  lcgNext_eq_zero_of_dvd h.modulus (h.lcgSum_eq_mul ▸ h.dvd.mul_left r.mul.toNat)

theorem DrawsOnlyZero.next {c : Config} {r : Lcg} (h : DrawsOnlyZero c r) : DrawsOnlyZero c (lcgNext c r).2 := by
  rw [lcgNext_snd, h.output]
  exact ⟨h.modulus, h.inc, dvd_zero _, .inr rfl⟩

theorem outputs_eq_zero_of_drawsOnlyZero {c : Config} {s : State} (count : Nat) (h : DrawsOnlyZero c s.lcg) :
    ∀ v ∈ outputs c .lcg count s, v = 0 := by
  induction count generalizing s with
  | zero => simp [outputs]
  | succ count ih =>
    rw [outputs, List.forall_mem_cons]
    exact ⟨h.output, ih h.next⟩

/-- Settles O41: the four clauses are facts of one residue; for (b) the registers stay among those that draw only 0. -/
theorem lcgRangeAndFixedPoints : Obligations.LcgRangeAndFixedPoints := by
  unfold Obligations.LcgRangeAndFixedPoints
  intro c r hmodulus
  refine ⟨⟨lcgNext_lt_modulus c hmodulus, rfl⟩, ?fixedPoint, ?modulusOne, ?mulZero⟩
  case fixedPoint =>
    rintro s count hunwrapped rfl hinc hdvd
    exact outputs_eq_zero_of_drawsOnlyZero count ⟨hmodulus, hinc, hdvd, hunwrapped⟩
  case modulusOne =>
    intro hone
    refine lcgNext_eq_zero_of_dvd hmodulus ?_
    rw [hone]
    exact one_dvd _
  case mulZero =>
    intro hmul
    rw [toNat_lcgNext c hmodulus, lcgSum_of_mul_zero c hmul]

/-! ### NEXT (R125, R164) -/

theorem exec_nextOf_of_constructed {e : Engine} {s : State} (h : s.constructed e = true) :
    exec (nextOf e) s = respond [(draw Config.block e s).1] (draw Config.block e s).2 := by
  rw [exec_nextOf, nextCommand, whenConstructed_of h]

/-- Settles O36, with the residue of the sum as the new state. -/
theorem lcgDrawFollowsTheRecurrence : Obligations.LcgDrawFollowsTheRecurrence := by
  unfold Obligations.LcgDrawFollowsTheRecurrence
  intro s hvalid hmodulus
  refine ⟨(lcgNext Config.block s.lcg).1, ?_, exec_nextOf_of_constructed (e := .lcg) hvalid⟩
  rw [toNat_lcgNext Config.block hmodulus, lcgSum_eq]

end Sys2Proof.Proofs

/-! ## INIT and INITP (spec/41_contract.md R123; R160, R162, R180, R182, R190, R192, R210, R236) -/

namespace Sys2Proof.Proofs

open Sys2Proof.Machine

theorem exec_initXo (seed : Word) (s : State) :
    exec (.initXo seed) s = respond [] (loadXo Config.block seed s) := rfl

/-- The 128-bit operands from their words, low word first (R52). -/
theorem exec_initpPcg64_words (seedLo seedHi mulLo mulHi incLo incHi : Word) (s : State) :
    exec (.initpPcg64 seedLo seedHi mulLo mulHi incLo incHi) s =
      respond [] ((s.withPcg64 ⟨wideOf seedLo seedHi, wideOf mulLo mulHi, wideOf incLo incHi⟩).construct .pcg64) :=
  rfl

/-- Settles O13: each `INIT` answers `OK` on the state its engine's load leaves. -/
theorem initWritesEveryRegisterOfItsEngine : Obligations.InitWritesEveryRegisterOfItsEngine := by
  unfold Obligations.InitWritesEveryRegisterOfItsEngine
  intro s seed hi
  exact ⟨exec_initLcg seed s, exec_initPcg32 seed s, exec_initPcg64 seed hi s, exec_initSm64 seed s,
    exec_initXo seed s⟩

/-- Settles O15: the operands stand in the registers in their order, with the modulus 0 refused. -/
theorem initpWritesItsOperands : Obligations.InitpWritesItsOperands := by
  unfold Obligations.InitpWritesItsOperands
  intro s x0 x1 x2 x3 x4 x5
  exact ⟨exec_initpLcg x0 x1 x2 s, exec_initpPcg32 x0 x1 x2 s, exec_initpPcg64_words x0 x1 x2 x3 x4 x5 s⟩

end Sys2Proof.Proofs

/-! ## PCG32 and PCG64 (spec/43_pcg.md R183, R184, R187, R193, R194, R196, R198)

Both permutations are one rotation, by the top bits of the old state, of a folded value. What R187 and R198 say of an
output is then said of the folded value and of a count that a small state makes 0. -/

namespace Sys2Proof.Proofs

open Sys2Proof.Machine

/-! ### The top bits as a count -/

theorem toNat_extractLsb'_top {w start len : Nat} (v : BitVec w) (hw : w = start + len) :
    (v.extractLsb' start len).toNat = v.toNat / 2 ^ start := by
  have hlt : v.toNat / 2 ^ start < 2 ^ len :=
    Nat.div_lt_of_lt_mul (by rw [← Nat.pow_add, ← hw]; exact v.isLt)
  rw [BitVec.extractLsb'_toNat, Nat.shiftRight_eq_div_pow, Nat.mod_eq_of_lt hlt]

theorem rotr_by_zero {N : Nat} (v : BitVec N) : rotr v 0 = v := rotr_of_mod_eq_zero v (Nat.zero_mod N)

theorem rotr_eq_zero_iff {N : Nat} (v : BitVec N) (c : Nat) : rotr v c = 0 ↔ v = 0 := by
  rw [← (rotr_injective c).eq_iff (a := v), rotr_zero]

/-! ### The PCG32 permutation (R183, R187) -/

/-- The value that R183 rotates: the old state folded by the shifts of the configuration and cut to 32 bits. -/
def pcg32Fold (c : Config) (old : Word) : Half :=
  ((old ^^^ (old >>> c.pcg32Xs1.val)) >>> c.pcg32Xs2.val).setWidth 32

theorem pcg32Output_eq_rotr (c : Config) (old : Word) :
    pcg32Output c old = rotr (pcg32Fold c old) (old.toNat / 2 ^ 59) := by
  rw [pcg32Output, toNat_extractLsb'_top old rfl, BitVec.xor_comm, pcg32Fold]

theorem pcg32Output_of_lt {c : Config} {old : Word} (h : old.toNat < 2 ^ 59) :
    pcg32Output c old = pcg32Fold c old := by
  rw [pcg32Output_eq_rotr, Nat.div_eq_of_lt h, rotr_by_zero]

theorem pcg32Fold_of_shifts {c : Config} (old : Word) (hxs1 : c.pcg32Xs1.val = 18) (hxs2 : c.pcg32Xs2.val = 27) :
    pcg32Fold c old = ((old ^^^ (old >>> 18)) >>> 27).setWidth 32 := by
  rw [pcg32Fold, hxs1, hxs2]

/-- Folding by a shift to the right sets no bit above the highest one of the state, and the second shift drops the
rest. -/
theorem pcg32Fold_eq_zero_of_lt {c : Config} {old : Word} (h : old.toNat < 2 ^ c.pcg32Xs2.val) :
    pcg32Fold c old = 0 := by
  have hold : old >>> c.pcg32Xs2.val = 0 :=
    BitVec.eq_of_toNat_eq (by simp [Nat.shiftRight_eq_div_pow, Nat.div_eq_of_lt h])
  have hshift : (old >>> c.pcg32Xs1.val) >>> c.pcg32Xs2.val = 0 := by
    rw [← BitVec.shiftRight_add, Nat.add_comm, BitVec.shiftRight_add, hold]
    exact BitVec.zero_ushiftRight
  rw [pcg32Fold, BitVec.ushiftRight_xor_distrib, hold, hshift]
  rfl

theorem pcg32Fold_zero (c : Config) : pcg32Fold c 0 = 0 := pcg32Fold_eq_zero_of_lt (Nat.two_pow_pos _)

/-- The draw of R183 with its step in the order of the statements: the output is of the old state (R334). -/
theorem pcg32Next_eq (c : Config) (r : Pcg32) :
    pcg32Next c r =
      (rotr (pcg32Fold c r.state) (r.state.toNat / 2 ^ 59), { r with state := r.inc + r.mul * r.state }) := by
  rw [pcg32Next, pcg32Output_eq_rotr, BitVec.mul_comm, BitVec.add_comm]

theorem pcg32Next_zero (c : Config) (mul inc : Word) : pcg32Next c ⟨0, mul, inc⟩ = (0, ⟨inc, mul, inc⟩) := by
  rw [pcg32Next_eq, pcg32Fold_zero, rotr_zero, mul_zero, add_zero]

/-- R187 (e): thirteen ones at the top of the folded value, rotated by 31. -/
theorem pcg32Output_allOnes {c : Config} (hxs1 : c.pcg32Xs1.val = 18) (hxs2 : c.pcg32Xs2.val = 27) :
    pcg32Output c 0xFFFFFFFFFFFFFFFF = 0xFFF00001 := by
  have hfold : pcg32Fold c 0xFFFFFFFFFFFFFFFF = 0xFFF80000 := by
    rw [pcg32Fold_of_shifts _ hxs1 hxs2]; decide
  rw [pcg32Output_eq_rotr, hfold]
  decide

/-- Settles O42: the state 0 and the states below 2^27 fold to 0, and below 2^59 the count is 0. -/
theorem pcg32OutputFacts : Obligations.Pcg32OutputFacts := by
  unfold Obligations.Pcg32OutputFacts
  intro c old
  refine ⟨pcg32Next_zero c, fun hxs1 hxs2 => ⟨fun hlt => ?foldsToZero, fun hlt => ?unrotated,
    pcg32Output_allOnes hxs1 hxs2⟩⟩
  case foldsToZero =>
    rw [pcg32Output_of_lt (by omega), pcg32Fold_eq_zero_of_lt (hxs2 ▸ hlt)]
  case unrotated =>
    rw [pcg32Output_of_lt hlt, pcg32Fold_of_shifts old hxs1 hxs2]

/-! ### The PCG64 permutation (R193, R196, R198) -/

/-- The value that R196 rotates: the exclusive-or of the two halves. -/
def pcg64Fold (old : Wide) : Word := (old >>> 64).setWidth 64 ^^^ old.setWidth 64

/-- Conflict C2: the two rotators of R193 turn by one count, and rotation distributes over exclusive-or. -/
theorem pcg64Output_eq_rotr (old : Wide) : pcg64Output old = rotr (pcg64Fold old) (old.toNat / 2 ^ 122) := by
  rw [pcg64Output, ← rotr_xor, toNat_extractLsb'_top old rfl, wideHigh_eq_setWidth, wideLow_eq_setWidth, pcg64Fold]

theorem pcg64Output_of_lt {old : Wide} (h : old.toNat < 2 ^ 122) : pcg64Output old = pcg64Fold old := by
  rw [pcg64Output_eq_rotr, Nat.div_eq_of_lt h, rotr_by_zero]

theorem pcg64Output_eq_zero_iff (old : Wide) :
    pcg64Output old = 0 ↔ (old >>> 64).setWidth 64 = old.setWidth 64 := by
  rw [pcg64Output_eq_rotr, rotr_eq_zero_iff, pcg64Fold]
  exact BitVec.xor_eq_zero_iff

theorem pcg64Next_eq (r : Pcg64) :
    pcg64Next r =
      (rotr (pcg64Fold r.state) (r.state.toNat / 2 ^ 122), { r with state := r.inc + r.mul * r.state }) := by
  rw [pcg64Next, pcg64Output_eq_rotr, BitVec.mul_comm, BitVec.add_comm]

theorem pcg64Fold_zero : pcg64Fold 0 = 0 := by decide

theorem pcg64Next_zero (inc mul : Wide) : pcg64Next ⟨0, mul, inc⟩ = (0, ⟨inc, mul, inc⟩) := by
  rw [pcg64Next_eq, pcg64Fold_zero, rotr_zero, mul_zero, add_zero]

/-- R198 (d): complementary halves, and a state below 2^122. -/
theorem pcg64Output_complementary_halves :
    pcg64Output 0x0123456789ABCDEFFEDCBA9876543210 = 0xFFFFFFFFFFFFFFFF := by
  rw [pcg64Output_of_lt (by decide)]
  decide

/-- Settles O43, from the single rotation of the folded halves. -/
theorem pcg64OutputFacts : Obligations.Pcg64OutputFacts := by
  unfold Obligations.Pcg64OutputFacts
  intro old
  exact ⟨pcg64Output_eq_zero_iff old, pcg64Output_of_lt, pcg64Next_zero, pcg64Output_complementary_halves⟩

/-! ### NEXT (R184, R194) -/

theorem draw_pcg32_eq (c : Config) (s : State) :
    draw c .pcg32 s = ((rotr (pcg32Fold c s.p32.state) (s.p32.state.toNat / 2 ^ 59)).setWidth 64,
      s.withPcg32 { s.p32 with state := s.p32.inc + s.p32.mul * s.p32.state }) := by
  rw [draw, pcg32Next_eq, zext64]

theorem draw_pcg64_eq (c : Config) (s : State) :
    draw c .pcg64 s = (rotr (pcg64Fold s.p64.state) (s.p64.state.toNat / 2 ^ 122),
      s.withPcg64 { s.p64 with state := s.p64.inc + s.p64.mul * s.p64.state }) := by
  rw [draw, pcg64Next_eq]

/-- Settles O37: the command answers the draw, which permutes the old state and steps it. -/
theorem pcg32DrawPermutesTheOldState : Obligations.Pcg32DrawPermutesTheOldState := by
  unfold Obligations.Pcg32DrawPermutesTheOldState
  intro s hvalid
  have hexec := exec_nextOf_of_constructed (e := .pcg32) hvalid
  rw [draw_pcg32_eq] at hexec
  exact hexec

/-- Settles O38, by the single rotation of `pcg64Output_eq_rotr`. -/
theorem pcg64DrawRotatesTheFoldedHalves : Obligations.Pcg64DrawRotatesTheFoldedHalves := by
  unfold Obligations.Pcg64DrawRotatesTheFoldedHalves
  intro s hvalid
  have hexec := exec_nextOf_of_constructed (e := .pcg64) hvalid
  rw [draw_pcg64_eq] at hexec
  exact hexec

end Sys2Proof.Proofs

/-! ## SplitMix64 (spec/44_splitmix64.md R212, R213, R215, R216, R217)

The finaliser is a composition of two kinds of maps: an XOR-shift and the multiplication by an odd number. Each is
additive (over exclusive-or, over the sum modulo 2^64) and maps only 0 to 0, so it is injective. -/

namespace Sys2Proof.Proofs

open Sys2Proof.Machine

/-! ### The finaliser (R215, R216 b) -/

theorem xor_shiftRight_injective {k : Nat} (hk : 0 < k) : Function.Injective fun v : Word => v ^^^ (v >>> k) := by
  intro v u (h : v ^^^ (v >>> k) = u ^^^ (u >>> k))
  have hdiff : (v ^^^ u) ^^^ ((v ^^^ u) >>> k) = 0 := by
    calc (v ^^^ u) ^^^ ((v ^^^ u) >>> k) = (v ^^^ (v >>> k)) ^^^ (u ^^^ (u >>> k)) := by
          rw [BitVec.ushiftRight_xor_distrib]; ac_rfl
      _ = 0 := BitVec.xor_eq_zero_iff.2 h
  exact BitVec.xor_eq_zero_iff.1 (eq_zero_of_xor_shiftRight hk hdiff)

theorem mul_odd_injective {m : Word} (hm : m.toNat % 2 = 1) : Function.Injective fun v : Word => v * m := by
  intro v u (h : v * m = u * m)
  have hdiff : (v - u) * m = 0 := by rw [sub_mul, h, sub_self]
  exact sub_eq_zero.1 (eq_zero_of_mul_odd hm hdiff)

theorem smMix_injective (c : Config) : Function.Injective (smMix c) :=
  (xor_shiftRight_injective (Nat.succ_pos _)).comp <|
    (mul_odd_injective (append_one_odd c.smM2Top)).comp <| (xor_shiftRight_injective (Nat.succ_pos _)).comp <|
      (mul_odd_injective (append_one_odd c.smM1Top)).comp <| xor_shiftRight_injective (Nat.succ_pos _)

theorem smMix_bijective (c : Config) : Function.Bijective (smMix c) := (smMix_injective c).bijective_of_finite

theorem smMix_zero (c : Config) : smMix c 0 = 0 := by simp [smMix]

theorem smMix_eq_zero_iff (c : Config) (z : Word) : smMix c z = 0 ↔ z = 0 :=
  ⟨eq_zero_of_smMix_eq_zero, fun h => h ▸ smMix_zero c⟩

/-! ### The counter (R212, R216 a) -/

theorem draw_sm64_eq (c : Config) (s : State) :
    draw c .sm64 s = (smMix c (smGamma + s.sm), s.withSm (smGamma + s.sm)) := rfl

theorem drawTimes_sm64 (c : Config) (n : Nat) (s : State) :
    (drawTimes c .sm64 n s).sm = s.sm + BitVec.ofNat 64 n * smGamma := by
  induction n generalizing s with
  | zero => simp
  | succ n ih =>
    rw [drawTimes_succ, ih, draw_sm64_eq, State.withSm_sm, BitVec.ofNat_add, add_mul, BitVec.one_mul]
    ac_rfl

/-- `SM_GAMMA` is odd, so its first 2^64 - 1 multiples are not 0. -/
theorem drawTimes_sm64_ne {n : Nat} (c : Config) (s : State) (hpos : 0 < n) (hlt : n < 2 ^ 64) :
    (drawTimes c .sm64 n s).sm ≠ s.sm := by
  intro h
  rw [drawTimes_sm64, add_eq_left] at h
  have hn : BitVec.ofNat 64 n = 0 := eq_zero_of_mul_odd (by decide) h
  have hmod : n % 2 ^ 64 = 0 := by simpa using congrArg BitVec.toNat hn
  omega

/-! ### Draws that answer 0 (R216 c) -/

theorem draw_sm64_eq_zero_iff (c : Config) (s : State) : (draw c .sm64 s).1 = 0 ↔ smGamma + s.sm = 0 := by
  rw [draw_sm64_eq, smMix_eq_zero_iff]

/-- After a draw of 0 the state is 0, and the next draw mixes `SM_GAMMA`. -/
theorem draw_sm64_after_zero_ne_zero {c : Config} {s : State} (h : (draw c .sm64 s).1 = 0) :
    (draw c .sm64 (draw c .sm64 s).2).1 ≠ 0 := by
  have hstate : (draw c .sm64 s).2.sm = 0 := (draw_sm64_eq_zero_iff c s).1 h
  rw [Ne, draw_sm64_eq_zero_iff, hstate]
  decide

/-- Settles O44: the state counts in steps of an odd constant, and the finaliser is a bijection that keeps 0. -/
theorem splitMixStateIsACounter : Obligations.SplitMixStateIsACounter := by
  unfold Obligations.SplitMixStateIsACounter
  intro c s n
  exact ⟨drawTimes_sm64 c n s, drawTimes_sm64_ne c s, smMix_bijective c, smMix_zero c, draw_sm64_eq_zero_iff c s,
    fun ⟨hfirst, hsecond⟩ => draw_sm64_after_zero_ne_zero hfirst hsecond⟩

/-! ### NEXT (R213) -/

/-- Settles O39: the command answers the draw, whose finaliser takes the state after the addition. -/
theorem splitMixDrawMixesTheNewState : Obligations.SplitMixDrawMixesTheNewState := by
  unfold Obligations.SplitMixDrawMixesTheNewState
  intro s hvalid
  have hexec := exec_nextOf_of_constructed (e := .sm64) hvalid
  rw [draw_sm64_eq] at hexec
  exact hexec

/-! ### No parameterised constructor (R217, R238) -/

theorem decode_initp_absent {e : Engine} (he : e = .sm64 ∨ e = .xo) (ws : List Word) :
    decode ⟨headerOf (engineIndex e) 0x2 0, ws⟩ = .error .absentInitp := by
  rw [decode_of_engineIndex (by decide) (by decide)]
  rcases he with rfl | rfl <;> rfl

/-- An illegal packet is answered in the state it is presented in (R302). -/
theorem step_of_inbox_cons_error {s : State} {p : Packet} {e : Wide} {rest : List Input} {reason : Illegal}
    (hinbox : s.inbox = ⟨p, e⟩ :: rest) (hdecode : decode p = .error reason) :
    step s = .next { s with inbox := rest, ent := e, response := some ⟨1, []⟩ } :=
  calc step s = rejectPacket (s.withInput rest e) := step_of_present_error (present_of_inbox_cons hinbox) hdecode
    _ = .next ((s.withInput rest e).withResponse ⟨statusCode .illegal, []⟩) := by rw [rejectPacket, raise]

/-- Settles O5: the two headers are those of `INITP` for the engines that have none. -/
theorem noParameterisedConstructorForSm64AndXo : Obligations.NoParameterisedConstructorForSm64AndXo := by
  unfold Obligations.NoParameterisedConstructorForSm64AndXo
  intro s h words e rest hheader hinbox
  have hdecode : decode ⟨h, words⟩ = .error .absentInitp := by
    rcases hheader with rfl | rfl
    · exact decode_initp_absent (.inl rfl) words
    · exact decode_initp_absent (.inr rfl) words
  exact ⟨hdecode, step_of_inbox_cons_error hinbox hdecode⟩

end Sys2Proof.Proofs

/-! ## Xoshiro256++ (spec/45_xoshiro256pp.md R232, R233, R235, R240, R241)

R240 gives (c) from (b). Here (c) stands first: the update is linear and leaves only the all-zero state at zero
(`eq_zero_of_xoNext_eq_zero`), so it is injective, and a map of the finitely many states to themselves is then a
bijection. -/

namespace Sys2Proof.Proofs

open Sys2Proof.Machine

/-! ### The step in closed form (R232) -/

/-- Conflict C1: the assignments of R232, run one after another, in the words before the update. -/
theorem xoNext_eq (r : Xo) :
    xoNext r = (rotl (r.s0 + r.s3) 23 + r.s0,
      ⟨r.s0 ^^^ r.s1 ^^^ r.s3, r.s0 ^^^ r.s1 ^^^ r.s2,
        r.s0 ^^^ r.s2 ^^^ (r.s1 <<< 17), rotl (r.s1 ^^^ r.s3) 45⟩) := by
  have h0 : r.s0 ^^^ (r.s3 ^^^ r.s1) = r.s0 ^^^ r.s1 ^^^ r.s3 := by ac_rfl
  have h1 : r.s1 ^^^ (r.s2 ^^^ r.s0) = r.s0 ^^^ r.s1 ^^^ r.s2 := by ac_rfl
  rw [xoNext, h0, h1, BitVec.xor_comm r.s2, BitVec.xor_comm r.s3]

theorem draw_xo_eq (c : Config) (s : State) : draw c .xo s = ((xoNext s.xo).1, s.withXo (xoNext s.xo).2) := rfl

/-- Settles O40: the command answers the draw, which steps the words by their closed form. -/
theorem xoshiroDrawInClosedForm : Obligations.XoshiroDrawInClosedForm := by
  unfold Obligations.XoshiroDrawInClosedForm
  intro s hvalid
  have hexec := exec_nextOf_of_constructed (e := .xo) hvalid
  rw [draw_xo_eq, xoNext_eq] at hexec
  exact hexec

/-! ### The update as a linear map (R240) -/

theorem xoXor_self (x : Xo) : x.xor x = ⟨0, 0, 0, 0⟩ := by simp [Xo.xor]

theorem eq_of_xoXor_eq_zero {x y : Xo} (h : x.xor y = ⟨0, 0, 0, 0⟩) : x = y := by
  obtain ⟨h0, h1, h2, h3⟩ := Xo.mk.inj h
  cases x
  cases y
  rw [Xo.mk.injEq]
  exact ⟨BitVec.xor_eq_zero_iff.1 h0, BitVec.xor_eq_zero_iff.1 h1, BitVec.xor_eq_zero_iff.1 h2,
    BitVec.xor_eq_zero_iff.1 h3⟩

theorem finite_xo : Finite Xo :=
  Finite.of_surjective (fun p : Word × Word × Word × Word => Xo.mk p.1 p.2.1 p.2.2.1 p.2.2.2)
    fun x => ⟨(x.s0, x.s1, x.s2, x.s3), rfl⟩

theorem xor_pairs (a a' b b' : Word) : (a ^^^ a') ^^^ (b ^^^ b') = (a ^^^ b) ^^^ (a' ^^^ b') := by ac_rfl

theorem xor_triples (a a' b b' d d' : Word) :
    (a ^^^ a') ^^^ (b ^^^ b') ^^^ (d ^^^ d') = (a ^^^ b ^^^ d) ^^^ (a' ^^^ b' ^^^ d') := by ac_rfl

/-- The words of the update are exclusive-ors, shifts and rotations of the old words, and both moves of the bits
distribute over exclusive-or. -/
theorem xoNext_snd_xor (x y : Xo) : (xoNext (x.xor y)).2 = (xoNext x).2.xor (xoNext y).2 := by
  simp only [xoNext_eq, Xo.xor, Xo.mk.injEq, BitVec.shiftLeft_xor_distrib]
  refine ⟨xor_triples .., xor_triples .., xor_triples .., ?rotated⟩
  case rotated => rw [xor_pairs, rotl_xor]

theorem xoNext_snd_injective : Function.Injective fun x : Xo => (xoNext x).2 := by
  intro x y (h : (xoNext x).2 = (xoNext y).2)
  have hdiff : (xoNext (x.xor y)).2 = ⟨0, 0, 0, 0⟩ := by rw [xoNext_snd_xor, h, xoXor_self]
  exact eq_of_xoXor_eq_zero (eq_zero_of_xoNext_eq_zero hdiff)

theorem xoNext_snd_bijective : Function.Bijective fun x : Xo => (xoNext x).2 :=
  have := finite_xo
  xoNext_snd_injective.bijective_of_finite

theorem xoNext_zero : xoNext ⟨0, 0, 0, 0⟩ = (0, ⟨0, 0, 0, 0⟩) := by decide

/-- Settles O45: linear with only the all-zero state at zero, hence injective, hence bijective. -/
theorem xoshiroUpdateIsALinearBijection : Obligations.XoshiroUpdateIsALinearBijection := by
  unfold Obligations.XoshiroUpdateIsALinearBijection
  exact ⟨xoNext_snd_xor, xoNext_snd_bijective, xoNext_zero, fun _ => eq_zero_of_xoNext_eq_zero⟩

/-! ### The seed expander (R235) -/

theorem toNat_zext64_halfLow (v : Word) : (zext64 (halfLow v)).toNat = v.toNat % 2 ^ 32 := by
  rw [zext64, BitVec.toNat_setWidth_of_le (by decide), halfLow_eq_setWidth, BitVec.toNat_setWidth]

theorem toNat_zext64_halfHigh (v : Word) : (zext64 (halfHigh v)).toNat = v.toNat / 2 ^ 32 := by
  rw [zext64, BitVec.toNat_setWidth_of_le (by decide), halfHigh, toNat_extractLsb'_top v rfl]

theorem toNat_zext64_lt (v : Half) : (zext64 v).toNat < 2 ^ 32 := by
  rw [zext64, BitVec.toNat_setWidth_of_le (by decide)]
  exact v.isLt

section

variable {c : Config} (seed : Word)

theorem xoExpand_of_lowFirst (h : c.xoSeedLowFirst = true) :
    xoExpand c seed =
      ⟨zext64 (halfLow (smMix c (smGamma + seed))), zext64 (halfHigh (smMix c (smGamma + seed))),
        zext64 (halfLow (smMix c (smGamma + (smGamma + seed)))),
        zext64 (halfHigh (smMix c (smGamma + (smGamma + seed))))⟩ :=
  if_pos h

theorem xoExpand_of_highFirst (h : c.xoSeedLowFirst = false) :
    xoExpand c seed =
      ⟨zext64 (halfHigh (smMix c (smGamma + seed))), zext64 (halfLow (smMix c (smGamma + seed))),
        zext64 (halfHigh (smMix c (smGamma + (smGamma + seed)))),
        zext64 (halfLow (smMix c (smGamma + (smGamma + seed))))⟩ :=
  if_neg (ne_true_of_eq_false h)

end

/-- Under either order every word is a zero-extended half. -/
theorem xoExpand_words_lt (c : Config) (seed : Word) :
    (xoExpand c seed).s0.toNat < 2 ^ 32 ∧ (xoExpand c seed).s1.toNat < 2 ^ 32 ∧
      (xoExpand c seed).s2.toNat < 2 ^ 32 ∧ (xoExpand c seed).s3.toNat < 2 ^ 32 := by
  cases horder : c.xoSeedLowFirst with
  | true =>
    rw [xoExpand_of_lowFirst seed horder]
    exact ⟨toNat_zext64_lt _, toNat_zext64_lt _, toNat_zext64_lt _, toNat_zext64_lt _⟩
  | false =>
    rw [xoExpand_of_highFirst seed horder]
    exact ⟨toNat_zext64_lt _, toNat_zext64_lt _, toNat_zext64_lt _, toNat_zext64_lt _⟩

/-- Settles O16: the words of each half order, read as the numbers that the two draws split into. -/
theorem seedWordsAreHalvesOfTwoDraws : Obligations.SeedWordsAreHalvesOfTwoDraws := by
  unfold Obligations.SeedWordsAreHalvesOfTwoDraws
  intro c seed
  refine ⟨fun hlow => ?lowFirst, fun hhigh => ?highFirst, xoExpand_words_lt c seed⟩
  case lowFirst =>
    rw [xoExpand_of_lowFirst seed hlow]
    exact ⟨toNat_zext64_halfLow _, toNat_zext64_halfHigh _, toNat_zext64_halfLow _, toNat_zext64_halfHigh _⟩
  case highFirst =>
    rw [xoExpand_of_highFirst seed hhigh]
    exact ⟨toNat_zext64_halfHigh _, toNat_zext64_halfLow _, toNat_zext64_halfHigh _, toNat_zext64_halfLow _⟩

/-! ### Never all zero (R241) -/

theorem loadXo_xo (c : Config) (seed : Word) (s : State) : (loadXo c seed s).xo = xoExpand c seed := by
  rw [loadXo, State.construct_xo, State.withXo_xo]

/-- Settles O46: the expanded state is not all zero, and every draw keeps that. -/
theorem constructedXoshiroIsNeverAllZero : Obligations.ConstructedXoshiroIsNeverAllZero := by
  unfold Obligations.ConstructedXoshiroIsNeverAllZero
  intro c seed s count
  have hloaded : (loadXo c seed s).xo ≠ ⟨0, 0, 0, 0⟩ := loadXo_xo c seed s ▸ xoExpand_ne_zero c seed
  exact ⟨xoExpand_ne_zero c seed, drawTimes_xo_ne_zero c .xo count hloaded⟩

end Sys2Proof.Proofs

/-! ## The sequence controller (spec/46_shuffle_sample.md R260 to R271)

The model's laws of the procedures say which list the same procedure makes with no index RAM: `fisherYates` of the
identity for `SHUFFLE`, `algorithmL` for `SAMPLE`. Here stand the facts about those lists (a shuffle permutes the places
of a sequence, a reservoir holds distinct positions), and then what each command answers and how often it draws. -/

namespace Sys2Proof.Proofs

open Sys2Proof.Machine

/-! ### Fisher-Yates on a list (R262, R264) -/

section

variable {α β : Type}

theorem swapEntries_perm (l : List α) (i j : Nat) : (swapEntries l i j).Perm l := by
  unfold swapEntries
  split
  next hgetI hgetJ =>
    obtain ⟨hi, rfl⟩ := List.getElem?_eq_some_iff.1 hgetI
    obtain ⟨hj, rfl⟩ := List.getElem?_eq_some_iff.1 hgetJ
    exact List.set_set_perm hi hj
  next => exact .refl l

theorem fisherYates_perm (js : List Nat) (i : Nat) (l : List α) : (fisherYates js i l).Perm l := by
  induction js generalizing i l with
  | nil => exact .refl l
  | cons j js ih => exact (ih (i + 1) (swapEntries l i j)).trans (swapEntries_perm l i j)

theorem swapEntries_map (f : α → β) (l : List α) (i j : Nat) :
    swapEntries (l.map f) i j = (swapEntries l i j).map f := by
  simp only [swapEntries, List.getElem?_map]
  cases l[i]? <;> cases l[j]? <;> simp [List.map_set]

/-- The loop moves places and does not look at the elements. -/
theorem fisherYates_map (f : α → β) (js : List Nat) (i : Nat) (l : List α) :
    fisherYates js i (l.map f) = (fisherYates js i l).map f := by
  induction js generalizing i l with
  | nil => rfl
  | cons j js ih => rw [fisherYates, fisherYates, swapEntries_map, ih]

theorem map_some_eq_map_range (l : List α) : l.map some = (List.range l.length).map (l[·]?) := by
  apply List.ext_getElem <;> simp

/-- R264: what the loop does to the positions of a sequence says what it does to the sequence. -/
theorem getElem?_fisherYates (js : List Nat) (l : List α) {i p : Nat}
    (hp : (fisherYates js 0 (List.range l.length))[i]? = some p) : (fisherYates js 0 l)[i]? = l[p]? := by
  have hmap : (fisherYates js 0 l).map some = (fisherYates js 0 (List.range l.length)).map (l[·]?) := by
    rw [← fisherYates_map, ← fisherYates_map, map_some_eq_map_range]
  have hplace := congrArg (·[i]?) hmap
  simp only [List.getElem?_map, hp, Option.map_some, Option.map_eq_some_iff] at hplace
  obtain ⟨x, hx, hxp⟩ := hplace
  rw [hx, hxp]

end

/-! ### Reservoirs (R266, R268) -/

/-- Distinct positions, each below `bound`. -/
structure Reservoir (bound : Nat) (slots : List Nat) : Prop where
  nodup : slots.Nodup
  lt : ∀ p ∈ slots, p < bound

theorem Reservoir.mono {bound more : Nat} {slots : List Nat} (h : Reservoir bound slots) (hle : bound ≤ more) :
    Reservoir more slots :=
  ⟨h.nodup, fun p hp => (h.lt p hp).trans_le hle⟩

/-- A position that no slot can hold yet takes the place of one. -/
theorem Reservoir.set {bound p : Nat} {slots : List Nat} (h : Reservoir bound slots) (hp : bound ≤ p) (slot : Nat) :
    Reservoir (p + 1) (slots.set slot p) where
  nodup := h.nodup.set fun hmem => absurd (h.lt p hmem) (by omega)
  lt := fun q hq => by
    rcases List.mem_or_eq_of_mem_set hq with hold | rfl
    · have := h.lt q hold
      omega
    · omega

theorem Reservoir.of_perm_range {n : Nat} {slots : List Nat} (h : slots.Perm (List.range n)) : Reservoir n slots where
  nodup := h.nodup_iff.2 List.nodup_range
  lt := fun _ hp => List.mem_range.1 (h.mem_iff.1 hp)

/-- Algorithm L takes its elements in rising order, so the position it writes is not in the reservoir (R268 c). -/
theorem algorithmL_reservoir {c : Config} {e : Engine} {n k : Nat} {raw : Nat → Word} (turns d : Nat) {i : Nat}
    (w : Word) {slots : List Nat} (h : Reservoir i slots) (hi : i ≤ n) :
    Reservoir n (algorithmL c e n k raw turns d i w slots) := by
  induction turns generalizing d i w slots with
  | zero => exact h.mono hi
  | succ turns ih =>
    unfold algorithmL
    split
    · exact h.mono hi
    next skip _ =>
      split
      · exact h.mono hi
      · exact ih _ _ (h.set (Nat.le_add_right i skip) _) (by omega)

theorem Reservoir.words_nodup {bound : Nat} {words : List Word} (h : Reservoir bound (words.map BitVec.toNat)) :
    words.Nodup :=
  h.nodup.of_map

theorem Reservoir.words_lt {bound : Nat} {words : List Word} (h : Reservoir bound (words.map BitVec.toNat)) :
    ∀ w ∈ words, w.toNat < bound :=
  fun _ hw => h.lt _ (List.mem_map_of_mem hw)

/-! ### The commands with their checks passed (R260, R263, R267, R270) -/

section

variable {e : Engine} {s : State}

theorem exec_shuffle_of_inBounds {len : Word} (hs : s.constructed e = true) (hlen : len.toNat ≤ kmax Config.block) :
    exec (.shuffle e len) s = answer (shuffleBody Config.block e len.toNat s) :=
  (whenConstructed_of hs).trans (if_neg (by omega))

theorem exec_sample_of_inBounds {n k : Word} (hs : s.constructed e = true)
    (hb : inBounds Config.block (.sample e n k)) :
    exec (.sample e n k) s = answer (sampleBody Config.block e n.toNat k.toNat s) := by
  have ⟨hn, hk, hmin⟩ := hb
  exact (whenConstructed_of hs).trans (if_neg (by omega))

theorem exec_samplewr_of_inBounds {n k : Word} (hs : s.constructed e = true) (hn : n.toNat < 2 ^ 63)
    (hk : k.toNat ≤ kmax Config.block) :
    exec (.samplewr e n k) s = answer (samplewrBody Config.block e n k.toNat s) :=
  (whenConstructed_of hs).trans (if_neg (by omega))

end

/-- A body that completes, as the commands answer it: its words, and its draws and its index RAM in the next state. -/
theorem answer_ok (words : List Word) (u : State) (m : Memory) :
    answer (.ok (words, u.withRes m)) = .next { u with res := m, response := some ⟨0, words⟩ } := rfl

/-! ### SHUFFLE (R263, R264) -/

theorem shuffleBody_perm {c : Config} {e : Engine} {len : Nat} (s : State) (hl : len ≤ kmax c) :
    ∃ m words, shuffleBody c e len s = .ok (words, (drawTimes c e (len - 1) s).withRes m) ∧
      words = (List.range len).map m.read ∧ (words.map BitVec.toNat).Perm (List.range len) := by
  obtain ⟨m, words, hbody, -, hread, hwords⟩ := shuffleBody_eq c e len s hl
  exact ⟨m, words, hbody, hread, hwords ▸ fisherYates_perm _ _ _⟩

/-- Settles O54: the body completes, and its words are the identity after a Fisher-Yates loop. -/
theorem shuffleAnswersAPermutation : Obligations.ShuffleAnswersAPermutation := by
  unfold Obligations.ShuffleAnswersAPermutation
  intro e len s hs hlen
  obtain ⟨m, words, hbody, hread, hperm⟩ := shuffleBody_perm (e := e) s hlen
  refine ⟨m, words, ?_, hread, hperm⟩
  rw [exec_shuffle_of_inBounds hs hlen, hbody, answer_ok]

/-- Settles O55: the words are what the loop makes of the positions of `old`, with the same choices. -/
theorem shuffleAppliesFisherYatesToTheHostSequence : Obligations.ShuffleAppliesFisherYatesToTheHostSequence := by
  unfold Obligations.ShuffleAppliesFisherYatesToTheHostSequence
  intro α e len s t words old hs hlen hold hexec hresponse
  obtain ⟨m, answered, hbody, -, -, hwords⟩ := shuffleBody_eq Config.block e len.toNat s hlen
  rw [exec_shuffle_of_inBounds hs hlen, hbody, answer_ok] at hexec
  cases hexec
  cases hresponse
  have hperm : (words.map BitVec.toNat).Perm (List.range len.toNat) := hwords ▸ fisherYates_perm _ _ _
  have hlength : words.length = len.toNat := by simpa using hperm.length_eq
  refine ⟨hlength, hperm, fun i hi => getElem?_fisherYates _ _ ?_⟩
  have hiw : i < words.length := hlength.symm ▸ hi
  rw [hold, ← hwords]
  simp [hiw]

/-! ### SAMPLE (R266, R267, R268) -/

theorem sampleBody_of_k_zero (c : Config) (e : Engine) (n : Nat) (s : State) : sampleBody c e n 0 s = .ok ([], s) := rfl

/-- A reservoir that holds the whole population is a shuffle of it, the empty one included. -/
theorem sampleBody_of_le {c : Config} {e : Engine} {n k : Nat} (s : State) (h : n ≤ k) :
    sampleBody c e n k s = shuffleBody c e n s := by
  by_cases hk : k = 0
  · obtain rfl : n = 0 := by omega
    rw [hk, sampleBody_of_k_zero]
    rfl
  · rw [sampleBody, if_neg hk, if_pos h]

/-- The three ways of R267 each answer distinct positions of the population (R268 b to d). -/
theorem sampleBody_reservoir (c : Config) (e : Engine) {n k : Nat} (s : State) (hn : n < 2 ^ 63)
    (hmin : min n k ≤ kmax c) :
    ∃ count m words, sampleBody c e n k s = .ok (words, (drawTimes c e count s).withRes m) ∧
      words = (List.range (min n k)).map m.read ∧ Reservoir n (words.map BitVec.toNat) ∧
      (n ≤ k → (words.map BitVec.toNat).Perm (List.range n)) := by
  by_cases hle : n ≤ k
  · rw [Nat.min_eq_left hle] at hmin ⊢
    obtain ⟨m, words, hbody, hread, hperm⟩ := shuffleBody_perm (e := e) s hmin
    exact ⟨n - 1, m, words, (sampleBody_of_le s hle).trans hbody, hread, .of_perm_range hperm, fun _ => hperm⟩
  rw [Nat.min_eq_right (by omega)] at hmin ⊢
  by_cases hk : k = 0
  · subst hk
    exact ⟨0, s.res, [], sampleBody_of_k_zero c e n s, rfl, ⟨List.nodup_nil, by simp⟩, fun h => absurd h hle⟩
  · obtain ⟨r, m, words, hbody, -, -, -, hread, hwords⟩ :=
      sampleBody_eq_algorithmL c e n k s (by omega) (by omega) hn hmin
    refine ⟨2 + 3 * r, m, words, hbody, hread, ?_, fun h => absurd h hle⟩
    exact hwords ▸ algorithmL_reservoir _ _ _ (.of_perm_range (.refl _)) (by omega)

/-- Settles O56: the words are a reservoir of the population. -/
theorem sampleAnswersDistinctPositions : Obligations.SampleAnswersDistinctPositions := by
  unfold Obligations.SampleAnswersDistinctPositions
  intro e n k s hs hn hk hmin
  obtain ⟨count, m, words, hbody, hread, hreservoir, hperm⟩ := sampleBody_reservoir Config.block e s hn hmin
  refine ⟨count, m, words, ?_, hread, by simp [hread], hreservoir.words_nodup, hreservoir.words_lt, hperm⟩
  rw [exec_sample_of_inBounds hs ⟨hn, hk, hmin⟩, hbody, answer_ok]

/-- Settles O57, by the model's law of the body for `1 <= k < n`. -/
theorem sampleFollowsAlgorithmL : Obligations.SampleFollowsAlgorithmL := by
  unfold Obligations.SampleFollowsAlgorithmL
  intro e n k s hs hk0 hkn hn hk
  obtain ⟨r, m, words, hbody, -, -, -, -, hwords⟩ :=
    sampleBody_eq_algorithmL Config.block e n.toNat k.toNat s hk0 hkn hn hk
  have hbounds : inBounds Config.block (.sample e n k) := ⟨hn, hkn.trans hn, (Nat.min_le_right _ _).trans hk⟩
  have hexec := exec_sample_of_inBounds hs hbounds
  rw [hbody, answer_ok] at hexec
  exact ⟨_, words, hexec, rfl, hwords⟩

/-! ### SAMPLEWR (R270) -/

/-- Settles O58: for `n > 0` each word is a draw brought below `n` by `RANGE_MAP`. -/
theorem samplewrAnswersOneRangedDrawPerWord : Obligations.SamplewrAnswersOneRangedDrawPerWord := by
  unfold Obligations.SamplewrAnswersOneRangedDrawPerWord
  intro e n k s hs hn hk
  have hexec := exec_samplewr_of_inBounds hs hn hk
  refine ⟨fun hne => ?positive, fun hzero => ?empty⟩
  case positive =>
    obtain ⟨m, hbody, -, hread⟩ := samplewrBody_eq Config.block e n k.toNat s hn hne hk
    refine ⟨m, _, by rw [hexec, hbody, answer_ok], rfl, hread, by simp, ?_⟩
    simpa using fun raw _ => rangeMap_lt Config.block (outputWidth e) raw n hne
  case empty =>
    subst hzero
    obtain ⟨m, hbody, -, hread⟩ := samplewrBody_zero Config.block e k.toNat s hk
    exact ⟨m, by rw [hexec, hbody, answer_ok], hread⟩

/-! ### How many draws a command makes (R260, R271) -/

section

variable {i : Instr} {e : Engine} {s t : State}

/-- A command that is not a construction leaves the flags, and an engine without its flag is not drawn from (R301). -/
theorem sameRegisters_of_not_constructed (h : exec i s = .next t) (hi : isConstruction i = false)
    (hs : s.constructed e = false) : sameRegisters e s t := by
  obtain ⟨hvalid, -⟩ := exec_parameters h hi
  exact exec_sameRegisters_of_not_constructed h ((constructed_congr hvalid e).trans hs)

/-- Out of bounds a command answers an error and writes nothing (R305). -/
theorem sameRegisters_of_not_inBounds (h : exec i s = .next t) (hi : isConstruction i = false)
    (hout : ¬ inBounds Config.block i) : sameRegisters e s t := by
  have hshape : Shape i s (.next t) := h ▸ exec_shape i s
  cases hshape with
  | unseeded | param | range => simp
  | built _ _ hconstr => simp [hi] at hconstr
  | performed _ _ _ _ _ _ hin => exact absurd hin hout

/-- A command whose body completes leaves the engine as the body's draws left it. -/
theorem sameRegisters_of_answer {words : List Word} {u : State} {m : Memory} (h : exec i s = .next t)
    (hexec : exec i s = answer (.ok (words, u.withRes m))) : sameRegisters e u t := by
  rw [hexec, answer_ok] at h
  cases h
  exact sameRegisters_refl e u

end

theorem shuffle_draws {e : Engine} {s t : State} {len : Word} (hs : s.constructed e = true)
    (h : exec (.shuffle e len) s = .next t) :
    sameRegisters e (drawTimes Config.block e (if len.toNat ≤ kmax Config.block then len.toNat - 1 else 0) s) t := by
  split
  next hlen =>
    obtain ⟨m, words, hbody, -⟩ := shuffleBody_perm (e := e) s hlen
    exact sameRegisters_of_answer h (hbody ▸ exec_shuffle_of_inBounds hs hlen)
  next hout => exact sameRegisters_of_not_inBounds h rfl hout

section

variable {e : Engine} {s t : State} {n k : Word} (hs : s.constructed e = true)
  (hb : inBounds Config.block (.sample e n k)) (h : exec (.sample e n k) s = .next t)

include hs hb h

theorem sample_draws_of_le (hle : n.toNat ≤ k.toNat) :
    sameRegisters e (drawTimes Config.block e (n.toNat - 1) s) t := by
  have ⟨_, _, hmin⟩ := hb
  rw [Nat.min_eq_left hle] at hmin
  obtain ⟨m, words, hbody, -⟩ := shuffleBody_perm (e := e) s hmin
  have hexec := exec_sample_of_inBounds hs hb
  rw [sampleBody_of_le s hle, hbody] at hexec
  exact sameRegisters_of_answer h hexec

/-- An empty sample or an empty population takes no draw. -/
theorem sample_draws_of_zero (hzero : k = 0 ∨ n = 0) : sameRegisters e s t := by
  rcases hzero with rfl | rfl
  · have hbody := sampleBody_of_k_zero Config.block e n.toNat s
    exact sameRegisters_of_answer (m := s.res) h ((exec_sample_of_inBounds hs hb).trans (congrArg answer hbody))
  · exact sample_draws_of_le hs hb h (Nat.zero_le _)

theorem sample_draws_of_lt (hk0 : 1 ≤ k.toNat) (hkn : k.toNat < n.toNat) :
    let c := Config.block
    let r := replacements c e n.toNat k.toNat (rawDraw c e s) (n.toNat - k.toNat + 1) 1 k.toNat
      (numWstep c (numUnit c (outputWidth e) (rawDraw c e s 0)) k.toNat)
    r ≤ n.toNat - k.toNat ∧ sameRegisters e (drawTimes c e (2 + 3 * r) s) t := by
  have ⟨hn, _, hmin⟩ := hb
  obtain ⟨r, m, words, hbody, hle, rfl, -⟩ :=
    sampleBody_eq_algorithmL Config.block e n.toNat k.toNat s hk0 hkn hn (by omega)
  exact ⟨hle, sameRegisters_of_answer h (hbody ▸ exec_sample_of_inBounds hs hb)⟩

end

theorem samplewr_draws {e : Engine} {s t : State} {n k : Word} (hs : s.constructed e = true)
    (h : exec (.samplewr e n k) s = .next t) :
    sameRegisters e (drawTimes Config.block e
      (if n.toNat < 2 ^ 63 ∧ k.toNat ≤ kmax Config.block ∧ n ≠ 0 then k.toNat else 0) s) t := by
  by_cases hb : inBounds Config.block (.samplewr e n k)
  · have ⟨hn, hk⟩ := hb
    have hexec := exec_samplewr_of_inBounds hs hn hk
    by_cases hzero : n = 0
    · subst hzero
      obtain ⟨m, hbody, -⟩ := samplewrBody_zero Config.block e k.toNat s hk
      simpa using sameRegisters_of_answer h (hbody ▸ hexec)
    · obtain ⟨m, hbody, -⟩ := samplewrBody_eq Config.block e n k.toNat s hn hzero hk
      rw [if_pos ⟨hn, hk, hzero⟩]
      exact sameRegisters_of_answer h (hbody ▸ hexec)
  · rw [if_neg fun ⟨hn, hk, _⟩ => hb ⟨hn, hk⟩]
    exact sameRegisters_of_not_inBounds h rfl hb

/-- Settles O59: a command that is not ready or not in bounds draws nothing, and the others by the laws of their
bodies. -/
theorem sequenceCommandsMakeTheListedDraws : Obligations.SequenceCommandsMakeTheListedDraws := by
  unfold Obligations.SequenceCommandsMakeTheListedDraws
  intro e s n k
  refine ⟨fun hs i hi t h => ?unconstructed, fun hs => ⟨fun t h => shuffle_draws hs h, fun t h => ?sample,
    fun t h => samplewr_draws hs h⟩⟩
  case unconstructed =>
    have hnone : isConstruction i = false := by
      simp only [List.mem_cons, List.not_mem_nil, or_false] at hi
      rcases hi with rfl | rfl | rfl <;> rfl
    exact sameRegisters_of_not_constructed h hnone hs
  case sample =>
    exact ⟨sameRegisters_of_not_inBounds h rfl, fun hb => ⟨sample_draws_of_zero hs hb h,
      fun _ => sample_draws_of_le hs hb h, sample_draws_of_lt hs hb h⟩⟩

end Sys2Proof.Proofs

/-! ## Errors (spec/60_exceptions.md R300 to R307, R313)

`RefusedFor` says when a command is refused, and with which status. `exec_answer_cases` is the inversion of `exec` in these
terms: each obligation about a status reads its own case of `RefusedFor`. -/

namespace Sys2Proof.Proofs

open Sys2Proof.Machine

/-- Why a command answers the status: R301, R304, and R305 under the priority of R307. A command is never refused with `OK`,
nor with `E_ILLEGAL`, which is a packet's (R302). -/
def RefusedFor (i : Instr) (s : State) : Status → Prop
  | .ok | .illegal => False
  | .unseeded => ∃ e, needsEngine i = some e ∧ s.constructed e = false
  | .param => zeroModulus i
  | .range => engineReady i s ∧ ¬ inBounds Config.block i

theorem statusCode_injective : Function.Injective statusCode := by
  intro st st' h
  cases st <;> cases st' <;> simp [statusCode] at h ⊢

section

variable {i : Instr} {s t : State} {r : Response}

/-- The error codes of R300 that a command can answer. -/
theorem RefusedFor.statusCode_cases {st : Status} (h : RefusedFor i s st) :
    statusCode st = 2 ∨ statusCode st = 3 ∨ statusCode st = 4 := by
  cases st with
  | ok | illegal => exact h.elim
  | unseeded => exact .inl rfl
  | param => exact .inr (.inl rfl)
  | range => exact .inr (.inr rfl)

/-- Every command answers: it is refused for a reason of its own, or performed. -/
theorem exec_answer_cases (i : Instr) (s : State) :
    (∃ st, RefusedFor i s st ∧ exec i s = raise st s) ∨ ∃ words u, exec i s = respond words u := by
  have hshape := exec_shape i s
  generalize exec i s = o at hshape ⊢
  cases hshape with
  | unseeded e hneeds hflag => exact .inl ⟨.unseeded, ⟨e, hneeds, hflag⟩, rfl⟩
  | param hzero => exact .inl ⟨.param, hzero, rfl⟩
  | range hready hout => exact .inl ⟨.range, ⟨hready, hout⟩, rfl⟩
  | built | performed => exact .inr ⟨_, _, rfl⟩

/-- What the response of a command tells: it was refused and writes nothing, or its status is `OK` (R303). -/
theorem exec_response_cases (h : exec i s = .next t) (hr : t.response = some r) :
    (∃ st, RefusedFor i s st ∧ r = ⟨statusCode st, []⟩ ∧ t = s.withResponse r) ∨ r.status = statusCode .ok := by
  rcases exec_answer_cases i s with ⟨st, hrefused, hexec⟩ | ⟨words, u, hexec⟩
  · obtain rfl := raise_next (hexec ▸ h)
    cases hr
    exact .inl ⟨st, hrefused, rfl, rfl⟩
  · obtain rfl := respond_next (hexec ▸ h)
    cases hr
    exact .inr rfl

theorem refusedFor_of_status {st : Status} (h : exec i s = .next t) (hr : t.response = some r)
    (hstatus : r.status = statusCode st) (hne : st ≠ .ok) : RefusedFor i s st := by
  rcases exec_response_cases h hr with ⟨st', hrefused, rfl, -⟩ | hok
  · exact statusCode_injective hstatus ▸ hrefused
  · exact absurd (statusCode_injective (hstatus.symm.trans hok)) hne

theorem exec_refused_next (h : exec i s = .next t) (hr : t.response = some r) (hne : r.status ≠ 0) :
    t = { s with response := some ⟨r.status, []⟩ } := by
  rcases exec_response_cases h hr with ⟨st, -, rfl, ht⟩ | hok
  · exact ht
  · exact absurd hok hne

/-! ### The conditions of the three errors -/

/-- A construction command is not checked for an engine or for bounds (R301, R305). -/
theorem unchecked_of_isConstruction (h : isConstruction i = true) :
    needsEngine i = none ∧ inBounds Config.block i := by
  cases i with
  | initLcg _ | initeLcg | initpLcg _ _ _ _ | initPcg32 _ | initePcg32 | initpPcg32 _ _ _ | initPcg64 _ _ | initePcg64
  | initpPcg64 _ _ _ _ _ _ | initSm64 _ | initeSm64 | initXo _ | initeXo => exact ⟨rfl, trivial⟩
  | _ => cases h

theorem exists_eq_initpLcg_of_zeroModulus (h : zeroModulus i) : ∃ seed mul inc, i = .initpLcg seed mul inc 0 := by
  cases i with
  | initpLcg seed mul inc modulus => exact ⟨seed, mul, inc, congrArg (Instr.initpLcg seed mul inc) h⟩
  | _ => exact h.elim

theorem isConstruction_of_zeroModulus (h : zeroModulus i) : isConstruction i = true := by
  obtain ⟨seed, mul, inc, rfl⟩ := exists_eq_initpLcg_of_zeroModulus h
  rfl

/-- The engine is looked at before any operand (R307). -/
theorem exec_of_not_constructed {e : Engine} (hneeds : needsEngine i = some e) (hflag : s.constructed e = false) :
    exec i s = raise .unseeded s := by
  have hnotBuilt (hconstr : isConstruction i = true) : False := by
    obtain ⟨hnone, -⟩ := unchecked_of_isConstruction hconstr
    cases hnone.symm.trans hneeds
  have hnotReady (hready : engineReady i s) : False := by
    cases hflag.symm.trans (hready e hneeds)
  have hshape := exec_shape i s
  generalize exec i s = o at hshape ⊢
  cases hshape with
  | unseeded => rfl
  | param hzero => exact (hnotBuilt (isConstruction_of_zeroModulus hzero)).elim
  | range hready => exact (hnotReady hready).elim
  | built _ _ hconstr => exact (hnotBuilt hconstr).elim
  | performed _ _ _ _ _ hready => exact (hnotReady hready).elim

theorem exec_initpLcg_zero (seed mul inc : Word) (s : State) :
    exec (.initpLcg seed mul inc 0) s = raise .param s := rfl

theorem exec_of_not_inBounds (hready : engineReady i s) (hout : ¬ inBounds Config.block i) :
    exec i s = raise .range s := by
  have hnotBuilt (hconstr : isConstruction i = true) : False := hout (unchecked_of_isConstruction hconstr).2
  have hshape := exec_shape i s
  generalize exec i s = o at hshape ⊢
  cases hshape with
  | unseeded e hneeds hflag => cases hflag.symm.trans (hready e hneeds)
  | param hzero => exact (hnotBuilt (isConstruction_of_zeroModulus hzero)).elim
  | range => rfl
  | built _ _ hconstr => exact (hnotBuilt hconstr).elim
  | performed _ _ _ _ _ _ hin => exact absurd hin hout

end

/-- Settles O17: the check of the flag stands before every other, and the status names its reason. -/
theorem unseededIsAnsweredExactlyWhenNotConstructed : Obligations.UnseededIsAnsweredExactlyWhenNotConstructed := by
  unfold Obligations.UnseededIsAnsweredExactlyWhenNotConstructed
  exact ⟨fun _ _ _ hneeds hflag => exec_of_not_constructed hneeds hflag,
    fun _ _ _ _ h hr hstatus => refusedFor_of_status (st := .unseeded) h hr hstatus (by decide)⟩

/-- Settles O18: the status names its reason, and only `INITP.LCG` has a modulus operand. -/
theorem onlyZeroModulusIsRefused : Obligations.OnlyZeroModulusIsRefused := by
  unfold Obligations.OnlyZeroModulusIsRefused
  refine ⟨fun s seed mul inc => exec_initpLcg_zero seed mul inc s, fun i s t r h hr hstatus => ?_⟩
  have hzero : zeroModulus i := refusedFor_of_status (st := .param) h hr hstatus (by decide)
  exact exists_eq_initpLcg_of_zeroModulus hzero

/-- Settles O19: with its engine constructed a command out of bounds fails no earlier check, and the status names its
reason. -/
theorem rangeIsAnsweredExactlyOutsideTheBounds : Obligations.RangeIsAnsweredExactlyOutsideTheBounds := by
  unfold Obligations.RangeIsAnsweredExactlyOutsideTheBounds
  exact ⟨fun _ _ hready hout => exec_of_not_inBounds hready hout,
    fun _ _ _ _ h hr hstatus => refusedFor_of_status (st := .range) h hr hstatus (by decide)⟩

/-- Settles O21: a refused command answers the code of its reason, and a performed one `OK`. -/
theorem everyCommandAnswersAListedStatus : Obligations.EveryCommandAnswersAListedStatus := by
  unfold Obligations.EveryCommandAnswersAListedStatus
  intro i s
  rcases exec_answer_cases i s with ⟨st, hrefused, hexec⟩ | ⟨words, u, hexec⟩
  · exact ⟨_, _, hexec, rfl, .inr hrefused.statusCode_cases⟩
  · exact ⟨_, _, hexec, rfl, .inl rfl⟩

/-- Settles O20: a packet that decodes answers as its command does, and an illegal one as R302 says. -/
theorem refusedCommandsLeaveTheStateAlone : Obligations.RefusedCommandsLeaveTheStateAlone := by
  unfold Obligations.RefusedCommandsLeaveTheStateAlone
  refine ⟨fun i s t r => exec_refused_next, fun s t p e rest r hinbox hstep hr hne => ?_⟩
  cases hdecode : decode p with
  | error reason =>
    cases (step_of_inbox_cons_error hinbox hdecode).symm.trans hstep
    cases hr
    rfl
  | ok i =>
    have hexec := (stepRunsTheDecodedCommand s p e rest i hinbox hdecode).symm.trans hstep
    exact exec_refused_next hexec hr hne

/-! ### Packets -/

theorem exists_decode_of_legal {p : Packet} (h : p.illegal = false) : ∃ i, decode p = .ok i := by
  cases hdecode : decode p with
  | error reason =>
    have hillegal := (decoderRejectsExactlyTheIllegalPackets p).1 ⟨reason, hdecode⟩
    cases h.symm.trans hillegal
  | ok i => exact ⟨i, rfl⟩

/-- R302: the check looks at the header and at the number of words. -/
theorem illegal_congr {p q : Packet} (hhdr : p.hdr = q.hdr) (hcount : p.words.length = q.words.length) :
    p.illegal = q.illegal := by
  obtain ⟨h, ws⟩ := p
  obtain ⟨g, vs⟩ := q
  obtain rfl : h = g := hhdr
  rw [illegal_eq_headerIllegal_or, illegal_eq_headerIllegal_or, show ws.length = vs.length from hcount]

/-- Settles O4: the decoder rejects the illegal packets, no command answers `E_ILLEGAL`, and the check reads no more than
`illegal_congr` says. -/
theorem illegalPacketsAnswerTheIllegalStatus : Obligations.IllegalPacketsAnswerTheIllegalStatus := by
  unfold Obligations.IllegalPacketsAnswerTheIllegalStatus
  refine ⟨fun s p e rest hinbox hillegal => ?illegal, fun s t p e rest r hinbox hlegal hstep hr hstatus => ?legal,
    fun _ _ => illegal_congr⟩
  case illegal =>
    obtain ⟨reason, hdecode⟩ := (decoderRejectsExactlyTheIllegalPackets p).2 hillegal
    exact step_of_inbox_cons_error hinbox hdecode
  case legal =>
    obtain ⟨i, hdecode⟩ := exists_decode_of_legal hlegal
    have hexec := (stepRunsTheDecodedCommand s p e rest i hinbox hdecode).symm.trans hstep
    exact refusedFor_of_status (st := .illegal) hexec hr hstatus (by decide)

/-- Settles O8: with no input presented the step is `idle`. -/
theorem stepWithNothingPresentedIsIdle : Obligations.StepWithNothingPresentedIsIdle := by
  unfold Obligations.StepWithNothingPresentedIsIdle
  intro s hinbox
  exact step_of_inbox_nil hinbox

end Sys2Proof.Proofs
